-- ==== Sys2Proof/Word.lean ====
section
/-! DEFINITION. The word types of WTO: one value of the number format (R80) and one command word (R60). -/

namespace Sys2Proof

/-- One value of `FMT`, binary32: 32 bits (R9, R80). -/
abbrev Word := BitVec 32

/-- One command word `cmd[33:0]` (R60). -/
abbrev Cmd := BitVec 34

end Sys2Proof
end

