-- ==== Sys2Proof/Config.lean ====
section
/-! DEFINITION. The configuration of an instance (00_scope section 3), fixed for its life, and the record `Num` of
number-format operations over which the command rules are written (40_numerics, opening text; R9, D27). -/

namespace Sys2Proof

/-- Timing parameters of an instance, in clock cycles (R11, OPEN). No rule that computes a value reads them; the clocked
port (Machine/Port.lean) does. `readyWithRsp` says whether `cmd_ready` is 1 already in the response cycle or only in the
cycle after it: R71 allows both. -/
structure Timing where
  tPull        : Nat
  tSetf        : Nat
  tInfo        : Nat
  readyWithRsp : Bool
  deriving DecidableEq, Repr

/-- The configuration record `CFG` of R7 to R11: the table image, the sample rate, the timing parameters. The number
format of R9 is not a field: it is the argument `Num` of the command rules. -/
structure Cfg where
  table  : List Word
  sr     : BitVec 32
  timing : Timing
  deriving DecidableEq, Repr

/-- The instance CFG_A of 95_test_vectors section 0, which `State.reset` is built with (log entry 1, DESIGN CHOICE;
timing: log entry 2, DESIGN CHOICE). -/
def Cfg.cfgA : Cfg :=
  { table := [0x00000000#32, 0x3F800000#32, 0x00000000#32, 0xBF800000#32]
    sr := 8#32
    timing := { tPull := 2, tSetf := 1, tInfo := 1, readyWithRsp := false } }

/-- The constants R93 writes as literals. -/
inductive Lit where
  | negHalf | half | threeHalves | negThreeHalves | fiveHalves | two | one
  deriving DecidableEq, Repr

/-- The record `NUM` of 40_numerics: every operation the command rules use. Its binary32 instance is the hardware
(`Machine.binary32`), its exact instance (R89) is `Machine.exactNum`. -/
structure Num (α : Type) where
  fadd     : α → α → α
  fsub     : α → α → α
  fmul     : α → α → α
  fdiv     : α → α → α
  ffloor   : α → α
  ofNat    : Nat → α
  toIndex  : α → Nat
  isFinite : α → Bool
  wrap     : Nat → α → α
  lit      : Lit → α

end Sys2Proof
end

