-- ==== Sys2Proof/Machine/Number.lean ====
section
/-! DEFINITION. The number format of the hardware, IEEE 754 binary32 (40_numerics section 1, R80 to R88), and the binary32
instance of the record `Num`. Every finite word is a whole multiple of `2^-149`, so a value is held exactly as an integer
count of `2^-149`, and every operation is the exact result rounded once. -/

namespace Sys2Proof.Machine.F32

/-- `sign = w[31]` (R80). -/
def signBit (w : Word) : Bool := w.getLsbD 31

/-- `exp = w[30:23]`, unsigned (R80). -/
def expField (w : Word) : Nat := (w.extractLsb' 23 8).toNat

/-- `frac = w[22:0]`, unsigned (R80). -/
def fracField (w : Word) : Nat := (w.extractLsb' 0 23).toNat

/-- R88. -/
def isFinite (w : Word) : Bool := expField w != 255

/-- R81, row 5. -/
def isNaN (w : Word) : Bool := expField w == 255 && fracField w != 0

/-- R81, row 4. -/
def isInf (w : Word) : Bool := expField w == 255 && fracField w == 0

/-- R81, row 1. -/
def isZero (w : Word) : Bool := expField w == 0 && fracField w == 0

/-- `2^149`: how many smallest positive values make one (R81). -/
def scale : Nat := 2 ^ 149

/-- The magnitude of a finite word, in units of `2^-149` (R81, rows 1 to 3). -/
def mag (w : Word) : Nat :=
  if expField w = 0 then fracField w else (2 ^ 23 + fracField w) * 2 ^ (expField w - 1)

/-- The value of a finite word, in units of `2^-149` (R81). -/
def scaled (w : Word) : Int :=
  if signBit w then -(mag w : Int) else (mag w : Int)

/-- `val(w)` of a finite word (R15, R81). -/
def val (w : Word) : Rat := (scaled w : Rat) / (scale : Rat)

/-- The word with the given sign bit and the given bits 30:0 (R80). -/
def pack (neg : Bool) (low : Nat) : Word := BitVec.ofNat 32 (if neg then 2 ^ 31 + low else low)

/-- A zero of the given sign (R81). -/
def zero (neg : Bool) : Word := pack neg 0

/-- An infinity of the given sign (R81). -/
def infinity (neg : Bool) : Word := pack neg (255 * 2 ^ 23)

/-- The one NaN the block produces (R85(d)). -/
def nan : Word := 0x7FC00000#32

/-- `neg` flips the sign bit (R84). -/
def neg (w : Word) : Word := w ^^^ 0x80000000#32

/-- The position of the binary point for the magnitude `n / d` (in units of `2^-149`): the spacing of the format there is
`2^e` units. Subnormals and the first normal binade share `e = 0` (R81). -/
def roundExp (n d : Nat) : Nat := Nat.log2 (n / d) - 23

/-- `n / d` rounded to a whole number, to nearest, ties to even (R83(b)). -/
def roundHalfEven (n d : Nat) : Nat :=
  if d < 2 * (n % d) ∨ (2 * (n % d) = d ∧ n / d % 2 = 1) then n / d + 1 else n / d

/-- `2^128 - 2^103` in units of `2^-149`: from this magnitude on a result rounds to an infinity (R83(c)). -/
def overflowAt : Nat := (2 ^ 128 - 2 ^ 103) * scale

/-- Bits 30:0 of the magnitude `n / d` (in units of `2^-149`, `d` not 0) rounded to the format, to nearest, ties to even
(R83). A carry out of the fraction moves into the exponent. From `2^128 - 2^103` on it is the infinity (R83(c)). -/
def roundMag (n d : Nat) : Nat :=
  if overflowAt * d ≤ n then 255 * 2 ^ 23
  else roundExp n d * 2 ^ 23 + roundHalfEven n (d * 2 ^ roundExp n d)

/-- `fl` of the real with sign `neg` and magnitude `n / d` in units of `2^-149` (R83); a zero keeps the sign. -/
def round (neg : Bool) (n d : Nat) : Word := pack neg (roundMag n d)

/-- `fl(x)` (R83). A zero `x` gives `+0`: the sign of a zero result belongs to the operations (R84). -/
def fl (x : Rat) : Word := round (decide (x < 0)) (x.num.natAbs * scale) x.den

/-- `fadd` of two finite words (R84): the exact sum rounded once; an exact sum of zero is `-0` only for `-0` and `-0`. -/
def addFinite (a b : Word) : Word :=
  if scaled a + scaled b = 0 then zero (signBit a && signBit b)
  else round (decide (scaled a + scaled b < 0)) (scaled a + scaled b).natAbs 1

/-- `fadd` (R84, R85). -/
def fadd (a b : Word) : Word :=
  if isNaN a || isNaN b then nan
  else if isInf a then (if isInf b && (signBit a != signBit b) then nan else a)
  else if isInf b then b
  else addFinite a b

/-- `fsub` (R84, R85). -/
def fsub (a b : Word) : Word := fadd a (neg b)

/-- `fmul` (R84, R85). -/
def fmul (a b : Word) : Word :=
  if isNaN a || isNaN b then nan
  else if isInf a || isInf b then
    (if isZero a || isZero b then nan else infinity (signBit a != signBit b))
  else round (signBit a != signBit b) (mag a * mag b) scale

/-- `fdiv` (R84, R85). -/
def fdiv (a b : Word) : Word :=
  if isNaN a || isNaN b then nan
  else if isInf a then (if isInf b then nan else infinity (signBit a != signBit b))
  else if isInf b then zero (signBit a != signBit b)
  else if isZero b then (if isZero a then nan else infinity (signBit a != signBit b))
  else round (signBit a != signBit b) (mag a * scale) (mag b)

/-- `of_nat(n)` (R86). -/
def ofNat (n : Nat) : Word := round false (n * scale) 1

/-- `ffloor(a)` of a finite word: the word of `floor(val(a))`, with the sign of `a` (R87). R87 covers finite words alone;
a NaN answers the NaN and an infinity itself, as R85 has it for the other operations (log entry 11, DESIGN CHOICE, not
reached by any command). -/
def ffloor (a : Word) : Word :=
  if isNaN a then nan
  else if isInf a then a
  else round (signBit a) ((scaled a / (scale : Int)).natAbs * scale) 1

/-- `to_index(a)` of a finite, integer-valued word that is not negative (R87). Outside that domain the value has no
meaning (log entry 11, not reached by any command). -/
def toIndex (a : Word) : Nat := (scaled a / (scale : Int)).toNat

/-- `m = val(s) - L * floor(val(s) / L)` in units of `2^-149` (R96, first line). -/
def wrapExact (L : Nat) (s : Word) : Nat := (scaled s % ((L * scale : Nat) : Int)).toNat

/-- `WRAP(s)` of a finite word (R96): the exact modulo rounded once, a result of `L` becoming `+0`. R96 covers finite words
alone; any other word answers the NaN (log entry 11, DESIGN CHOICE, not reached by any command). -/
def wrap (L : Nat) (s : Word) : Word :=
  if isFinite s then
    (if mag (round false (wrapExact L s) 1) = L * scale then zero false else round false (wrapExact L s) 1)
  else nan

/-- The words of the constants of R93, which gives them in hexadecimal. -/
def lit : Lit → Word
  | .negHalf        => 0xBF000000#32
  | .half           => 0x3F000000#32
  | .threeHalves    => 0x3FC00000#32
  | .negThreeHalves => 0xBFC00000#32
  | .fiveHalves     => 0x40200000#32
  | .two            => 0x40000000#32
  | .one            => 0x3F800000#32

end Sys2Proof.Machine.F32

namespace Sys2Proof.Machine

/-- The binary32 instance of `NUM`: the hardware (R9, R89). -/
def binary32 : Num Word where
  fadd     := F32.fadd
  fsub     := F32.fsub
  fmul     := F32.fmul
  fdiv     := F32.fdiv
  ffloor   := F32.ffloor
  ofNat    := F32.ofNat
  toIndex  := F32.toIndex
  isFinite := F32.isFinite
  wrap     := F32.wrap
  lit      := F32.lit

end Sys2Proof.Machine
end

