-- ==== Sys2Proof/Machine/Memory.lean ====
section
/-! DEFINITION. The one memory of WTO: the read-only wavetable, `L` words of 32 bits addressed by their index (20_memory,
R40 to R50). There is no write operation (R41). -/

namespace Sys2Proof.Machine

/-- The table image: a list of `L` words in ascending index order (R48). The list IS the canonical form: index `i` is
listed exactly when `i < L`, each index once (log entry 10). -/
abbrev Memory := List Word

/-- R7: `4 <= L <= 2^24` and every entry finite. -/
def Memory.wf (t : Memory) : Bool :=
  decide (4 ≤ t.length) && decide (t.length ≤ 2 ^ 24) && t.all F32.isFinite

/-- `MemRead(i, 1)` (R15, R45): the word at index `i`, unchanged; no word at an index that does not exist (`i >= L`). The
type of the words is a parameter so that the exact instance reads its table in the same way. -/
def memRead {α : Type} (t : List α) (i : Nat) : Option α := t[i]?

/-- `(k + d) mod L` with the mathematical modulo (R43, R90). -/
def tapIndex (L k : Nat) (d : Int) : Nat := (((k : Int) + d) % (L : Int)).toNat

end Sys2Proof.Machine
end

