-- ==== Sys2Proof/Syntax.lean ====
section
/-! DEFINITION. The commands of WTO as syntax: one constructor per row of spec/opcode_table.json (R61, R69), what a host
can do to the block (R13, R75), and the assembler's lines (R74, R75). -/

namespace Sys2Proof

/-- The stream property a GET_INFO asks for (R28, R64, R74). -/
inductive Selector where
  | channels
  | sampleRate
  | frameLength
  | totalDuration
  deriving DecidableEq, Repr

/-- The commands: the type of R69. Operand bits a command ignores (R62, R64, R65) are no part of it. -/
inductive Instr where
  | getSample
  | setFrequency (f : Word)
  | getInfo (sel : Selector)
  | reserved
  deriving DecidableEq, Repr

/-- One action of the host towards the block: a command word (R13), or one application of reset, which is not a command
word (R75, R180). -/
inductive HostInput where
  | command (w : Cmd)
  | reset
  deriving DecidableEq, Repr

/-- The operand of SET_FREQUENCY in assembler text (R74): a decimal real, here sign, digits and number of decimals
(`-1.25` is `decimal true 125 2`), or a raw word written `#0xhhhhhhhh`. -/
inductive FreqArg where
  | decimal (neg : Bool) (digits : Nat) (places : Nat)
  | raw (w : Nat)
  deriving DecidableEq, Repr

/-- The operand of GET_INFO in assembler text (R74): a number or one of the four names. -/
inductive InfoArg where
  | number (n : Nat)
  | name (sel : Selector)
  deriving DecidableEq, Repr

/-- One line of an assembler program (R74) or a pseudo-instruction (R75). The aliases PULL, SETF and INFO are other
spellings of the first three. -/
inductive AsmLine where
  | getSample
  | setFrequency (f : FreqArg)
  | getInfo (sel : InfoArg)
  | word (w : Nat)
  | reset
  | pull (n : Nat)
  | hold
  deriving DecidableEq, Repr

end Sys2Proof
end

