-- ==== Sys2Proof/WellFormed.lean ====
section
/-! DEFINITION. What is checked before anything runs: the configuration (R7, R8, R11, R12), and the operands of assembler
lines (R74). A command itself has nothing to check. -/

namespace Sys2Proof

/-- R11: the timing parameters are positive. -/
def Timing.wf (t : Timing) : Bool := decide (0 < t.tPull) && decide (0 < t.tSetf) && decide (0 < t.tInfo)

/-- R12: the configuration is an instance of the hardware. `SR` is 32 bits wide, so R8's upper bound is its type's. -/
def Cfg.wf (c : Cfg) : Bool := Machine.Memory.wf c.table && decide (c.sr ≠ 0#32) && Timing.wf c.timing

/-- Every term of `Instr` is a command: the fields' types admit no value that the spec's encoding lacks (R69). -/
def Instr.wf : Instr → Bool
  | .getSample      => true
  | .setFrequency _ => true
  | .getInfo _      => true
  | .reserved       => true

/-- A raw word written in a SET_FREQUENCY has 32 bits (R74). -/
def FreqArg.wf : FreqArg → Bool
  | .decimal _ _ _ => true
  | .raw w         => decide (w < 2 ^ 32)

/-- A numeric selector is `0..3` (R74). -/
def InfoArg.wf : InfoArg → Bool
  | .number n => decide (n < 4)
  | .name _   => true

/-- An assembler line the table of R74 (or of R75) allows. -/
def AsmLine.wf : AsmLine → Bool
  | .getSample      => true
  | .setFrequency f => f.wf
  | .getInfo sel    => sel.wf
  | .word w         => decide (w < 2 ^ 34)
  | .reset          => true
  | .pull _         => true
  | .hold           => true

end Sys2Proof
end

