-- ==== Sys2Proof/Machine/State.lean ====
section
/-! DEFINITION. The state of WTO as plain data (10_state), the response words' content (R66 to R68), the reasons a step can
stop, and the state after reset (R31, R180). -/

namespace Sys2Proof.Machine

/-- The status of a response (R67). -/
inductive Status where
  | ok
  | none
  | badFrequency
  | illegalCommand
  deriving DecidableEq, Repr

/-- One response: `status` and `data[31:0]` (R66). -/
structure Response where
  status : Status
  data   : Word
  deriving DecidableEq, Repr

/-- The state of the machine. `phase` and `inc` are the whole mutable state of the block (R20); `cfg` is the instance's
configuration, which no step writes (R20, R181; log entry 1). `inbox` and `rsps` are the host's side of the command port,
the model's own fields: what the host issues next, in order (R13, R26, R70; log entry 3), and the responses so far, oldest
first (R51, R66, R164; log entry 4). -/
structure State where
  cfg   : Cfg
  phase : Word
  inc   : Word
  inbox : List HostInput
  rsps  : List Response
  deriving DecidableEq, Repr

/-- What stops the machine. The hardware has no fault (R162, R164). -/
inductive Fault where
  /-- A table read at an index `i >= L`, where no word exists (R45). Raised by GET_SAMPLE's gathering of its taps. No state
  reaches it: its indices are taken modulo `L` (R44). Safe (log entry 9). -/
  | noTableWord
  deriving DecidableEq, Repr

/-- Why a step has no meaning (R164 gives the two kinds of refusal). -/
inductive Refusal where
  /-- An instruction that has no meaning in this model yet, by its mnemonic. Raised by no arm of `exec`. Safe. -/
  | notModelled (mnemonic : String)
  /-- The configuration is not an instance of this hardware (R12, R150). Raised by building it, and, for a state written down
  with such a configuration, by every step, command, reset and clock edge. Safe (log entry 8). -/
  | notAnInstance
  /-- The registers break the invariant of R23, which only hardware that was never reset can do: a broken duty of the host
  (R184, R188). Raised by every command, and at the port by the edge that would accept one. Safe (log entry 7). -/
  | notReset
  /-- At the clocked port the host changed `cmd` while `cmd_valid` was 1 and `cmd_ready` was 0 (R71): a broken duty of the
  host (R186). Raised by a clock edge alone, by no command and no step. Safe (log entry 15). -/
  | brokenHandshake
  deriving DecidableEq, Repr

/-- `L`, the table length (R7). -/
def State.tableLen (s : State) : Nat := s.cfg.table.length

/-- The machine right after reset, for a built instance: `phase = +0.0`, `inc = +0.0` (R31, R180), the configuration as it
was built (R181), nothing issued and nothing answered yet (log entries 3, 4). Only an instance of the hardware has one (R12). -/
def State.resetOf (c : Cfg) (_ : c.wf = true) : State :=
  { cfg := c, phase := 0x00000000#32, inc := 0x00000000#32, inbox := [], rsps := [] }

/-- The machine right after reset, built as the spec's CFG_A (log entry 1, DESIGN CHOICE: the spec leaves the configuration
to the instance). -/
def State.reset : State := State.resetOf Cfg.cfgA (by decide)

end Sys2Proof.Machine
end

