-- ==== Sys2Proof/Machine/Flags.lean ====
section
/-! DEFINITION. WTO has no flags, condition codes or latched error bits (R27, R152). What reports an outcome in their place
is the status field of the response word (R66, R67). -/

namespace Sys2Proof.Machine

/-- The status codes (R67). -/
def Status.code : Status → BitVec 2
  | .ok             => 0b00#2
  | .none           => 0b01#2
  | .badFrequency   => 0b10#2
  | .illegalCommand => 0b11#2

/-- A run-time error: the two of R151. `NONE` is not one (R155). -/
def Status.isError : Status → Bool
  | .ok             => false
  | .none           => false
  | .badFrequency   => true
  | .illegalCommand => true

/-- The response word `rsp[33:0] = {status, data}` (R66). -/
def Response.word (r : Response) : BitVec 34 := r.status.code ++ r.data

end Sys2Proof.Machine
end

