-- ==== Sys2Proof/Machine/Interp.lean ====
section
/-! DEFINITION. The functions of 40_numerics sections 3 to 6 and the two computing commands' rules, written once over the
record `Num` (R9, R89): SPLIT (R91), WEIGHTS (R93), INTERP (R94), ADVANCE (R98), INCREMENT (R99). -/

namespace Sys2Proof.Machine

/-- The four weights of R92. -/
structure Weights (α : Type) where
  a0 : α
  a1 : α
  a2 : α
  a3 : α
  deriving DecidableEq, Repr

/-- The four taps of one pull (R16, R43). -/
structure Taps (α : Type) where
  y0 : α
  y1 : α
  y2 : α
  y3 : α
  deriving DecidableEq, Repr

/-- The index half of `SPLIT(phase)`: `k = to_index(ffloor(phase))` (R91). -/
def splitIndex {α : Type} (N : Num α) (phase : α) : Nat := N.toIndex (N.ffloor phase)

/-- The fraction half of `SPLIT(phase)`: `t = fsub(phase, ffloor(phase))` (R91). -/
def splitFrac {α : Type} (N : Num α) (phase : α) : α := N.fsub phase (N.ffloor phase)

/-- `t2 = fmul(t, t)` (R93). -/
def square {α : Type} (N : Num α) (t : α) : α := N.fmul t t

/-- `t3 = fmul(t2, t)` (R93). -/
def cube {α : Type} (N : Num α) (t : α) : α := N.fmul (square N t) t

/-- `WEIGHTS(t)`, in the evaluation order of R93. -/
def weights {α : Type} (N : Num α) (t : α) : Weights α :=
  { a0 := N.fsub (N.fadd (N.fmul (N.lit .negHalf) (cube N t)) (square N t)) (N.fmul (N.lit .half) t)
    a1 := N.fadd (N.fsub (N.fmul (N.lit .threeHalves) (cube N t)) (N.fmul (N.lit .fiveHalves) (square N t))) (N.lit .one)
    a2 := N.fadd (N.fadd (N.fmul (N.lit .negThreeHalves) (cube N t)) (N.fmul (N.lit .two) (square N t))) (N.fmul (N.lit .half) t)
    a3 := N.fsub (N.fmul (N.lit .half) (cube N t)) (N.fmul (N.lit .half) (square N t)) }

/-- The products first, then their sum left to right in tap order (R94). -/
def weightedSum {α : Type} (N : Num α) (a : Weights α) (y : Taps α) : α :=
  N.fadd (N.fadd (N.fadd (N.fmul a.a0 y.y0) (N.fmul a.a1 y.y1)) (N.fmul a.a2 y.y2)) (N.fmul a.a3 y.y3)

/-- `INTERP(y0, y1, y2, y3, t)` (R94). -/
def interp {α : Type} (N : Num α) (y : Taps α) (t : α) : α := weightedSum N (weights N t) y

/-- The four table reads at the four effective addresses of R43; nothing if one of the words does not exist. -/
def gather {α : Type} (t : List α) (k : Nat) : Option (Taps α) :=
  match memRead t (tapIndex t.length k (-1)), memRead t (tapIndex t.length k 0),
      memRead t (tapIndex t.length k 1), memRead t (tapIndex t.length k 2) with
  | some y0, some y1, some y2, some y3 => some { y0 := y0, y1 := y1, y2 := y2, y3 := y3 }
  | _, _, _, _ => none

/-- The sample at a phase: steps 1 to 4 of GET_SAMPLE (R120 to R124), a function of the phase and the table alone. -/
def sampleAt {α : Type} (N : Num α) (t : List α) (phase : α) : Option α :=
  match gather t (splitIndex N phase) with
  | some y => some (interp N y (splitFrac N phase))
  | none   => none

/-- `ADVANCE(phase, inc) = WRAP(fadd(phase, inc))` (R98). -/
def advance {α : Type} (N : Num α) (L : Nat) (phase inc : α) : α := N.wrap L (N.fadd phase inc)

/-- `INCREMENT(f) = fdiv(fmul(f, Lf), SRf)` (R99), with `Lf` and `SRf` of R10. -/
def increment {α : Type} (N : Num α) (L SR : Nat) (f : α) : α := N.fdiv (N.fmul f (N.ofNat L)) (N.ofNat SR)

/-- The rule of GET_SAMPLE (R120): the sample and the new phase; nothing if a table word does not exist. -/
def getSampleRule {α : Type} (N : Num α) (t : List α) (phase inc : α) : Option (α × α) :=
  match sampleAt N t phase with
  | some out => some (out, advance N t.length phase inc)
  | none     => none

/-- The rule of SET_FREQUENCY (R110): the new increment; nothing when it is not finite (R113). -/
def setFrequencyRule {α : Type} (N : Num α) (L SR : Nat) (f : α) : Option α :=
  if N.isFinite (increment N L SR f) then some (increment N L SR f) else none

/-- `AW = ceil(log2(L))`, the width of a table index (R10): the least `w` with `L <= 2^w`. -/
def indexWidth (L : Nat) : Nat := if L ≤ 1 then 0 else Nat.log2 (L - 1) + 1

end Sys2Proof.Machine
end

