-- ==== Sys2Proof/Machine/Operands.lean ====
section
/-! DEFINITION. What the commands read: the constants of the instance (R10), the hardwired stream properties (R28), the
increment of a frequency operand (R111), and the test of the registers' invariant (R23). -/

namespace Sys2Proof.Machine

/-- `SR` as a number (R8). -/
def Cfg.rate (c : Cfg) : Nat := c.sr.toNat

/-- `Lf = of_nat(L)` (R10). -/
def Cfg.lf (c : Cfg) : Word := F32.ofNat c.table.length

/-- `SRf = of_nat(SR)` (R10). -/
def Cfg.srf (c : Cfg) : Word := F32.ofNat (Cfg.rate c)

/-- `AW`, the width of a table index (R10). -/
def Cfg.aw (c : Cfg) : Nat := indexWidth c.table.length

/-- The stream properties (R28, R142): a value, or none where the property is not declared. -/
def streamProperty (c : Cfg) : Selector → Option Word
  | .channels      => some 0x00000001#32
  | .sampleRate    => some c.sr
  | .frameLength   => none
  | .totalDuration => none

/-- The answer of GET_INFO (R140): OK and the value of a declared property, NONE and 0 for one that has no value. -/
def infoResponse (c : Cfg) (sel : Selector) : Response :=
  match streamProperty c sel with
  | some v => { status := .ok, data := v }
  | none   => { status := .none, data := 0x00000000#32 }

/-- R23(a): `phase` is finite, in `[0, L)`, and not `-0.0`. -/
def phaseOk (L : Nat) (p : Word) : Bool :=
  F32.isFinite p && decide (0 ≤ F32.scaled p) && decide (F32.scaled p < ((L * F32.scale : Nat) : Int)) &&
    decide (p ≠ 0x80000000#32)

/-- R23(b): `inc` is finite. -/
def incOk (i : Word) : Bool := F32.isFinite i

/-- The invariant of the registers (R23). -/
def State.regsOk (s : State) : Bool := phaseOk s.tableLen s.phase && incOk s.inc

/-- An instance of the hardware (R12) that has been reset (R184): the states the rules of the spec are about. -/
def State.legal (s : State) : Bool := s.cfg.wf && s.regsOk

end Sys2Proof.Machine
end

