-- ==== Sys2Proof/Machine/Ops.lean ====
section
/-! DEFINITION. The operations the commands share: writing a register, answering, raising an error (R152), applying reset
(R180), building an instance (R12, D1), and the refusals of R164. WTO has no trap: raising an error answers the host and changes nothing else, and
there is nothing to return from (R162, R163). -/

namespace Sys2Proof.Machine

/-- The three outcomes, of this machine. -/
abbrev Result := Host.Outcome State Fault Refusal

/-- `phase <- v` (R21). -/
def State.setPhase (s : State) (v : Word) : State := { s with phase := v }

/-- `inc <- v` (R22). -/
def State.setInc (s : State) (v : Word) : State := { s with inc := v }

/-- The host's pending inputs become `q`. -/
def State.setInbox (s : State) (q : List HostInput) : State := { s with inbox := q }

/-- `respond(status, data)`: one response, after all earlier ones (R15, R51, R66). -/
def State.respond (s : State) (st : Status) (d : Word) : State :=
  { s with rsps := s.rsps ++ [{ status := st, data := d }] }

/-- `raise <Status>`: the response `{code, 0}` and no other change (R15, R152). -/
def raiseError (st : Status) (s : State) : Result := .next (s.respond st 0x00000000#32)

/-- One application of reset: `phase` and `inc` become `+0.0`; the constants stay (R180, R181). It answers nothing (R182). -/
def State.applyReset (s : State) : State := { s with phase := 0x00000000#32, inc := 0x00000000#32 }

/-- Nothing runs on a configuration that is not an instance (R12). -/
def onInstance {σ : Type} (s : State) (r : Host.Outcome σ Fault Refusal) : Host.Outcome σ Fault Refusal :=
  if s.cfg.wf then r else .refused .notAnInstance

/-- No command runs on a configuration that is not an instance (R12), nor before the first reset (R184, R188). -/
def onLegal {σ : Type} (s : State) (r : Host.Outcome σ Fault Refusal) : Host.Outcome σ Fault Refusal :=
  onInstance s (if s.regsOk then r else .refused .notReset)

/-- Construction: an instance is built and reset (D1, D6); a configuration that is not one is refused here (R12, R150, D4). -/
def State.build (c : Cfg) : Result :=
  if h : c.wf = true then .next (State.resetOf c h) else .refused .notAnInstance

/-- The pseudo-instruction RESET (R75, R180), on an instance of the hardware. -/
def execReset (s : State) : Result := onInstance s (.next s.applyReset)

end Sys2Proof.Machine
end

