-- ==== Sys2Proof/Machine/Frequency.lean ====
section
/-! DEFINITION. The frequency-control family: SET_FREQUENCY (41_set_frequency, R110 to R118). -/

namespace Sys2Proof.Machine

/-- SET_FREQUENCY (R110): `inc` takes the increment of `f` when it is finite (R112), else BAD_FREQUENCY and no change
(R113). -/
def execSetFrequency (f : Word) (s : State) : Result :=
  onLegal s
    (match setFrequencyRule binary32 s.tableLen (Cfg.rate s.cfg) f with
    | some v => .next ((s.setInc v).respond .ok 0x00000000#32)
    | none   => raiseError .badFrequency s)

end Sys2Proof.Machine
end

