-- ==== Sys2Proof/Machine/Info.lean ====
section
/-! DEFINITION. The system family: GET_INFO and the reserved opcode (43_get_info, R140 to R145). -/

namespace Sys2Proof.Machine

/-- GET_INFO (R140): a declared property answers OK and its value, one that has no value answers NONE and 0. -/
def execGetInfo (sel : Selector) (s : State) : Result :=
  onLegal s (.next (s.respond (infoResponse s.cfg sel).status (infoResponse s.cfg sel).data))

/-- The reserved opcode (R144, R154): ILLEGAL_COMMAND and no change. -/
def execReserved (s : State) : Result :=
  onLegal s (raiseError .illegalCommand s)

end Sys2Proof.Machine
end

