-- ==== Sys2Proof/Machine/Sample.lean ====
section
/-! DEFINITION. The sample-production family: GET_SAMPLE (42_get_sample, R120 to R138). -/

namespace Sys2Proof.Machine

/-- GET_SAMPLE (R120): the sample at the phase the command found, status OK (R125), then the advanced phase (R126), in one
step (R127). -/
def execGetSample (s : State) : Result :=
  onLegal s
    (match getSampleRule binary32 s.cfg.table s.phase s.inc with
    | some (out, p) => .next ((s.setPhase p).respond .ok out)
    | none          => .fault .noTableWord)

end Sys2Proof.Machine
end

