-- ==== Sys2Proof/Machine/Dispatch.lean ====
section
/-! DEFINITION. The dispatch: one arm per command (R61), each one call of its meaning. -/

namespace Sys2Proof.Machine

def exec (i : Instr) (s : State) : Host.Outcome State Fault Refusal :=
  match i with
  | .getSample => Sys2Proof.Machine.execGetSample s
  | .setFrequency f => Sys2Proof.Machine.execSetFrequency f s
  | .getInfo sel => Sys2Proof.Machine.execGetInfo sel s
  | .reserved => Sys2Proof.Machine.execReserved s

end Sys2Proof.Machine
end

