-- ==== Sys2Proof/Decode.lean ====
section
/-! DEFINITION. The decoder of command words, total on all `2^34` of them (R60 to R65, R69), and after it the encoder. -/

namespace Sys2Proof

/-- `op = cmd[33:32]` (R60). -/
def opField (w : Cmd) : BitVec 2 := w.extractLsb' 32 2

/-- `operand = cmd[31:0]` (R60). -/
def operandField (w : Cmd) : Word := w.extractLsb' 0 32

/-- `sel = operand[1:0]` (R64). -/
def selField (w : Cmd) : BitVec 2 := w.extractLsb' 0 2

/-- The property a selector number names (R28). -/
def Selector.ofBits (b : BitVec 2) : Selector :=
  if b = 0#2 then .channels
  else if b = 1#2 then .sampleRate
  else if b = 2#2 then .frameLength
  else .totalDuration

/-- Decoding (R61, R69): it looks at `cmd[33:32]`, and for GET_INFO at `cmd[1:0]`. -/
def decode (w : Cmd) : Instr :=
  if opField w = 0b00#2 then .getSample
  else if opField w = 0b01#2 then .setFrequency (operandField w)
  else if opField w = 0b10#2 then .getInfo (Selector.ofBits (selField w))
  else .reserved

/-- Why a number is not decoded. -/
inductive DecodeError where
  /-- A number of more than 34 bits is no command word (R60, R72). Safe: no command port carries it. -/
  | notACommandWord
  deriving DecidableEq, Repr

/-- Decoding of any number as a command word: total, and a number of more than 34 bits is rejected by name. -/
def decodeNat (w : Nat) : Except DecodeError Instr :=
  if w < 2 ^ 34 then .ok (decode (BitVec.ofNat 34 w)) else .error .notACommandWord

/-- The instruction read from a row's bits, numbered as spec/opcode_table.json numbers them: the command word's own bit
numbers. Bits from `nbits` on are 0. -/
def decodeTableWord (nbits w : Nat) : Option Instr :=
  match decodeNat (w % 2 ^ nbits) with
  | .ok i    => some i
  | .error _ => none

/-- The selector number of a property (R28). -/
def Selector.toBits : Selector → BitVec 2
  | .channels      => 0#2
  | .sampleRate    => 1#2
  | .frameLength   => 2#2
  | .totalDuration => 3#2

/-- `{op, operand}` (R60). -/
def commandWord (op : BitVec 2) (operand : Word) : Cmd := op ++ operand

/-- The `op` of a command (R61). -/
def opcodeOf : Instr → BitVec 2
  | .getSample      => 0b00#2
  | .setFrequency _ => 0b01#2
  | .getInfo _      => 0b10#2
  | .reserved       => 0b11#2

/-- The operand word the assembler emits: bits a command ignores are 0 (R62, R64, R74). -/
def operandOf : Instr → Word
  | .getSample      => 0#32
  | .setFrequency f => f
  | .getInfo sel    => sel.toBits.setWidth 32
  | .reserved       => 0#32

/-- The command word of a command (R60 to R65). -/
def encode (i : Instr) : Cmd := commandWord (opcodeOf i) (operandOf i)

end Sys2Proof
end

