-- ==== Sys2Proof/Machine/Input.lean ====
section
/-! DEFINITION. How the next host input is taken (R13, R26, R70): the block fetches no program, so what stands in a fetch's
place is the head of the host's queue. -/

namespace Sys2Proof.Machine

/-- What the host does next: the head of its queue, and the state with the queue moved on; nothing when the host has issued
nothing more (R14, R192). -/
def nextInput (s : State) : Option (HostInput × State) :=
  match s.inbox with
  | []        => none
  | h :: rest => some (h, s.setInbox rest)

/-- The command word made of the low `nbits` bits of `w`, numbered as the opcode table numbers them; higher bits are 0. -/
def tableWordCmd (nbits w : Nat) : Cmd := BitVec.ofNat 34 (w % 2 ^ nbits)

/-- The host's queue with the command word `w` in its first place (log entry 3). -/
def placeCommand (s : State) (w : Cmd) : State := s.setInbox (.command w :: s.inbox.tail)

end Sys2Proof.Machine
end

