-- ==== Sys2Proof/Machine/Step.lean ====
section
/-! DEFINITION. One step of the machine at the command level: the next host input, done whole (R13, R70). -/

namespace Sys2Proof.Machine

/-- One step. With nothing issued the block, if it is an instance (R12), idles with its state held (R170; log entry 5). A command word is decoded and
executed as one atomic step (R70). A reset between commands maps the state to the reset state of the same instance (R75,
R180; log entry 6). -/
def step (s : State) : Host.Outcome State Fault Refusal :=
  match nextInput s with
  | none                 => onInstance s (.next s)
  | some (.command w, t) => exec (decode w) t
  | some (.reset, t)     => execReset t

/-- The instruction with the bits `w` placed where `step` takes its next input (log entry 3). -/
def State.withFetchWord (s : State) (nbits w : Nat) : State := placeCommand s (tableWordCmd nbits w)

end Sys2Proof.Machine
end

