-- ==== Sys2Proof/Machine/Assembler.lean ====
section
/-! DEFINITION. The assembler of R74 and R75, from a line's syntax to what the host issues. The spelling of the lines as
text is not modelled (log entry 14). -/

namespace Sys2Proof.Machine

/-- The operand word of a frequency: a decimal real is converted by round to nearest even, a raw word stands as written
(R74). -/
def FreqArg.toWord : FreqArg → Word
  | .decimal neg digits places => F32.round neg (digits * F32.scale) (10 ^ places)
  | .raw w                     => BitVec.ofNat 32 w

/-- `zext_32(sel)` (R74). -/
def InfoArg.toWord : InfoArg → Word
  | .number n => BitVec.ofNat 32 n
  | .name sel => sel.toBits.setWidth 32

/-- What one line stands for (R74, R75). -/
def AsmLine.expand : AsmLine → List HostInput
  | .getSample      => [.command (commandWord 0b00#2 0#32)]
  | .setFrequency f => [.command (commandWord 0b01#2 (FreqArg.toWord f))]
  | .getInfo sel    => [.command (commandWord 0b10#2 (InfoArg.toWord sel))]
  | .word w         => [.command (BitVec.ofNat 34 w)]
  | .reset          => [.reset]
  | .pull n         => List.replicate n (.command (commandWord 0b00#2 0#32))
  | .hold           => [.command (commandWord 0b01#2 0#32)]

/-- A program of lines, or nothing if a line is not allowed (R74). -/
def assemble (ls : List AsmLine) : Option (List HostInput) :=
  if ls.all AsmLine.wf then some (ls.flatMap AsmLine.expand) else none

end Sys2Proof.Machine
end

