-- ==== Sys2Proof/Machine/Exact.lean ====
section
/-! DEFINITION. The exact instance of the arithmetic (R89, D27): the document's formulas over the rationals. It is NOT the
hardware; it shares every command rule with the binary32 instance (Interp.lean), and the document's section 8 properties
hold in it with no tolerance. -/

namespace Sys2Proof.Machine

/-- The exact `NUM` (R89): exact operations, one zero, no rounding, `WRAP(s) = s - L * floor(s / L)`. Every rational is
finite; the classes infinity and NaN exist for the SET_FREQUENCY operand alone and are handled where it is read. -/
def exactNum : Num Rat where
  fadd a b   := a + b
  fsub a b   := a - b
  fmul a b   := a * b
  fdiv a b   := a / b
  ffloor a   := (a.floor : Rat)
  ofNat n    := (n : Rat)
  toIndex a  := a.floor.toNat
  isFinite _ := true
  wrap L s   := s - (L : Rat) * ((s / (L : Rat)).floor : Rat)
  lit
    | .negHalf        => -1 / 2
    | .half           => 1 / 2
    | .threeHalves    => 3 / 2
    | .negThreeHalves => -3 / 2
    | .fiveHalves     => 5 / 2
    | .two            => 2
    | .one            => 1

/-- The state of the exact instance: the same two registers, as rationals. -/
structure ExactState where
  cfg   : Cfg
  phase : Rat
  inc   : Rat
  deriving DecidableEq, Repr

/-- An answer of the exact instance: a sample is a rational, not a word (R89); every other answer is the block's. -/
inductive ExactAnswer where
  | sample (q : Rat)
  | word (r : Response)
  deriving DecidableEq, Repr

/-- The table of the exact instance: what the words denote. -/
def exactTable (c : Cfg) : List Rat := c.table.map F32.val

/-- The operand of SET_FREQUENCY in the exact instance: the rational it denotes, or nothing for an infinity or a NaN (R89). -/
def exactOperand (f : Word) : Option Rat := if F32.isFinite f then some (F32.val f) else none

/-- The outcomes of the exact instance: the state and the answer, or the stops of the machine. -/
abbrev ExactResult (α : Type) := Host.Outcome (ExactState × α) Fault Refusal

/-- R23(a) in the exact instance: the phase is in `[0, L)`. Every increment is finite (R89). -/
def ExactState.regsOk (s : ExactState) : Bool := decide (0 ≤ s.phase) && decide (s.phase < (s.cfg.table.length : Rat))

/-- No command runs on a configuration that is not an instance (R12), nor on a phase that no reset instance has (R184): the
guard of the machine's own commands. -/
def onExactLegal {α : Type} (s : ExactState) (r : ExactResult α) : ExactResult α :=
  if s.cfg.wf then (if s.regsOk then r else .refused .notReset) else .refused .notAnInstance

/-- The exact instance right after reset (R89, R180); only an instance has one (R12). -/
def ExactState.resetOf (c : Cfg) (_ : c.wf = true) : ExactState := { cfg := c, phase := 0, inc := 0 }

/-- GET_SAMPLE in the exact instance (R89, R120). -/
def exactGetSample (s : ExactState) : ExactResult ExactAnswer :=
  onExactLegal s
    (match getSampleRule exactNum (exactTable s.cfg) s.phase s.inc with
    | some (out, p) => .next ({ s with phase := p }, .sample out)
    | none          => .fault .noTableWord)

/-- SET_FREQUENCY in the exact instance (R89, R110): no finite operand has an increment that is not finite. -/
def exactSetFrequency (f : Word) (s : ExactState) : ExactResult ExactAnswer :=
  onExactLegal s
    (match (exactOperand f).bind (setFrequencyRule exactNum s.cfg.table.length (Cfg.rate s.cfg)) with
    | some v => .next ({ s with inc := v }, .word { status := .ok, data := 0x00000000#32 })
    | none   => .next (s, .word { status := .badFrequency, data := 0x00000000#32 }))

/-- GET_INFO in the exact instance (R89, R140). -/
def exactGetInfo (sel : Selector) (s : ExactState) : ExactResult ExactAnswer :=
  onExactLegal s (.next (s, .word (infoResponse s.cfg sel)))

/-- The reserved opcode in the exact instance (R89, R144). -/
def exactReserved (s : ExactState) : ExactResult ExactAnswer :=
  onExactLegal s (.next (s, .word { status := .illegalCommand, data := 0x00000000#32 }))

/-- One command in the exact instance. -/
def exactExec (i : Instr) (s : ExactState) : ExactResult ExactAnswer :=
  match i with
  | .getSample      => exactGetSample s
  | .setFrequency f => exactSetFrequency f s
  | .getInfo sel    => exactGetInfo sel s
  | .reserved       => exactReserved s

/-- A sequence of commands in the exact instance, with the answers in order (R51). -/
def exactRun : List Instr → ExactState → ExactResult (List ExactAnswer)
  | [], s        => .next (s, [])
  | i :: rest, s =>
    match exactExec i s with
    | .next (t, a) =>
      (match exactRun rest t with
      | .next (u, as) => .next (u, a :: as)
      | .fault e      => .fault e
      | .refused e    => .refused e)
    | .fault e     => .fault e
    | .refused e   => .refused e

/-- Every number that INTERP forms on the way to its result, the result last (R93, R94): the values R89 speaks of when it says
that the two instances agree where every intermediate value is one of the format. -/
def interpSteps {α : Type} (N : Num α) (y : Taps α) (t : α) : List α :=
  [square N t, cube N t, N.fmul (N.lit .half) t, N.fmul (N.lit .half) (cube N t), N.fmul (N.lit .half) (square N t),
   N.fmul (N.lit .negHalf) (cube N t), N.fadd (N.fmul (N.lit .negHalf) (cube N t)) (square N t), (weights N t).a0,
   N.fmul (N.lit .threeHalves) (cube N t), N.fmul (N.lit .fiveHalves) (square N t),
   N.fsub (N.fmul (N.lit .threeHalves) (cube N t)) (N.fmul (N.lit .fiveHalves) (square N t)), (weights N t).a1] ++
  [N.fmul (N.lit .negThreeHalves) (cube N t), N.fmul (N.lit .two) (square N t),
   N.fadd (N.fmul (N.lit .negThreeHalves) (cube N t)) (N.fmul (N.lit .two) (square N t)), (weights N t).a2, (weights N t).a3] ++
  [N.fmul (weights N t).a0 y.y0, N.fmul (weights N t).a1 y.y1, N.fmul (weights N t).a2 y.y2, N.fmul (weights N t).a3 y.y3,
   N.fadd (N.fmul (weights N t).a0 y.y0) (N.fmul (weights N t).a1 y.y1),
   N.fadd (N.fadd (N.fmul (weights N t).a0 y.y0) (N.fmul (weights N t).a1 y.y1)) (N.fmul (weights N t).a2 y.y2),
   interp N y t]

/-- The phase of the exact instance after `n` pulls with a fixed increment (R126, R134). -/
def exactPhaseAfter (L : Nat) (inc : Rat) : Nat → Rat → Rat
  | 0, p     => p
  | n + 1, p => exactPhaseAfter L inc n (advance exactNum L p inc)

end Sys2Proof.Machine
end

