-- ==== Sys2Proof/Machine/Port.lean ====
section
/-! DEFINITION. The signal-level port (R71) as a clocked layer over the commands: acceptance, latency (R11, R194), the
response cycle, reset at any edge (R180, R182), and the host's duty to keep a word it waits with (R186). The command-level
machine does not depend on it (R71). -/

namespace Sys2Proof.Machine

/-- The input pins at one rising edge of `clk` (R71). -/
structure Pins where
  rst      : Bool
  cmdValid : Bool
  cmd      : Cmd
  deriving DecidableEq, Repr

/-- A command accepted and not yet answered: its word and the clock cycles until its response (R70, R71). -/
structure InProgress where
  word : Cmd
  left : Nat
  deriving DecidableEq, Repr

/-- The block at the signal level: its command-level state, the command in progress, the response of this cycle, and the word
that the host presented at the last edge without its being accepted, which it must keep (R71, R186). -/
structure PortState where
  core    : State
  busy    : Option InProgress
  rspNow  : Option Response
  waiting : Option Cmd
  deriving DecidableEq, Repr

/-- The output pins in one cycle (R71). `rsp` has a meaning only where `rsp_valid` is 1, so it is absent elsewhere. -/
structure PortOut where
  cmdReady : Bool
  rspValid : Bool
  rsp      : Option (BitVec 34)
  deriving DecidableEq, Repr

/-- The outcomes of one clock edge. -/
abbrev PortResult := Host.Outcome PortState Fault Refusal

/-- Clock cycles from acceptance to response, by command; the reserved opcode takes `T_INFO` (R71). -/
def latency (t : Timing) : Instr → Nat
  | .getSample      => t.tPull
  | .setFrequency _ => t.tSetf
  | .getInfo _      => t.tInfo
  | .reserved       => t.tInfo

/-- `cmd_ready` (R71): no command is in progress; in the response cycle itself, as the instance has it (log entry 15). -/
def PortState.ready (p : PortState) : Bool :=
  p.busy.isNone && (p.rspNow.isNone || p.core.cfg.timing.readyWithRsp)

/-- The output pins (R71). -/
def PortState.out (p : PortState) : PortOut :=
  { cmdReady := p.ready, rspValid := p.rspNow.isSome, rsp := p.rspNow.map Response.word }

/-- The word the host must keep presenting after this edge, if it goes on presenting one: `cmd` where `cmd_valid` is 1 and
`cmd_ready` is 0 (R71). -/
def heldWord (pins : Pins) (p : PortState) : Option Cmd :=
  if pins.cmdValid && !p.ready then some pins.cmd else none

/-- The host breaks the handshake of R71 (R186): it presents another word than the one it was to keep. Withdrawing a command
(`cmd_valid` 0) is not forbidden. -/
def breaksHandshake (pins : Pins) (p : PortState) : Bool :=
  match p.waiting with
  | some w => pins.cmdValid && pins.cmd != w
  | none   => false

/-- The edge that ends a command: it is executed whole (R70), and the next cycle shows its response. -/
def finishCommand (pins : Pins) (p : PortState) (w : Cmd) : PortResult :=
  match exec (decode w) p.core with
  | .next s'   => .next { core := s', busy := none, rspNow := s'.rsps.getLast?, waiting := heldWord pins p }
  | .fault e   => .fault e
  | .refused e => .refused e

/-- An edge of a command that has `n` cycles left until its response cycle. -/
def advanceCommand (pins : Pins) (p : PortState) (w : Cmd) (n : Nat) : PortResult :=
  if n ≤ 1 then finishCommand pins p w
  else .next { core := p.core, busy := some { word := w, left := n - 1 }, rspNow := none, waiting := heldWord pins p }

/-- An edge where no command is in progress: one is accepted where `cmd_valid` and `cmd_ready` are 1 (R71), on a block that has
been reset (R188); otherwise the block idles (R170). -/
def idleEdge (pins : Pins) (p : PortState) : PortResult :=
  if pins.cmdValid && p.ready then
    onLegal p.core (advanceCommand pins p pins.cmd (latency p.core.cfg.timing (decode pins.cmd)))
  else .next { core := p.core, busy := none, rspNow := none, waiting := heldWord pins p }

/-- The edge where `rst` is sampled high: the state is the reset state, a command in progress is abandoned with no
response, none is accepted (R180, R182, R183). The spec does not say whether a word the host was waiting with must still be
kept after this edge; the model forgets it, so that another word may follow (log entry 15, DESIGN CHOICE). -/
def resetEdge (p : PortState) : PortResult :=
  match execReset p.core with
  | .next s'   => .next { core := s', busy := none, rspNow := none, waiting := none }
  | .fault e   => .fault e
  | .refused e => .refused e

/-- An edge with `rst` low: a host that breaks the handshake has no step (R186, R164). -/
def runEdge (pins : Pins) (p : PortState) : PortResult :=
  if breaksHandshake pins p then .refused .brokenHandshake
  else
    match p.busy with
    | some b => advanceCommand pins p b.word b.left
    | none   => idleEdge pins p

/-- One rising edge of `clk` (R71), on an instance (R12). -/
def tick (pins : Pins) (p : PortState) : PortResult :=
  onInstance p.core (if pins.rst then resetEdge p else runEdge pins p)

/-- Clock edges with the given pins, one after another. -/
def ticks : List Pins → PortState → PortResult
  | [], p           => .next p
  | pins :: rest, p =>
    match tick pins p with
    | .next p'   => ticks rest p'
    | .fault e   => .fault e
    | .refused e => .refused e

/-- The block at the signal level right after reset (R180, R183); only an instance has one (R12). -/
def PortState.resetOf (c : Cfg) (h : c.wf = true) : PortState :=
  { core := State.resetOf c h, busy := none, rspNow := none, waiting := none }

end Sys2Proof.Machine
end

