-- ==== Sys2Proof/Safety.lean ====
section
/-! DEFINITION. What claims are stated in: the invariant of R23 in the spec's own terms (values as rationals), and what an
error-free run is (R164). -/

namespace Sys2Proof.Machine

/-- The invariant of the state (R23) on an instance of the hardware (R12), with `val` of R81. -/
structure State.Inv (s : State) : Prop where
  instanceOk    : s.cfg.wf = true
  phaseFinite   : F32.isFinite s.phase = true
  phaseNonneg   : 0 ≤ F32.val s.phase
  phaseBelow    : F32.val s.phase < (s.cfg.table.length : Rat)
  phaseNotNegZero : s.phase ≠ 0x80000000#32
  incFinite     : F32.isFinite s.inc = true

/-- The word `w` is finite and denotes `q` (R81). -/
def F32.Denotes (w : Word) (q : Rat) : Prop := F32.isFinite w = true ∧ F32.val w = q

/-- `q` is a value of the format (R81, R83(a)). -/
def F32.IsValue (q : Rat) : Prop := ∃ w : Word, F32.Denotes w q

/-- The invariant of R23 in the exact instance (R89), on an instance of R12. -/
structure ExactState.Inv (s : ExactState) : Prop where
  instanceOk  : s.cfg.wf = true
  phaseNonneg : 0 ≤ s.phase
  phaseBelow  : s.phase < (s.cfg.table.length : Rat)

/-- No response of the list is an error (R164). -/
def errorFree (rs : List Response) : Bool := rs.all fun r => !r.status.isError

/-- A step that stops: it answers a fault or a refusal. -/
def stops (r : Result) : Bool :=
  match r with
  | .next _    => false
  | .fault _   => true
  | .refused _ => true

end Sys2Proof.Machine
end

