-- ==== Sys2Proof/Certificates/Slice0/Obligations.lean ====
section
/-! DEFINITION. The statements about WTO, one definition each, for the provers. `F32.val w` is the rational a finite word
denotes (R81), `State.Inv` the invariant of R23 on an instance of R12. The fields `inbox` and `rsps` are the model's form of
the command port (log entries 3, 4): where a rule says that a command responds, the statement says what is appended to
`rsps`. -/

open Sys2Proof Sys2Proof.Machine

/-! ### Encoding -/

/-- Words written out from the encodings of R60 to R65 (the vectors of 95_test_vectors section 2.7 among them) decode to the
commands they stand for. -/
def Obligations.WrittenOutWordsDecode : Prop :=
  decode 0x000000000#34 = .getSample ∧ decode 0x0FFFFFFFF#34 = .getSample ∧
  decode 0x143A8C000#34 = .setFrequency 0x43A8C000#32 ∧ decode 0x1FFFFFFFF#34 = .setFrequency 0xFFFFFFFF#32 ∧
  decode 0x200000000#34 = .getInfo .channels ∧ decode 0x2FFFFFFFD#34 = .getInfo .sampleRate ∧
  decode 0x280000002#34 = .getInfo .frameLength ∧ decode 0x200000003#34 = .getInfo .totalDuration ∧
  decode 0x312345678#34 = .reserved ∧ decode 0x3FFFFFFFF#34 = .reserved

/-- R69: decoding is total, and it looks at `cmd[33:32]` and, for GET_INFO, at `cmd[1:0]` (a SET_FREQUENCY carries its
operand as it stands). -/
def Obligations.DecodeReadsOpAndOperand : Prop :=
  ∀ (w : Cmd),
    (w.extractLsb' 32 2 = 0b00#2 → decode w = .getSample) ∧
    (w.extractLsb' 32 2 = 0b01#2 → decode w = .setFrequency (w.extractLsb' 0 32)) ∧
    (w.extractLsb' 32 2 = 0b10#2 → w.extractLsb' 0 2 = 0#2 → decode w = .getInfo .channels) ∧
    (w.extractLsb' 32 2 = 0b10#2 → w.extractLsb' 0 2 = 1#2 → decode w = .getInfo .sampleRate) ∧
    (w.extractLsb' 32 2 = 0b10#2 → w.extractLsb' 0 2 = 2#2 → decode w = .getInfo .frameLength) ∧
    (w.extractLsb' 32 2 = 0b10#2 → w.extractLsb' 0 2 = 3#2 → decode w = .getInfo .totalDuration) ∧
    (w.extractLsb' 32 2 = 0b11#2 → decode w = .reserved)

/-- Decode and encode agree, on every command and on every word: encoding loses nothing a command holds, a word decoded and
encoded again keeps its used bits and has its ignored bits cleared, and two words are one command exactly when they agree
on the bits R61 to R65 let the command read. -/
def Obligations.DecodeEncodeRoundTrip : Prop :=
  (∀ i : Instr, i.wf = true → decode (encode i) = i) ∧
  (∀ w : Cmd, encode (decode w) =
    w &&& (if w.extractLsb' 32 2 = 0b01#2 then 0x3FFFFFFFF#34
           else if w.extractLsb' 32 2 = 0b10#2 then 0x300000003#34 else 0x300000000#34)) ∧
  (∀ w w' : Cmd, decode w = decode w' ↔
    w.extractLsb' 32 2 = w'.extractLsb' 32 2 ∧
    (w.extractLsb' 32 2 = 0b01#2 → w.extractLsb' 0 32 = w'.extractLsb' 0 32) ∧
    (w.extractLsb' 32 2 = 0b10#2 → w.extractLsb' 0 2 = w'.extractLsb' 0 2))

/-- R74 and R75: what assembler lines stand for. A decimal real is its value rounded to nearest even, and a raw word stands as
written. A GET_SAMPLE, SET_FREQUENCY or GET_INFO line is one word that decodes to the command it names, `.word` is the 34-bit
word as written, and the pseudo-instructions have R75's expansions. A program is the lines' expansions one after another, and
one with a line the tables do not allow is none. That a line is data, and that a written negative zero keeps its sign, is the
model's choice (log entry 14, DESIGN CHOICE), no word of R74. -/
def Obligations.AssemblerLinesMeanTheirCommands : Prop :=
  (∀ (neg : Bool) (d p : Nat), 0 < d →
    FreqArg.toWord (.decimal neg d p) = F32.fl ((if neg then -1 else 1) * (d : Rat) / 10 ^ p)) ∧
  (∀ (neg : Bool) (p : Nat), FreqArg.toWord (.decimal neg 0 p) = if neg then 0x80000000#32 else 0x00000000#32) ∧
  (∀ w : Nat, w < 2 ^ 32 → (FreqArg.toWord (.raw w)).toNat = w) ∧
  (∀ f : FreqArg, ∃ w, AsmLine.expand (.setFrequency f) = [.command w] ∧ decode w = .setFrequency (FreqArg.toWord f)) ∧
  (∀ sel : Selector, ∃ w, AsmLine.expand (.getInfo (.name sel)) = [.command w] ∧ decode w = .getInfo sel) ∧
  (∀ n : Nat, n < 4 → AsmLine.expand (.getInfo (.number n)) = [.command (BitVec.ofNat 34 (2 * 2 ^ 32 + n))]) ∧
  (AsmLine.expand .getSample = [.command 0x000000000#34] ∧ decode 0x000000000#34 = .getSample) ∧
  (∀ w : Nat, w < 2 ^ 34 → ∃ c : Cmd, AsmLine.expand (.word w) = [.command c] ∧ c.toNat = w) ∧
  (∀ n : Nat, AsmLine.expand (.pull n) = List.replicate n (.command (encode .getSample))) ∧
  AsmLine.expand .hold = [.command 0x100000000#34] ∧ AsmLine.expand .reset = [.reset] ∧
  (∀ ls : List AsmLine, (∀ l ∈ ls, l.wf = true) → assemble ls = some (ls.map AsmLine.expand).flatten) ∧
  (∀ ls : List AsmLine, (∃ l ∈ ls, l.wf = false) → assemble ls = none) ∧
  (∀ n : Nat, AsmLine.wf (.getInfo (.number n)) = true ↔ n < 4) ∧ (∀ w : Nat, AsmLine.wf (.word w) = true ↔ w < 2 ^ 34) ∧
  (∀ w : Nat, AsmLine.wf (.setFrequency (.raw w)) = true ↔ w < 2 ^ 32)

/-! ### Steps, reset, the invariant -/

/-- A step takes the host's next input (R13, R70): a command word is decoded and executed, with the input removed from the
queue; a RESET applies reset (R75); with nothing issued an instance holds its state (R170; log entry 5, the model's reading).
A word placed by `withFetchWord` is the next input (log entry 3). -/
def Obligations.StepRunsTheDecodedCommand : Prop :=
  (∀ (s : State) (w : Cmd) (rest : List HostInput), s.inbox = .command w :: rest →
    step s = exec (decode w) { s with inbox := rest }) ∧
  (∀ (s : State) (rest : List HostInput), s.inbox = .reset :: rest → step s = execReset { s with inbox := rest }) ∧
  (∀ s : State, s.cfg.wf = true → s.inbox = [] → step s = .next s) ∧
  (∀ (s : State) (w : Cmd), step (s.withFetchWord 40 w.toNat) = exec (decode w) { s with inbox := s.inbox.tail })

/-- R31: after reset `phase` and `inc` are `+0.0`, and the constants are what the instance was built with. It holds of the
initial state of every instance and of a RESET in any state of an instance, whatever its registers hold. -/
def Obligations.ResetClearsRegistersKeepsConstants : Prop :=
  (∀ (c : Cfg) (h : c.wf = true), (State.resetOf c h).phase = 0x00000000#32 ∧ (State.resetOf c h).inc = 0x00000000#32 ∧
    (State.resetOf c h).cfg = c) ∧
  (∀ (s : State) (rest : List HostInput), s.cfg.wf = true → s.inbox = .reset :: rest →
    step s = .next { cfg := s.cfg, phase := 0x00000000#32, inc := 0x00000000#32, inbox := rest, rsps := s.rsps })

/-- The state after reset meets the invariant of R23, for the model's own reset state (whose configuration is the model's
choice, log entry 1) and for every instance of the hardware. -/
def Obligations.ResetMeetsTheInvariant : Prop :=
  State.reset.Inv ∧ ∀ (c : Cfg) (h : c.wf = true), (State.resetOf c h).Inv

/-- R23: after reset and after every command `phase` is finite, in `[0, L)` and not `-0.0`, and `inc` is finite: reset gives
it, and every step of the machine keeps it. -/
def Obligations.EveryStepKeepsTheInvariant : Prop :=
  (∀ (c : Cfg) (h : c.wf = true), (State.resetOf c h).Inv) ∧
  (∀ s s' : State, s.Inv → step s = .next s' → s'.Inv)

/-- R66: every command produces exactly one response word of 34 bits, `{status, data}`: on every state that meets the
invariant and for every command word, the step goes on and appends one response to the earlier ones. -/
def Obligations.EveryCommandAnswersExactlyOnce : Prop :=
  (∀ (s : State) (w : Cmd) (rest : List HostInput), s.Inv → s.inbox = .command w :: rest →
    ∃ (s' : State) (r : Response), step s = .next s' ∧ s'.rsps = s.rsps ++ [r] ∧ s'.inbox = rest) ∧
  (∀ r : Response, r.word.extractLsb' 32 2 = r.status.code ∧ r.word.extractLsb' 0 32 = r.data)

/-- Whatever the host issues runs to its end: from a state that meets the invariant, as many steps as there are inputs take
them all, no step faults or refuses, and there is one response for every command word among them. -/
def Obligations.EveryInputSequenceRunsToItsEnd : Prop :=
  ∀ s : State, s.Inv → ∃ s' : State, Sys2Proof.core.run s.inbox.length s = .next s' ∧ s'.Inv ∧ s'.inbox = [] ∧ s'.cfg = s.cfg ∧
    ∃ rs : List Response, s'.rsps = s.rsps ++ rs ∧ rs.length = s.inbox.countP (fun h => h != .reset)

/-- No step of any state faults: no read of a table word that does not exist ever happens (R44, R45, R128). -/
def Obligations.NoStepEverFaults : Prop :=
  (∀ (s : State) (e : Fault), step s ≠ .fault e) ∧ (∀ (i : Instr) (s : State) (e : Fault), exec i s ≠ .fault e)

/-- Commands run exactly on the states the spec is about: an instance (R12) that has been reset (R184), seen by the invariant
of R23; on every other state they refuse, and there is no other stop. The two refusals are the model's reading (DEDUCED), no
rule's words: that a state written down with a configuration that is not an instance is refused `notAnInstance` is log entry
8, and that registers breaking R23 stand for hardware never reset and are refused `notReset` is log entry 7. -/
def Obligations.CommandsRunExactlyOnLegalStates : Prop :=
  ∀ (i : Instr) (s : State),
    ((∃ s', exec i s = .next s') ↔ s.Inv) ∧
    (exec i s = .refused .notAnInstance ↔ s.cfg.wf = false) ∧
    (exec i s = .refused .notReset ↔ s.cfg.wf = true ∧ ¬ s.Inv)

/-! ### Frames and whole-machine rules -/

/-- The frame of every command (R21, R22, R41, R110, R120, R140, R144): the configuration, every table word at every index,
the rest of the queue and the earlier responses are unchanged; only GET_SAMPLE changes `phase` and only SET_FREQUENCY
changes `inc`. -/
def Obligations.CommandsLeaveTheRestUnchanged : Prop :=
  ∀ (i : Instr) (s s' : State), exec i s = .next s' →
    s'.cfg = s.cfg ∧ (∀ a : Nat, memRead s'.cfg.table a = memRead s.cfg.table a) ∧ s'.inbox = s.inbox ∧
    (∃ r : Response, s'.rsps = s.rsps ++ [r]) ∧
    (i ≠ .getSample → s'.phase = s.phase) ∧ ((∀ f, i ≠ .setFrequency f) → s'.inc = s.inc)

/-- R21 and R22 as rules of the whole machine: a step that changes `phase` took a reset or a GET_SAMPLE word, one that changes
`inc` took a reset or a SET_FREQUENCY word that was answered OK. -/
def Obligations.OnlyTheirWritersChangeRegisters : Prop :=
  ∀ s s' : State, step s = .next s' →
    (s'.phase ≠ s.phase → ∃ rest, s.inbox = .reset :: rest ∨ ∃ x : Word, s.inbox = .command (0b00#2 ++ x) :: rest) ∧
    (s'.inc ≠ s.inc → ∃ rest, s.inbox = .reset :: rest ∨
      ∃ f : Word, s.inbox = .command (0b01#2 ++ f) :: rest ∧ s'.rsps = s.rsps ++ [{ status := .ok, data := 0x00000000#32 }])

/-- R12, R150: nothing is built of a configuration that is not an instance, and nothing runs on one: building it is refused, and
so are every step (the idle one too), every command, RESET, every clock edge and every command of the exact instance. That
the refusal has the name `notAnInstance`, and that State can write down such a configuration at all, is the model's (log
entry 8). An instance is built to its reset state (R180, D1). -/
def Obligations.OnlyInstancesAreBuiltAndRun : Prop :=
  (∀ (c : Cfg) (h : c.wf = true), State.build c = .next (State.resetOf c h)) ∧
  (∀ c : Cfg, c.wf = false → State.build c = .refused .notAnInstance) ∧
  (∀ s : State, s.cfg.wf = false → step s = .refused .notAnInstance ∧ execReset s = .refused .notAnInstance ∧
    ∀ i : Instr, exec i s = .refused .notAnInstance) ∧
  (∀ (p : PortState) (q : Pins), p.core.cfg.wf = false → tick q p = .refused .notAnInstance) ∧
  (∀ (i : Instr) (s : ExactState), s.cfg.wf = false → exactExec i s = .refused .notAnInstance) ∧
  (∀ c : Cfg, c.wf = false ↔ (c.table.length < 4 ∨ 2 ^ 24 < c.table.length ∨ (∃ w ∈ c.table, F32.isFinite w = false) ∨
    c.sr = 0x00000000#32 ∨ c.timing.tPull = 0 ∨ c.timing.tSetf = 0 ∨ c.timing.tInfo = 0))

/-- The errors of R151 and the status NONE come from their own opcodes alone (R67, R161), and an error writes nothing and
carries data 0 (R152). -/
def Obligations.StatusesComeFromTheirOpcodes : Prop :=
  ∀ (s s' : State) (w : Cmd) (rest : List HostInput) (r : Response), s.inbox = .command w :: rest → step s = .next s' →
    s'.rsps = s.rsps ++ [r] →
    (r.status = .illegalCommand ↔ w.extractLsb' 32 2 = 0b11#2) ∧
    (r.status = .badFrequency → w.extractLsb' 32 2 = 0b01#2) ∧
    (r.status = .none → w.extractLsb' 32 2 = 0b10#2) ∧
    (r.status.isError = true → s'.phase = s.phase ∧ s'.inc = s.inc ∧ s'.cfg = s.cfg ∧ r.data = 0x00000000#32)

/-- GET_INFO and both errors leave no trace (R141, R144, R152, R163): the command after a GET_INFO, after a reserved opcode or
after a SET_FREQUENCY answered BAD_FREQUENCY ends in the state, and gives the answer, it would have without it. -/
def Obligations.QueriesAndErrorsLeaveNoTrace : Prop :=
  ∀ (q i : Instr) (s s1 s2 : State),
    (q = .reserved ∨ (∃ sel, q = .getInfo sel) ∨
      ∃ f, q = .setFrequency f ∧ s1.rsps = s.rsps ++ [{ status := .badFrequency, data := 0x00000000#32 }]) →
    exec q s = .next s1 → exec i s = .next s2 →
    ∃ r : Response, s2.rsps = s.rsps ++ [r] ∧ exec i s1 = .next { s2 with rsps := s1.rsps ++ [r] }

/-! ### GET_SAMPLE -/

/-- R120: on every state that meets the invariant GET_SAMPLE reads the four words at `(k-1) mod L`, `k mod L`, `(k+1) mod L`,
`(k+2) mod L` for `k = floor(phase)`, answers OK and their INTERP at `t = phase - floor(phase)`, moves `phase` to
`WRAP(fadd(phase, inc))`, and changes nothing else. -/
def Obligations.GetSampleInterpolatesThenAdvances : Prop :=
  ∀ s : State, s.Inv → ∃ y0 y1 y2 y3 : Word,
    s.cfg.table[((⌊F32.val s.phase⌋ - 1) % (s.cfg.table.length : Int)).toNat]? = some y0 ∧
    s.cfg.table[(⌊F32.val s.phase⌋ % (s.cfg.table.length : Int)).toNat]? = some y1 ∧
    s.cfg.table[((⌊F32.val s.phase⌋ + 1) % (s.cfg.table.length : Int)).toNat]? = some y2 ∧
    s.cfg.table[((⌊F32.val s.phase⌋ + 2) % (s.cfg.table.length : Int)).toNat]? = some y3 ∧
    exec .getSample s = .next { s with
      phase := F32.wrap s.cfg.table.length (F32.fadd s.phase s.inc)
      rsps := s.rsps ++ [⟨.ok, interp binary32 ⟨y0, y1, y2, y3⟩ (F32.fsub s.phase (F32.ffloor s.phase))⟩] }

/-- R124: the sample is a function of `(phase, TABLE)` alone: not of `inc`, `SR`, the timing or any earlier command. -/
def Obligations.SampleDependsOnPhaseAndTableOnly : Prop :=
  ∀ s1 s2 : State, s1.Inv → s2.Inv → s1.phase = s2.phase → s1.cfg.table = s2.cfg.table →
    ∃ (out : Word) (t1 t2 : State), exec .getSample s1 = .next t1 ∧ exec .getSample s2 = .next t2 ∧
      t1.rsps = s1.rsps ++ [{ status := .ok, data := out }] ∧ t2.rsps = s2.rsps ++ [{ status := .ok, data := out }]

/-- R132: when `phase` is an integer `k`, GET_SAMPLE returns `TABLE[k]`, equal as a number and, where that entry is not a
zero, bit for bit (R95); the first call after reset returns `TABLE[0]`. -/
def Obligations.KnotSampleIsTheTableEntry : Prop :=
  (∀ (s : State) (k : Nat), s.Inv → F32.val s.phase = (k : Rat) →
    ∃ (y out : Word) (t : State), s.cfg.table[k]? = some y ∧ exec .getSample s = .next t ∧
      t.rsps = s.rsps ++ [{ status := .ok, data := out }] ∧ F32.isFinite out = true ∧ F32.val out = F32.val y ∧
      (F32.isZero y = false → out = y)) ∧
  (∀ (c : Cfg) (h : c.wf = true), ∃ (y out : Word) (t : State), c.table[0]? = some y ∧
      exec .getSample (State.resetOf c h) = .next t ∧ t.rsps = [{ status := .ok, data := out }] ∧ F32.val out = F32.val y)

/-- R130: after reset, before any SET_FREQUENCY that responds OK, `phase` and `inc` are `+0`, every GET_SAMPLE returns
`TABLE[0]` and leaves the registers unchanged. -/
def Obligations.StaticUntilAFrequencyIsSet : Prop :=
  (∀ (c : Cfg) (h : c.wf = true), (State.resetOf c h).phase = 0x00000000#32 ∧ (State.resetOf c h).inc = 0x00000000#32) ∧
  (∀ s : State, s.Inv → s.phase = 0x00000000#32 → s.inc = 0x00000000#32 →
    ∃ y out : Word, s.cfg.table[0]? = some y ∧ F32.val out = F32.val y ∧ (F32.isZero y = false → out = y) ∧
      exec .getSample s = .next { s with rsps := s.rsps ++ [{ status := .ok, data := out }] }) ∧
  (∀ (i : Instr) (s t : State), s.phase = 0x00000000#32 → s.inc = 0x00000000#32 → exec i s = .next t →
    (∀ f, i = .setFrequency f → t.rsps ≠ s.rsps ++ [{ status := .ok, data := 0x00000000#32 }]) →
    t.phase = 0x00000000#32 ∧ t.inc = 0x00000000#32)

/-- R131: when `inc` is a zero, or so small that `fadd(phase, inc) = phase`, GET_SAMPLE leaves `phase` as it is and every
further GET_SAMPLE returns the same sample, INTERP at the fixed phase. -/
def Obligations.ZeroIncrementHoldsTheSample : Prop :=
  ∀ s : State, s.Inv → (F32.isZero s.inc = true ∨ F32.fadd s.phase s.inc = s.phase) →
    F32.wrap s.cfg.table.length (F32.fadd s.phase s.inc) = s.phase ∧
    ∃ out : Word, sampleAt binary32 s.cfg.table s.phase = some out ∧ ∀ rs : List Response,
      exec .getSample { s with rsps := rs } = .next { s with rsps := rs ++ [{ status := .ok, data := out }] }

/-- Forward playback (R135 as the rules make it): for `0 < inc < L` the new phase is the sum, not below the old phase, while
the sum is below `L`; otherwise it is the sum less `L` exactly, and it is not above the old phase. R135 says "less than the
old" there, which fails by rounding (log entry 17): hence "not above". -/
def Obligations.ForwardPlaybackAdvancesOrWraps : Prop :=
  ∀ s : State, s.Inv → 0 < F32.val s.inc → F32.val s.inc < (s.cfg.table.length : Rat) →
    ∃ t : State, exec .getSample s = .next t ∧
      (F32.val (F32.fadd s.phase s.inc) < (s.cfg.table.length : Rat) →
        t.phase = F32.fadd s.phase s.inc ∧ F32.val s.phase ≤ F32.val t.phase) ∧
      ((s.cfg.table.length : Rat) ≤ F32.val (F32.fadd s.phase s.inc) →
        F32.val t.phase = F32.val (F32.fadd s.phase s.inc) - (s.cfg.table.length : Rat) ∧
        F32.val t.phase ≤ F32.val s.phase)

/-- R136: for `-L < inc < 0` either the sum is not negative and is the new phase, or the new phase is `fl(L + sum)`, or `+0`
when that rounds to `L`; the phase is never negative after the command. -/
def Obligations.ReversePlaybackWrapsBelowZero : Prop :=
  ∀ s : State, s.Inv → -(s.cfg.table.length : Rat) < F32.val s.inc → F32.val s.inc < 0 →
    ∃ t : State, exec .getSample s = .next t ∧ 0 ≤ F32.val t.phase ∧
      (0 ≤ F32.val (F32.fadd s.phase s.inc) → t.phase = F32.fadd s.phase s.inc) ∧
      (F32.val (F32.fadd s.phase s.inc) < 0 →
        t.phase = if F32.val (F32.fl ((s.cfg.table.length : Rat) + F32.val (F32.fadd s.phase s.inc))) = (s.cfg.table.length : Rat)
          then 0x00000000#32 else F32.fl ((s.cfg.table.length : Rat) + F32.val (F32.fadd s.phase s.inc)))

/-! ### SET_FREQUENCY -/

/-- R110: on every state that meets the invariant SET_FREQUENCY computes `fdiv(fmul(f, Lf), SRf)`; when it is finite `inc`
takes it and the answer is `{OK, 0}`, otherwise the answer is `{BAD_FREQUENCY, 0}` and no register changes. -/
def Obligations.SetFrequencyStoresTheIncrement : Prop :=
  ∀ (s : State) (f v : Word), s.Inv →
    v = F32.fdiv (F32.fmul f (F32.ofNat s.cfg.table.length)) (F32.ofNat s.cfg.sr.toNat) →
    (F32.isFinite v = true → exec (.setFrequency f) s =
      .next { s with inc := v, rsps := s.rsps ++ [{ status := .ok, data := 0x00000000#32 }] }) ∧
    (F32.isFinite v = false → exec (.setFrequency f) s =
      .next { s with rsps := s.rsps ++ [{ status := .badFrequency, data := 0x00000000#32 }] })

/-- R113: the increment is not finite exactly when `f` is a NaN, an infinity, or `|f| * L >= 2^128 - 2^103`; then the command
changes nothing and the response is `{BAD_FREQUENCY, 0}`. Every other operand is legal (R115) and is answered OK. -/
def Obligations.BadFrequencyExactlyOnOverflow : Prop :=
  ∀ (s : State) (f : Word), s.Inv →
    ((F32.isNaN f = true ∨ F32.isInf f = true ∨
        (F32.isFinite f = true ∧ (2 : Rat) ^ 128 - 2 ^ 103 ≤ |F32.val f| * (s.cfg.table.length : Rat))) →
      exec (.setFrequency f) s = .next { s with rsps := s.rsps ++ [{ status := .badFrequency, data := 0x00000000#32 }] }) ∧
    ((F32.isFinite f = true ∧ |F32.val f| * (s.cfg.table.length : Rat) < (2 : Rat) ^ 128 - 2 ^ 103) →
      ∃ v : Word, F32.isFinite v = true ∧
        exec (.setFrequency f) s = .next { s with inc := v, rsps := s.rsps ++ [{ status := .ok, data := 0x00000000#32 }] })

/-- R114: SET_FREQUENCY does not touch `phase`, so the first GET_SAMPLE after it returns the sample it would have returned
without it, and then advances by the new increment. -/
def Obligations.FrequencyChangeIsPhaseContinuous : Prop :=
  ∀ (s s1 : State) (f : Word), exec (.setFrequency f) s = .next s1 →
    s1.phase = s.phase ∧ ∃ (out : Word) (t t1 : State), exec .getSample s = .next t ∧ exec .getSample s1 = .next t1 ∧
      t.rsps = s.rsps ++ [{ status := .ok, data := out }] ∧ t1.rsps = s1.rsps ++ [{ status := .ok, data := out }] ∧
      t1.phase = F32.wrap s.cfg.table.length (F32.fadd s.phase s1.inc)

/-- Setting a frequency again changes nothing more (R116), and of two frequencies the second one alone counts when it is
answered OK. (R116 says so of any second frequency; one that is refused leaves the first in force, R152: log entry 18.) -/
def Obligations.LastGoodFrequencyCounts : Prop :=
  ∀ (s s1 s2 : State) (f g : Word), exec (.setFrequency f) s = .next s1 → exec (.setFrequency g) s1 = .next s2 →
    (f = g → s2.phase = s1.phase ∧ s2.inc = s1.inc ∧ s2.cfg = s1.cfg) ∧
    (s2.rsps = s1.rsps ++ [{ status := .ok, data := 0x00000000#32 }] →
      ∃ t : State, exec (.setFrequency g) s = .next t ∧ s2.phase = t.phase ∧ s2.inc = t.inc ∧ s2.cfg = t.cfg)

/-- R99, R112: a zero frequency gives a zero increment with the sign of `f`, and with it the oscillator holds (R131). -/
def Obligations.ZeroFrequencyKeepsItsSign : Prop :=
  ∀ (s : State) (f : Word), s.Inv → F32.isZero f = true →
    exec (.setFrequency f) s = .next { s with inc := f, rsps := s.rsps ++ [{ status := .ok, data := 0x00000000#32 }] }

/-! ### GET_INFO and the reserved opcode -/

/-- R140: GET_INFO answers `{OK, 1}` for CHANNELS, `{OK, SR}` for SAMPLE_RATE and `{NONE, 0}` for the two properties that have
no value, and writes nothing. -/
def Obligations.GetInfoAnswersTheFourProperties : Prop :=
  ∀ s : State, s.Inv →
    exec (.getInfo .channels) s = .next { s with rsps := s.rsps ++ [{ status := .ok, data := 0x00000001#32 }] } ∧
    exec (.getInfo .sampleRate) s = .next { s with rsps := s.rsps ++ [{ status := .ok, data := s.cfg.sr }] } ∧
    exec (.getInfo .frameLength) s = .next { s with rsps := s.rsps ++ [{ status := .none, data := 0x00000000#32 }] } ∧
    exec (.getInfo .totalDuration) s = .next { s with rsps := s.rsps ++ [{ status := .none, data := 0x00000000#32 }] }

/-- R144: a word with the reserved `op` is answered `{ILLEGAL_COMMAND, 0}`, whatever its operand bits, with no state change,
and a following GET_SAMPLE returns exactly what it would have returned without it. -/
def Obligations.ReservedOpcodeIsIllegalAndHarmless : Prop :=
  ∀ (s : State) (x : Word), s.Inv →
    exec (decode (0b11#2 ++ x)) s = .next { s with rsps := s.rsps ++ [{ status := .illegalCommand, data := 0x00000000#32 }] } ∧
    ∃ (p out : Word), exec .getSample s = .next { s with phase := p, rsps := s.rsps ++ [{ status := .ok, data := out }] } ∧
      exec .getSample { s with rsps := s.rsps ++ [{ status := .illegalCommand, data := 0x00000000#32 }] } =
        .next { s with phase := p, rsps := s.rsps ++ [{ status := .illegalCommand, data := 0x00000000#32 }] ++
          [{ status := .ok, data := out }] }

/-! ### The number format -/

/-- R83, over the rationals: rounding goes to the nearest value of the format, ties to even. (a) A value of the format is kept;
0 becomes a zero (which one is the operation's to say, R84; the model's `fl 0` is `+0`, log entry 20, not stated here). (b) A finite
result is nearest among all finite values, and even where another is as near. (c) From `2^128 - 2^103` on, and only there,
it is the infinity of the sign of `x`. (d) A non-zero `x` with `|x| <= 2^-150` gives the zero of its sign. Rounding is
monotone. -/
def Obligations.RoundingIsNearestTiesToEven : Prop :=
  (∀ w : Word, F32.isFinite w = true → F32.isZero w = false → F32.fl (F32.val w) = w) ∧ F32.isZero (F32.fl 0) = true ∧
  (∀ (x : Rat) (v : Word), F32.isFinite (F32.fl x) = true → F32.isFinite v = true →
    |x - F32.val (F32.fl x)| ≤ |x - F32.val v| ∧
    (|x - F32.val (F32.fl x)| = |x - F32.val v| → F32.val v ≠ F32.val (F32.fl x) → F32.fracField (F32.fl x) % 2 = 0)) ∧
  (∀ x : Rat, (F32.isFinite (F32.fl x) = false ↔ (2 : Rat) ^ 128 - 2 ^ 103 ≤ |x|) ∧
    ((2 : Rat) ^ 128 - 2 ^ 103 ≤ |x| → F32.fl x = F32.infinity (decide (x < 0)))) ∧
  (∀ x : Rat, x ≠ 0 → |x| ≤ 1 / 2 ^ 150 → F32.fl x = F32.zero (decide (x < 0))) ∧
  (∀ x y : Rat, x ≤ y → F32.isFinite (F32.fl x) = true → F32.isFinite (F32.fl y) = true →
    F32.val (F32.fl x) ≤ F32.val (F32.fl y))

/-- R84: each operation on finite operands is the exact result rounded once, with the sign rules of a zero result and of a
division by zero, and the identities R84 draws from them. -/
def Obligations.ArithmeticRoundsTheExactResultOnce : Prop :=
  ∀ a b : Word, F32.isFinite a = true → F32.isFinite b = true →
    (F32.val a + F32.val b ≠ 0 → F32.fadd a b = F32.fl (F32.val a + F32.val b)) ∧
    (F32.val a + F32.val b = 0 → F32.fadd a b = if a = 0x80000000#32 ∧ b = 0x80000000#32 then 0x80000000#32 else 0x00000000#32) ∧
    F32.fsub a b = F32.fadd a (F32.neg b) ∧ F32.isFinite (F32.neg b) = true ∧ F32.val (F32.neg b) = -F32.val b ∧
    F32.signBit (F32.neg b) = !F32.signBit b ∧
    (F32.val a * F32.val b ≠ 0 → F32.fmul a b = F32.fl (F32.val a * F32.val b)) ∧
    (F32.val a * F32.val b = 0 → F32.fmul a b = F32.zero (F32.signBit a != F32.signBit b)) ∧
    (F32.val a ≠ 0 → F32.val b ≠ 0 → F32.fdiv a b = F32.fl (F32.val a / F32.val b)) ∧
    (F32.val a = 0 → F32.val b ≠ 0 → F32.fdiv a b = F32.zero (F32.signBit a != F32.signBit b)) ∧
    (F32.val a ≠ 0 → F32.val b = 0 → F32.fdiv a b = F32.infinity (F32.signBit a != F32.signBit b)) ∧
    (F32.val a = 0 → F32.val b = 0 → F32.fdiv a b = 0x7FC00000#32) ∧
    F32.fsub a a = 0x00000000#32 ∧
    (F32.isZero a = true → F32.isZero b = false → F32.fadd a b = b) ∧
    (∀ c : Word, F32.isFinite c = true → F32.val c = F32.val a + F32.val b → F32.val (F32.fadd a b) = F32.val c) ∧
    (∀ c : Word, F32.isFinite c = true → F32.val c = F32.val a - F32.val b → F32.val (F32.fsub a b) = F32.val c) ∧
    (F32.val a + F32.val b ≠ 0 → 1 / 2 ^ 149 ≤ |F32.val a + F32.val b| ∧ F32.isZero (F32.fadd a b) = false) ∧
    (F32.isZero (F32.fmul a b) = true → F32.fmul a b = F32.zero (F32.signBit a != F32.signBit b)) ∧
    (F32.isZero (F32.fdiv a b) = true → F32.fdiv a b = F32.zero (F32.signBit a != F32.signBit b))

/-- R85: infinities and NaNs. (a) A NaN operand gives the NaN. (b) The invalid operations give it. (c) Otherwise an infinity
behaves as a limit. (d) Every NaN an operation produces is `0x7FC00000`. -/
def Obligations.InfinitiesAndNaNsAsTheRulesSay : Prop :=
  (∀ a b : Word, F32.isNaN a = true ∨ F32.isNaN b = true →
    F32.fadd a b = 0x7FC00000#32 ∧ F32.fsub a b = 0x7FC00000#32 ∧ F32.fmul a b = 0x7FC00000#32 ∧ F32.fdiv a b = 0x7FC00000#32) ∧
  (∀ n m : Bool, F32.fadd (F32.infinity n) (F32.infinity !n) = 0x7FC00000#32 ∧
    F32.fsub (F32.infinity n) (F32.infinity n) = 0x7FC00000#32 ∧ F32.fmul (F32.infinity n) (F32.zero m) = 0x7FC00000#32 ∧
    F32.fmul (F32.zero m) (F32.infinity n) = 0x7FC00000#32 ∧ F32.fdiv (F32.infinity n) (F32.infinity m) = 0x7FC00000#32 ∧
    F32.fdiv (F32.zero n) (F32.zero m) = 0x7FC00000#32) ∧
  (∀ (n : Bool) (x : Word), F32.isFinite x = true →
    F32.fadd (F32.infinity n) x = F32.infinity n ∧ F32.fadd x (F32.infinity n) = F32.infinity n ∧
    F32.fdiv (F32.infinity n) x = F32.infinity (n != F32.signBit x) ∧ F32.fdiv x (F32.infinity n) = F32.zero (F32.signBit x != n)) ∧
  (∀ n : Bool, F32.fadd (F32.infinity n) (F32.infinity n) = F32.infinity n) ∧
  (∀ (n : Bool) (x : Word), F32.isNaN x = false → F32.isZero x = false →
    F32.fmul (F32.infinity n) x = F32.infinity (n != F32.signBit x) ∧ F32.fmul x (F32.infinity n) = F32.infinity (F32.signBit x != n)) ∧
  (∀ a b r : Word, r = F32.fadd a b ∨ r = F32.fsub a b ∨ r = F32.fmul a b ∨ r = F32.fdiv a b → F32.isNaN r = true → r = 0x7FC00000#32)

/-- R86: `of_nat(n)` is `fl(n)` with sign `+`, exact up to `2^24` and for every `n` of at most 24 significant bits, with the
six worked bit patterns. -/
def Obligations.OfNatIsTheRoundedInteger : Prop :=
  (∀ n : Nat, n < 2 ^ 32 → F32.ofNat n = F32.fl (n : Rat) ∧ F32.signBit (F32.ofNat n) = false ∧ F32.isFinite (F32.ofNat n) = true) ∧
  (∀ m j : Nat, m ≤ 2 ^ 24 → m * 2 ^ j < 2 ^ 32 → F32.val (F32.ofNat (m * 2 ^ j)) = (m : Rat) * 2 ^ j) ∧
  F32.ofNat 4 = 0x40800000#32 ∧ F32.ofNat 8 = 0x41000000#32 ∧ F32.ofNat 64 = 0x42800000#32 ∧
  F32.ofNat 44100 = 0x472C4400#32 ∧ F32.ofNat 48000 = 0x473B8000#32 ∧ F32.ofNat 16777217 = 0x4B800000#32

/-- R87: `ffloor` of a finite word is exact and has the sign of its operand, `to_index` is the integer value, and a phase
within R23 gives an index below `L`. -/
def Obligations.FloorIsExact : Prop :=
  (∀ a : Word, F32.isFinite a = true →
    F32.isFinite (F32.ffloor a) = true ∧ F32.val (F32.ffloor a) = (⌊F32.val a⌋ : Rat) ∧
    F32.signBit (F32.ffloor a) = F32.signBit a) ∧
  F32.ffloor 0x00000000#32 = 0x00000000#32 ∧
  (∀ (a : Word) (k : Nat), F32.isFinite a = true → F32.val a = (k : Rat) → k < 2 ^ 24 → F32.toIndex a = k) ∧
  (∀ s : State, s.Inv → F32.toIndex (F32.ffloor s.phase) ≤ s.cfg.table.length - 1)

/-- R91: `SPLIT(phase)` is exact: `k = floor(phase)` with `0 <= k <= L-1`, `t = phase - k` with `0 <= t < 1`, `t` is never
`-0`, and it is `+0` when the phase is an integer. -/
def Obligations.SplitIsExact : Prop :=
  ∀ s : State, s.Inv →
    (splitIndex binary32 s.phase : Int) = ⌊F32.val s.phase⌋ ∧ splitIndex binary32 s.phase ≤ s.cfg.table.length - 1 ∧
    splitFrac binary32 s.phase = F32.fsub s.phase (F32.ffloor s.phase) ∧
    F32.isFinite (splitFrac binary32 s.phase) = true ∧
    F32.val (splitFrac binary32 s.phase) = F32.val s.phase - (splitIndex binary32 s.phase : Rat) ∧
    0 ≤ F32.val (splitFrac binary32 s.phase) ∧ F32.val (splitFrac binary32 s.phase) < 1 ∧
    splitFrac binary32 s.phase ≠ 0x80000000#32 ∧
    (∀ k : Nat, F32.val s.phase = (k : Rat) → splitFrac binary32 s.phase = 0x00000000#32)

/-- R44: for `L >= 4` and `k` in `0 .. L-1` the four indices of R43 are in range and pairwise distinct; for `L = 4` they are the
rotations R44 lists. -/
def Obligations.TapIndicesAreInRangeAndDistinct : Prop :=
  (∀ L k : Nat, 4 ≤ L → k < L →
    tapIndex L k (-1) < L ∧ tapIndex L k 0 < L ∧ tapIndex L k 1 < L ∧ tapIndex L k 2 < L ∧
    tapIndex L k (-1) ≠ tapIndex L k 0 ∧ tapIndex L k (-1) ≠ tapIndex L k 1 ∧ tapIndex L k (-1) ≠ tapIndex L k 2 ∧
    tapIndex L k 0 ≠ tapIndex L k 1 ∧ tapIndex L k 0 ≠ tapIndex L k 2 ∧ tapIndex L k 1 ≠ tapIndex L k 2) ∧
  [-1, 0, 1, 2].map (tapIndex 4 0) = [3, 0, 1, 2] ∧ [-1, 0, 1, 2].map (tapIndex 4 1) = [0, 1, 2, 3] ∧
  [-1, 0, 1, 2].map (tapIndex 4 2) = [1, 2, 3, 0] ∧ [-1, 0, 1, 2].map (tapIndex 4 3) = [2, 3, 0, 1]

/-- R43, R90: the index arithmetic needs one conditional correction: `k + d + L` below 0, `k + d - L` from `L` on. -/
def Obligations.IndexArithmeticNeedsOneCorrection : Prop :=
  ∀ (L k : Nat) (d : Int), 4 ≤ L → k < L → (d = -1 ∨ d = 0 ∨ d = 1 ∨ d = 2) →
    (tapIndex L k d : Int) = if (k : Int) + d < 0 then (k : Int) + d + L else if (L : Int) ≤ (k : Int) + d then (k : Int) + d - L
      else (k : Int) + d

/-- R93, R94: the evaluation order of the weights and of the weighted sum, operation by operation, with the constants as the
words R93 gives. -/
def Obligations.InterpolationFollowsTheEvaluationOrder : Prop :=
  ∀ (t t2 t3 y0 y1 y2 y3 : Word), t2 = F32.fmul t t → t3 = F32.fmul t2 t →
    weights binary32 t =
      { a0 := F32.fsub (F32.fadd (F32.fmul 0xBF000000#32 t3) t2) (F32.fmul 0x3F000000#32 t)
        a1 := F32.fadd (F32.fsub (F32.fmul 0x3FC00000#32 t3) (F32.fmul 0x40200000#32 t2)) 0x3F800000#32
        a2 := F32.fadd (F32.fadd (F32.fmul 0xBFC00000#32 t3) (F32.fmul 0x40000000#32 t2)) (F32.fmul 0x3F000000#32 t)
        a3 := F32.fsub (F32.fmul 0x3F000000#32 t3) (F32.fmul 0x3F000000#32 t2) } ∧
    interp binary32 { y0 := y0, y1 := y1, y2 := y2, y3 := y3 } t =
      F32.fadd (F32.fadd (F32.fadd (F32.fmul (weights binary32 t).a0 y0) (F32.fmul (weights binary32 t).a1 y1))
        (F32.fmul (weights binary32 t).a2 y2)) (F32.fmul (weights binary32 t).a3 y3)

/-- R95: exactness at a knot. `WEIGHTS(+0)` is `(+0, 1.0, +0, +0)` bit for bit; INTERP at `+0` equals `y1` as a number for all
finite taps, bit for bit when `y1` is not a zero; when it is one the result is `-0` if `y1 = -0` and the other taps have sign
bit 1, and `+0` otherwise; and the fraction of a phase within R23 never reaches 1. -/
def Obligations.InterpolationIsExactAtKnots : Prop :=
  weights binary32 0x00000000#32 = { a0 := 0x00000000#32, a1 := 0x3F800000#32, a2 := 0x00000000#32, a3 := 0x00000000#32 } ∧
  (∀ (y : Taps Word) (out : Word), F32.isFinite y.y0 = true → F32.isFinite y.y1 = true → F32.isFinite y.y2 = true →
    F32.isFinite y.y3 = true → out = interp binary32 y 0x00000000#32 →
    F32.isFinite out = true ∧ F32.val out = F32.val y.y1 ∧ (F32.isZero y.y1 = false → out = y.y1) ∧
    (F32.isZero y.y1 = true → out =
      if y.y1 = 0x80000000#32 ∧ F32.signBit y.y0 = true ∧ F32.signBit y.y2 = true ∧ F32.signBit y.y3 = true
      then 0x80000000#32 else 0x00000000#32)) ∧
  (∀ s : State, s.Inv → F32.val (splitFrac binary32 s.phase) < 1)

/-- R96: `WRAP(s)` of a finite `s` is the exact modulo `m = s - L * floor(s / L)`, which is in `[0, L)`, rounded once; a result
of `L` becomes `+0`. -/
def Obligations.WrapRoundsTheExactModuloOnce : Prop :=
  ∀ (L : Nat) (s : Word) (m : Rat), 4 ≤ L → L ≤ 2 ^ 24 → F32.isFinite s = true →
    m = F32.val s - (L : Rat) * (⌊F32.val s / (L : Rat)⌋ : Rat) →
    0 ≤ m ∧ m < (L : Rat) ∧
    F32.wrap L s = if F32.val (F32.fl m) = (L : Rat) then 0x00000000#32 else F32.fl m

/-- R97: the properties of `WRAP` for every finite `s`: (a) finite, in `[0, L)`, never `-0`; (b) a value in range is kept as a
number, and `-0` gives `+0`; (c) exact for a value that is not negative; (d) `+0` for a negative multiple of `L`; (e)
otherwise the error is at most half a unit in the last place of the result, with `+0` when `m` rounds up to `L`, and the
worked values for `L = 64` and `L = 4`. (f) is its type. -/
def Obligations.WrapHasTheListedProperties : Prop :=
  (∀ (L : Nat) (s : Word), 4 ≤ L → L ≤ 2 ^ 24 → F32.isFinite s = true →
    (F32.isFinite (F32.wrap L s) = true ∧ 0 ≤ F32.val (F32.wrap L s) ∧ F32.val (F32.wrap L s) < (L : Rat) ∧
      F32.wrap L s ≠ 0x80000000#32) ∧
    (0 ≤ F32.val s → F32.val s < (L : Rat) → F32.val (F32.wrap L s) = F32.val s) ∧ F32.wrap L 0x80000000#32 = 0x00000000#32 ∧
    (0 ≤ F32.val s → F32.val (F32.wrap L s) = F32.val s - (L : Rat) * (⌊F32.val s / (L : Rat)⌋ : Rat)) ∧
    (∀ n : Nat, F32.val s < 0 → F32.val s = -((n : Rat) * (L : Rat)) → F32.wrap L s = 0x00000000#32) ∧
    (∀ m : Rat, F32.val s < 0 → m = F32.val s - (L : Rat) * (⌊F32.val s / (L : Rat)⌋ : Rat) → m ≠ 0 →
      m = (L : Rat) - (|F32.val s| - (L : Rat) * (⌊|F32.val s| / (L : Rat)⌋ : Rat)) ∧
      (F32.val (F32.fl m) = (L : Rat) → F32.wrap L s = 0x00000000#32) ∧
      (F32.val (F32.fl m) ≠ (L : Rat) →
        2 * |F32.val (F32.wrap L s) - m| ≤ 2 ^ max 1 (F32.expField (F32.wrap L s)) / 2 ^ 150))) ∧
  F32.wrap 64 0xB6800000#32 = 0x427FFFFF#32 ∧ F32.wrap 64 0xB6000000#32 = 0x00000000#32 ∧
  F32.wrap 64 0xAF000000#32 = 0x00000000#32 ∧ F32.wrap 4 0xB4800000#32 = 0x407FFFFF#32 ∧
  F32.wrap 4 0xB4000000#32 = 0x00000000#32

/-- R10: the derived constants of an instance: `Lf` is exact, `SRf` is `SR` rounded once, and `AW = ceil(log2(L))`, with the
three examples. -/
def Obligations.DerivedConstantsOfAnInstance : Prop :=
  (∀ c : Cfg, c.wf = true →
    F32.isFinite (Cfg.lf c) = true ∧ F32.val (Cfg.lf c) = (c.table.length : Rat) ∧ Cfg.srf c = F32.fl (c.sr.toNat : Rat) ∧
    c.table.length ≤ 2 ^ Cfg.aw c ∧ ∀ w : Nat, c.table.length ≤ 2 ^ w → Cfg.aw c ≤ w) ∧
  indexWidth 4 = 2 ∧ indexWidth 64 = 6 ∧ indexWidth (2 ^ 24) = 24

/-- R101(a): if every table entry has magnitude at most `2^126`, every sample is finite. -/
def Obligations.BoundedTableGivesFiniteSamples : Prop :=
  ∀ s t : State, s.Inv → (∀ w ∈ s.cfg.table, |F32.val w| ≤ 2 ^ 126) → exec .getSample s = .next t →
    ∃ out : Word, t.rsps = s.rsps ++ [{ status := .ok, data := out }] ∧ F32.isFinite out = true

/-! ### The exact instance (R89), which is not the hardware -/

/-- R92: the ideal weights and the ideal output: the polynomials, their values at 0 and 1, their sum, their symmetry, and their
bounds on `[0, 1]` with the points where they are reached. -/
def Obligations.IdealWeightsFormTheSpline : Prop :=
  weights exactNum 0 = { a0 := 0, a1 := 1, a2 := 0, a3 := 0 } ∧ weights exactNum 1 = { a0 := 0, a1 := 0, a2 := 1, a3 := 0 } ∧
  (∀ (t : Rat) (a b : Weights Rat), a = weights exactNum t → b = weights exactNum (1 - t) →
    a.a0 = -(1 / 2) * t ^ 3 + t ^ 2 - 1 / 2 * t ∧ a.a1 = 3 / 2 * t ^ 3 - 5 / 2 * t ^ 2 + 1 ∧
    a.a2 = -(3 / 2) * t ^ 3 + 2 * t ^ 2 + 1 / 2 * t ∧ a.a3 = 1 / 2 * t ^ 3 - 1 / 2 * t ^ 2 ∧
    a.a0 + a.a1 + a.a2 + a.a3 = 1 ∧ a.a0 = b.a3 ∧ a.a1 = b.a2 ∧
    (0 ≤ t → t ≤ 1 → -(2 / 27) ≤ a.a0 ∧ a.a0 ≤ 0 ∧ -(2 / 27) ≤ a.a3 ∧ a.a3 ≤ 0 ∧ 0 ≤ a.a1 ∧ a.a1 ≤ 1 ∧ 0 ≤ a.a2 ∧ a.a2 ≤ 1 ∧
      |a.a0| + |a.a1| + |a.a2| + |a.a3| ≤ 5 / 4)) ∧
  (weights exactNum (1 / 3)).a0 = -(2 / 27) ∧ (weights exactNum (2 / 3)).a3 = -(2 / 27) ∧
  (∀ a : Weights Rat, a = weights exactNum (1 / 2) → |a.a0| + |a.a1| + |a.a2| + |a.a3| = 5 / 4) ∧
  (∀ (t y0 y1 y2 y3 : Rat) (a : Weights Rat), a = weights exactNum t →
    interp exactNum { y0 := y0, y1 := y1, y2 := y2, y3 := y3 } t = a.a0 * y0 + a.a1 * y1 + a.a2 * y2 + a.a3 * y3)

/-- R134 in the exact instance: after `n` pulls the phase is `(p + n * inc) mod L`, in `[0, L)`; if `n * inc` is a multiple of
`L` it is back where it was, and so is every phase `j` pulls further on. -/
def Obligations.ExactPhaseIsPeriodic : Prop :=
  ∀ (L : Nat) (inc p : Rat), 0 < L → 0 ≤ p → p < (L : Rat) →
    (∀ n : Nat, exactPhaseAfter L inc n p = p + n * inc - (L : Rat) * (⌊(p + n * inc) / (L : Rat)⌋ : Rat) ∧
      0 ≤ exactPhaseAfter L inc n p ∧ exactPhaseAfter L inc n p < (L : Rat)) ∧
    (∀ (n : Nat) (m : Int), (n : Rat) * inc = m * (L : Rat) →
      exactPhaseAfter L inc n p = p ∧ ∀ j : Nat, exactPhaseAfter L inc (n + j) p = exactPhaseAfter L inc j p)

/-- R89: the exact instance runs the same commands with no rounding. On an instance whose phase is in `[0, L)`: GET_SAMPLE
answers the weighted sum of R92 over the four table entries of R43 (what their words denote) at `t = phase - floor(phase)`,
and the phase becomes `s - L * floor(s / L)` for `s = phase + inc`; SET_FREQUENCY of a finite word stores `val(f) * L / SR` and
answers OK, and of an infinity or a NaN answers BAD_FREQUENCY and changes nothing (log entry 12, the model's form); GET_INFO
and the reserved opcode answer what the block answers. Nothing else changes, and the phase stays in `[0, L)`. -/
def Obligations.ExactInstanceFollowsTheFormulas : Prop :=
  ∀ s : ExactState, s.Inv →
    (∃ (y0 y1 y2 y3 : Word) (a : Weights Rat) (t : ExactState),
      s.cfg.table[((⌊s.phase⌋ - 1) % (s.cfg.table.length : Int)).toNat]? = some y0 ∧
      s.cfg.table[(⌊s.phase⌋ % (s.cfg.table.length : Int)).toNat]? = some y1 ∧
      s.cfg.table[((⌊s.phase⌋ + 1) % (s.cfg.table.length : Int)).toNat]? = some y2 ∧
      s.cfg.table[((⌊s.phase⌋ + 2) % (s.cfg.table.length : Int)).toNat]? = some y3 ∧
      a = weights exactNum (s.phase - (⌊s.phase⌋ : Rat)) ∧
      exactExec .getSample s = .next (t, .sample (a.a0 * F32.val y0 + a.a1 * F32.val y1 + a.a2 * F32.val y2 + a.a3 * F32.val y3)) ∧
      t.cfg = s.cfg ∧ t.inc = s.inc ∧ t.Inv ∧
      t.phase = s.phase + s.inc - (s.cfg.table.length : Rat) * (⌊(s.phase + s.inc) / (s.cfg.table.length : Rat)⌋ : Rat)) ∧
    (∀ f : Word, F32.isFinite f = true → exactExec (.setFrequency f) s =
      .next ({ s with inc := F32.val f * (s.cfg.table.length : Rat) / (s.cfg.sr.toNat : Rat) },
        .word { status := .ok, data := 0x00000000#32 })) ∧
    (∀ f : Word, F32.isFinite f = false → exactExec (.setFrequency f) s =
      .next (s, .word { status := .badFrequency, data := 0x00000000#32 })) ∧
    exactExec (.getInfo .channels) s = .next (s, .word { status := .ok, data := 0x00000001#32 }) ∧
    exactExec (.getInfo .sampleRate) s = .next (s, .word { status := .ok, data := s.cfg.sr }) ∧
    exactExec (.getInfo .frameLength) s = .next (s, .word { status := .none, data := 0x00000000#32 }) ∧
    exactExec (.getInfo .totalDuration) s = .next (s, .word { status := .none, data := 0x00000000#32 }) ∧
    exactExec .reserved s = .next (s, .word { status := .illegalCommand, data := 0x00000000#32 })

/-- R134 in the exact instance, for the commands: `n` pulls all complete, give `n` answers and move the phase as
`exactPhaseAfter` says, and if `n * inc` is a multiple of `L` they leave the state as it was, and the answers of every longer
run of pulls are theirs followed by those of the run that starts afresh: the sample sequence has period `n`. -/
def Obligations.ExactSamplesRepeat : Prop :=
  ∀ (s : ExactState) (n : Nat), s.Inv →
    (∃ as : List ExactAnswer, as.length = n ∧ exactRun (List.replicate n .getSample) s =
      .next ({ s with phase := exactPhaseAfter s.cfg.table.length s.inc n s.phase }, as)) ∧
    (∀ m : Int, (n : Rat) * s.inc = m * (s.cfg.table.length : Rat) →
      ∃ as : List ExactAnswer, as.length = n ∧ exactRun (List.replicate n .getSample) s = .next (s, as) ∧
        ∀ (j : Nat) (t : ExactState) (bs : List ExactAnswer), exactRun (List.replicate j .getSample) s = .next (t, bs) →
          exactRun (List.replicate (n + j) .getSample) s = .next (t, as ++ bs))

/-- R89: the two instances agree where nothing rounds. If the product and the quotient of the increment are values of the
format, the stored increment is the exact one; if the sum and its modulo are, so is the new phase; and if every number INTERP
forms from the exact taps at the exact fraction is one (`interpSteps`), so is the sample. Equal as numbers: that is bit for bit
but for the sign of a zero, which the exact instance does not have. -/
def Obligations.ExactAgreesWhereNothingRounds : Prop :=
  ∀ (s : State) (e : ExactState), s.Inv → e.cfg = s.cfg → e.phase = F32.val s.phase → e.inc = F32.val s.inc →
    (∀ f u v : Word, F32.isFinite f = true → F32.isFinite u = true → F32.isFinite v = true →
      F32.val u = F32.val f * (s.cfg.table.length : Rat) →
      (∃ r : Word, F32.isFinite r = true ∧ F32.val r = (s.cfg.sr.toNat : Rat)) →
      F32.val v = F32.val f * (s.cfg.table.length : Rat) / (s.cfg.sr.toNat : Rat) →
      ∃ (t : State) (d : ExactState), exec (.setFrequency f) s = .next t ∧
        exactExec (.setFrequency f) e = .next (d, .word { status := .ok, data := 0x00000000#32 }) ∧ F32.val t.inc = d.inc) ∧
    (∀ u v : Word, F32.isFinite u = true → F32.isFinite v = true → F32.val u = F32.val s.phase + F32.val s.inc →
      F32.val v = F32.val u - (s.cfg.table.length : Rat) * (⌊F32.val u / (s.cfg.table.length : Rat)⌋ : Rat) →
      ∃ (t : State) (d : ExactState) (q : Rat), exec .getSample s = .next t ∧ exactExec .getSample e = .next (d, .sample q) ∧
        F32.val t.phase = d.phase) ∧
    (∀ y : Taps Rat, gather (exactTable s.cfg) (splitIndex exactNum e.phase) = some y →
      (∀ q ∈ interpSteps exactNum y (splitFrac exactNum e.phase), F32.IsValue q) →
      ∃ (t : State) (d : ExactState) (out : Word) (q : Rat), exec .getSample s = .next t ∧
        t.rsps = s.rsps ++ [{ status := .ok, data := out }] ∧ exactExec .getSample e = .next (d, .sample q) ∧ F32.Denotes out q)

/-- R132 and R133 in the exact instance: at an integer phase the sample is the table entry, and a table made of two copies
placed end to end gives, at `p + L` and at `p`, the sample of the single table at `p`: the seam is invisible. -/
def Obligations.ExactSampleCrossesTheSeam : Prop :=
  ∀ t : List Rat, 4 ≤ t.length →
    (∀ k : Nat, k < t.length → sampleAt exactNum t (k : Rat) = t[k]?) ∧
    (∀ p : Rat, 0 ≤ p → p < (t.length : Rat) →
      sampleAt exactNum (t ++ t) (p + (t.length : Rat)) = sampleAt exactNum t p ∧
      sampleAt exactNum (t ++ t) p = sampleAt exactNum t p)

/-! ### The clocked port (R71) -/

/-- R71 with R11 at the pins: a command accepted at an edge is answered exactly `T` cycles later with the response the
command-level machine gives, `rsp = {status, data}` and `rsp_valid` 1 for that one cycle; `cmd_ready` and `rsp_valid` are 0
before it, whatever the host presents under its duties (no reset; a word it waits with kept, R186); and `cmd_ready` is 1 no
later than the cycle after it. That the registers are unchanged until the edge before the response is the model's choice (log
entry 15, DESIGN CHOICE), no word of R71. -/
def Obligations.PortAnswersAfterItsLatency : Prop :=
  ∀ (p : PortState) (w : Cmd) (ps : List Pins), p.core.Inv → p.busy = none → p.out.cmdReady = true →
    (∀ w', p.waiting = some w' → w' = w) → (∀ q ∈ ps, q.rst = false) →
    (∀ (k : Nat) (q q' : Pins), ps[k]? = some q → ps[k + 1]? = some q' → q.cmdValid = true → q'.cmdValid = true → q'.cmd = q.cmd) →
    ps.length + 1 = latency p.core.cfg.timing (decode w) →
    (∀ k : Nat, k < ps.length → ∃ p' : PortState,
      ticks ({ rst := false, cmdValid := true, cmd := w } :: ps.take k) p = .next p' ∧
      p'.out = { cmdReady := false, rspValid := false, rsp := none } ∧ p'.core = p.core) ∧
    (∃ (p' : PortState) (r : Response),
      ticks ({ rst := false, cmdValid := true, cmd := w } :: ps) p = .next p' ∧
      exec (decode w) p.core = .next p'.core ∧ p'.core.rsps = p.core.rsps ++ [r] ∧ p'.busy = none ∧
      p'.out.rspValid = true ∧ p'.out.rsp = some (r.status.code ++ r.data) ∧
      (∀ q : Pins, q.rst = false → (∀ w', p'.waiting = some w' → q.cmdValid = true → q.cmd = w') →
        (q.cmdValid = false ∨ p'.out.cmdReady = false) → ∃ p'' : PortState, tick q p' = .next p'' ∧
          p''.out = { cmdReady := true, rspValid := false, rsp := none } ∧ p''.core = p'.core))

/-- R71: a command is accepted only where `cmd_valid` and `cmd_ready` are 1. At an edge (no reset, the handshake kept) with no
command in progress and `cmd_valid` or `cmd_ready` 0, nothing is accepted: the state is held, no command is in progress, and
nothing is answered. While one is in progress `cmd_ready` is 0 and none is accepted, whatever is presented. Two things here
are the model's choice and no word of R71 (log entry 15, DESIGN CHOICE): that the registers are unchanged, and only the count
of cycles goes down, at an edge before the command's last; and the field that remembers the word the host must keep (R186). -/
def Obligations.PortAcceptsOnlyWhenValidAndReady : Prop :=
  ∀ (p : PortState) (q : Pins), p.core.cfg.wf = true → q.rst = false →
    (∀ w, p.waiting = some w → q.cmdValid = true → q.cmd = w) →
    (p.busy = none → q.cmdValid = false ∨ p.out.cmdReady = false → ∃ p' : PortState, tick q p = .next p' ∧
      p'.core = p.core ∧ p'.busy = none ∧ p'.out = { cmdReady := true, rspValid := false, rsp := none } ∧
      p'.waiting = if q.cmdValid = true then some q.cmd else none) ∧
    (∀ (w : Cmd) (n : Nat), 1 < n → p.busy = some { word := w, left := n } → ∃ p' : PortState, tick q p = .next p' ∧
      p'.core = p.core ∧ p'.busy = some { word := w, left := n - 1 } ∧
      p'.out = { cmdReady := false, rspValid := false, rsp := none } ∧
      p'.waiting = if q.cmdValid = true then some q.cmd else none)

/-- R71, R186: a host that presents another word while it waits for `cmd_ready` has no step: presented at an edge where
`cmd_ready` is 0, a word is remembered, and the next edge (but a reset) at which another word is presented is refused. It is
the port that refuses, by a name of the model's (log entry 15); R164 counts a broken duty among the refusals. -/
def Obligations.ChangingAWaitingCommandIsRefused : Prop :=
  ∀ (p p' : PortState) (q q' : Pins), q.rst = false → q.cmdValid = true → p.out.cmdReady = false → tick q p = .next p' →
    q'.rst = false → q'.cmdValid = true → q'.cmd ≠ q.cmd → tick q' p' = .refused .brokenHandshake

/-- R182: where `rst` is sampled high, a command in progress is abandoned: it writes nothing, it gives no response, the state
is the reset state; a command presented at that edge is not accepted. -/
def Obligations.ResetAbandonsTheCommandInProgress : Prop :=
  ∀ (p : PortState) (q : Pins), p.core.cfg.wf = true → q.rst = true →
    ∃ p' : PortState, tick q p = .next p' ∧
      p'.core = { p.core with phase := 0x00000000#32, inc := 0x00000000#32 } ∧
      p'.out.rspValid = false ∧ p'.out.rsp = none ∧ p'.busy = none

/-- After an edge with `rst` high the block is ready: it shows `cmd_ready` 1 already in the next cycle, which is the model's
choice (log entry 15, DESIGN CHOICE); if nothing is accepted at the edge where `rst` is sampled low it shows it in the
cycle after that one too, which is what R180 says; and a command presented there is accepted. -/
def Obligations.PortIsReadyAfterReset : Prop :=
  ∀ (p p' : PortState) (q : Pins), p.core.cfg.wf = true → q.rst = true → tick q p = .next p' →
    p'.out = { cmdReady := true, rspValid := false, rsp := none } ∧
    (∀ q' : Pins, q'.rst = false → q'.cmdValid = false → ∃ p'' : PortState, tick q' p' = .next p'' ∧
      p''.out = { cmdReady := true, rspValid := false, rsp := none } ∧ p''.core = p'.core) ∧
    (∀ w : Cmd, 1 < latency p.core.cfg.timing (decode w) → ∃ p'' : PortState,
      tick { rst := false, cmdValid := true, cmd := w } p' = .next p'' ∧
      p''.busy = some { word := w, left := latency p.core.cfg.timing (decode w) - 1 })
end

