-- ==== Sys2Proof/Laws/Number.lean ====
section
/-! SUPPORT. Facts of the number format: packing and unpacking words, and what rounding does (R80 to R83). -/

namespace Sys2Proof.Machine.F32

/-! ### Words and their fields -/

theorem expField_lt (w : Word) : expField w < 256 := (w.extractLsb' 23 8).isLt

theorem fracField_lt (w : Word) : fracField w < 2 ^ 23 := (w.extractLsb' 0 23).isLt

theorem expField_eq (w : Word) : expField w = w.toNat / 2 ^ 23 % 2 ^ 8 := by
  simp [expField, BitVec.extractLsb'_toNat, Nat.shiftRight_eq_div_pow]

theorem fracField_eq (w : Word) : fracField w = w.toNat % 2 ^ 23 := by
  simp [fracField, BitVec.extractLsb'_toNat]

theorem signBit_eq (w : Word) : signBit w = decide (w.toNat / 2 ^ 31 % 2 = 1) := by
  simp [signBit, BitVec.getLsbD, Nat.testBit, Nat.shiftRight_eq_div_pow]
  grind

theorem pack_toNat (neg : Bool) {low : Nat} (h : low < 2 ^ 31) :
    (pack neg low).toNat = (if neg then 2 ^ 31 + low else low) := by
  cases neg <;> (simp [pack]; omega)

@[simp] theorem expField_pack (neg : Bool) {low : Nat} (h : low < 2 ^ 31) : expField (pack neg low) = low / 2 ^ 23 := by
  rw [expField_eq, pack_toNat neg h]; cases neg <;> simp <;> omega

@[simp] theorem fracField_pack (neg : Bool) {low : Nat} (h : low < 2 ^ 31) : fracField (pack neg low) = low % 2 ^ 23 := by
  rw [fracField_eq, pack_toNat neg h]; cases neg <;> simp <;> omega

@[simp] theorem signBit_pack (neg : Bool) {low : Nat} (h : low < 2 ^ 31) : signBit (pack neg low) = neg := by
  rw [signBit_eq, pack_toNat neg h]; cases neg <;> simp <;> omega

/-- Bits 30:0 of a word. -/
def low (w : Word) : Nat := expField w * 2 ^ 23 + fracField w

theorem low_lt (w : Word) : low w < 2 ^ 31 := by
  have h1 := expField_lt w; have h2 := fracField_lt w
  simp only [low]; omega

theorem pack_low (w : Word) : pack (signBit w) (low w) = w := by
  apply BitVec.eq_of_toNat_eq
  rw [pack_toNat _ (low_lt w), low, expField_eq, fracField_eq, signBit_eq]
  have := w.isLt
  simp only [decide_eq_true_eq]
  split <;> omega

theorem low_pack (neg : Bool) {n : Nat} (h : n < 2 ^ 31) : low (pack neg n) = n := by
  simp only [low, expField_pack neg h, fracField_pack neg h]; omega

theorem isFinite_iff_low (w : Word) : isFinite w = true ↔ low w < 255 * 2 ^ 23 := by
  have h1 := expField_lt w; have h2 := fracField_lt w
  simp only [isFinite, low, bne_iff_ne]; omega

/-- The magnitude that bits 30:0 stand for (R81). -/
def magOf (n : Nat) : Nat := if n / 2 ^ 23 = 0 then n % 2 ^ 23 else (2 ^ 23 + n % 2 ^ 23) * 2 ^ (n / 2 ^ 23 - 1)

theorem mag_eq_magOf (w : Word) : mag w = magOf (low w) := by
  have h2 := fracField_lt w
  have e1 : low w / 2 ^ 23 = expField w := by simp only [low]; omega
  have e2 : low w % 2 ^ 23 = fracField w := by simp only [low]; omega
  simp only [mag, magOf, e1, e2]

theorem mag_pack (neg : Bool) {n : Nat} (h : n < 2 ^ 31) : mag (pack neg n) = magOf n := by
  rw [mag_eq_magOf, low_pack neg h]

/-- A significand `q` at exponent `e`: the bits `e * 2^23 + q` stand for `q * 2^e`. -/
theorem magOf_canonical {e q : Nat} (hq : q ≤ 2 ^ 24) (he : e = 0 ∨ 2 ^ 23 ≤ q) : magOf (e * 2 ^ 23 + q) = q * 2 ^ e := by
  by_cases h0 : e * 2 ^ 23 + q < 2 ^ 23
  · have : e = 0 := by omega
    subst this
    have : q < 2 ^ 23 := by omega
    rw [Nat.zero_mul, Nat.zero_add, magOf, if_pos (Nat.div_eq_of_lt this), Nat.mod_eq_of_lt this, Nat.pow_zero, Nat.mul_one]
  · by_cases hc : q = 2 ^ 24
    · subst hc
      have h1 : (e * 2 ^ 23 + 2 ^ 24) / 2 ^ 23 = e + 2 := by omega
      have h2 : (e * 2 ^ 23 + 2 ^ 24) % 2 ^ 23 = 0 := by omega
      rw [magOf, h1, h2, if_neg (by omega)]
      rw [show e + 2 - 1 = e + 1 from rfl, Nat.pow_succ]; ring
    · have h1 : (e * 2 ^ 23 + q) / 2 ^ 23 = e + 1 := by omega
      have h2 : 2 ^ 23 + (e * 2 ^ 23 + q) % 2 ^ 23 = q := by omega
      rw [magOf, h1, h2, if_neg (by omega), show e + 1 - 1 = e from rfl]

/-- Every magnitude of the format is a significand at an exponent. -/
theorem exists_canonical (n : Nat) : ∃ e q, n = e * 2 ^ 23 + q ∧ q < 2 ^ 24 ∧ (e = 0 ∨ 2 ^ 23 ≤ q) := by
  by_cases h : n < 2 ^ 24
  · exact ⟨0, n, by omega, h, .inl rfl⟩
  · exact ⟨n / 2 ^ 23 - 1, n - (n / 2 ^ 23 - 1) * 2 ^ 23, by omega, by omega, by omega⟩

theorem magOf_lt_succ (n : Nat) : magOf n < magOf (n + 1) := by
  obtain ⟨e, q, rfl, hq, he⟩ := exists_canonical n
  rw [magOf_canonical (by omega) he, show e * 2 ^ 23 + q + 1 = e * 2 ^ 23 + (q + 1) by ring,
    magOf_canonical (by omega) (by omega)]
  exact Nat.mul_lt_mul_of_pos_right (by omega) (Nat.two_pow_pos e)

/-- The bits 30:0 order the magnitudes. -/
theorem magOf_strictMono : StrictMono magOf := strictMono_nat_of_lt_succ magOf_lt_succ

theorem magOf_le_iff {m n : Nat} : magOf m ≤ magOf n ↔ m ≤ n := magOf_strictMono.le_iff_le

theorem magOf_inj {m n : Nat} : magOf m = magOf n ↔ m = n := magOf_strictMono.injective.eq_iff

@[simp] theorem magOf_zero : magOf 0 = 0 := by simp [magOf]

theorem scale_pos : 0 < scale := Nat.two_pow_pos 149

/-- The first magnitude past the finite ones, `2^128` (R83(b)). -/
theorem magOf_infinity : magOf (255 * 2 ^ 23) = 2 ^ 128 * scale := by
  rw [show 255 * 2 ^ 23 = 254 * 2 ^ 23 + 2 ^ 23 by norm_num, magOf_canonical (by norm_num) (.inr le_rfl), scale]
  rw [← Nat.pow_add, ← Nat.pow_add]

/-- The largest finite magnitude, `MAXF` (R81). -/
theorem magOf_maxf : magOf (255 * 2 ^ 23 - 1) = (2 ^ 128 - 2 ^ 104) * scale := by
  rw [show 255 * 2 ^ 23 - 1 = 253 * 2 ^ 23 + (2 ^ 24 - 1) by norm_num, magOf_canonical (by norm_num) (by norm_num), scale]
  rw [show (2 ^ 128 - 2 ^ 104 : Nat) = (2 ^ 24 - 1) * 2 ^ 104 by norm_num, Nat.mul_assoc, ← Nat.pow_add]

/-! ### Rounding -/

theorem roundHalfEven_cases (n d : Nat) : roundHalfEven n d = n / d ∨ roundHalfEven n d = n / d + 1 := by
  unfold roundHalfEven; split <;> simp

/-- The rounded quotient is within half a unit. -/
theorem roundHalfEven_error {n d : Nat} (hd : 0 < d) :
    2 * n ≤ 2 * (roundHalfEven n d * d) + d ∧ 2 * (roundHalfEven n d * d) ≤ 2 * n + d := by
  have h := Nat.div_add_mod n d
  have h2 := Nat.mod_lt n hd
  have hc : n / d * d = d * (n / d) := Nat.mul_comm _ _
  unfold roundHalfEven
  split
  · rename_i hcond
    rw [Nat.add_mul, Nat.one_mul]; omega
  · rename_i hcond
    simp only [not_or, not_lt, not_and] at hcond
    omega

/-- On a tie the even neighbour is taken. -/
theorem roundHalfEven_tie {n d : Nat} (ht : 2 * (n % d) = d) : roundHalfEven n d % 2 = 0 := by
  unfold roundHalfEven
  split
  · rename_i hcond; omega
  · rename_i hcond; simp only [not_or, not_and] at hcond; have := hcond.2 ht; omega

/-- A whole quotient is not changed. -/
theorem roundHalfEven_mul {q d : Nat} (hd : 0 < d) : roundHalfEven (q * d) d = q := by
  unfold roundHalfEven
  rw [Nat.mul_mod_left, Nat.mul_div_cancel _ hd, if_neg (by omega)]

theorem roundHalfEven_scale (n d c : Nat) (hc : 0 < c) : roundHalfEven (n * c) (d * c) = roundHalfEven n d := by
  unfold roundHalfEven
  rw [Nat.mul_mod_mul_right, Nat.mul_div_mul_right _ _ hc]
  have h1 : (d * c < 2 * (n % d * c)) ↔ (d < 2 * (n % d)) := by
    rw [show 2 * (n % d * c) = 2 * (n % d) * c by ring]; exact Nat.mul_lt_mul_right hc
  have h2 : (2 * (n % d * c) = d * c) ↔ (2 * (n % d) = d) := by
    rw [show 2 * (n % d * c) = 2 * (n % d) * c by ring]; exact Nat.mul_right_cancel_iff hc
  simp only [h1, h2]

theorem roundMag_scale (n d c : Nat) (hc : 0 < c) : roundMag (n * c) (d * c) = roundMag n d := by
  have h1 : (overflowAt * (d * c) ≤ n * c) ↔ (overflowAt * d ≤ n) := by
    rw [← Nat.mul_assoc]; exact Nat.mul_le_mul_right_iff hc
  have h2 : roundExp (n * c) (d * c) = roundExp n d := by
    unfold roundExp; rw [Nat.mul_div_mul_right _ _ hc]
  unfold roundMag
  simp only [h1, h2]
  rw [show d * c * 2 ^ roundExp n d = d * 2 ^ roundExp n d * c by ring, roundHalfEven_scale _ _ _ hc]

/-- Where the significand lies: below `2^24` spacings, and from `2^23` spacings on once the exponent is not 0. -/
theorem roundExp_bounds {n d : Nat} (hd : 0 < d) :
    n < 2 ^ 24 * (d * 2 ^ roundExp n d) ∧ (roundExp n d = 0 ∨ 2 ^ 23 * (d * 2 ^ roundExp n d) ≤ n) := by
  by_cases h0 : n / d = 0
  · have : n < d := (Nat.div_eq_zero_iff.mp h0).resolve_left (by omega)
    have he : roundExp n d = 0 := by simp [roundExp, h0]
    rw [he]; exact ⟨by simp; omega, .inl rfl⟩
  · have hl : 2 ^ Nat.log2 (n / d) ≤ n / d := Nat.log2_self_le h0
    have hu : n / d < 2 ^ (Nat.log2 (n / d) + 1) := Nat.lt_log2_self
    have key : n < d * 2 ^ (Nat.log2 (n / d) + 1) := by
      rw [Nat.mul_comm]; exact (Nat.div_lt_iff_lt_mul hd).mp hu
    have key2 : d * 2 ^ Nat.log2 (n / d) ≤ n := by
      rw [Nat.mul_comm]; exact (Nat.le_div_iff_mul_le hd).mp hl
    unfold roundExp
    by_cases hs : Nat.log2 (n / d) ≤ 23
    · have he : Nat.log2 (n / d) - 23 = 0 := by omega
      rw [he]
      refine ⟨lt_of_lt_of_le key ?_, .inl rfl⟩
      rw [Nat.pow_zero, Nat.mul_one, Nat.mul_comm]
      exact Nat.mul_le_mul_right d (Nat.pow_le_pow_right (by norm_num) (by omega))
    · have e1 : Nat.log2 (n / d) + 1 = 24 + (Nat.log2 (n / d) - 23) := by omega
      have e2 : Nat.log2 (n / d) = 23 + (Nat.log2 (n / d) - 23) := by omega
      refine ⟨?_, .inr ?_⟩
      · rw [e1, Nat.pow_add] at key; calc
          n < d * (2 ^ 24 * 2 ^ (Nat.log2 (n / d) - 23)) := key
          _ = _ := by ring
      · rw [e2, Nat.pow_add] at key2; calc
          2 ^ 23 * (d * 2 ^ (Nat.log2 (n / d) - 23)) = d * (2 ^ 23 * 2 ^ (Nat.log2 (n / d) - 23)) := by ring
          _ ≤ n := key2

/-- The rounded significand stays a significand, a carry to `2^24` included. -/
theorem roundSig_bounds {n d : Nat} (hd : 0 < d) :
    roundHalfEven n (d * 2 ^ roundExp n d) ≤ 2 ^ 24 ∧
      (roundExp n d = 0 ∨ 2 ^ 23 ≤ roundHalfEven n (d * 2 ^ roundExp n d)) := by
  obtain ⟨h1, h2⟩ := roundExp_bounds (n := n) hd
  have hD : 0 < d * 2 ^ roundExp n d := Nat.mul_pos hd (Nat.two_pow_pos _)
  have hq : n / (d * 2 ^ roundExp n d) < 2 ^ 24 := (Nat.div_lt_iff_lt_mul hD).mpr h1
  have hc := roundHalfEven_cases n (d * 2 ^ roundExp n d)
  refine ⟨by omega, h2.imp_right fun h => ?_⟩
  have : 2 ^ 23 ≤ n / (d * 2 ^ roundExp n d) := (Nat.le_div_iff_mul_le hD).mpr h
  omega

/-- Below the overflow threshold the result stands for the rounded significand at its exponent. -/
theorem magOf_roundMag {n d : Nat} (hd : 0 < d) (h : n < overflowAt * d) :
    magOf (roundMag n d) = roundHalfEven n (d * 2 ^ roundExp n d) * 2 ^ roundExp n d := by
  rw [roundMag, if_neg (by omega), magOf_canonical (roundSig_bounds hd).1 (roundSig_bounds hd).2]

theorem roundMag_of_overflow {n d : Nat} (h : overflowAt * d ≤ n) : roundMag n d = 255 * 2 ^ 23 := by
  rw [roundMag, if_pos h]

end Sys2Proof.Machine.F32
end

