-- ==== Sys2Proof/Laws/Rounding.lean ====
section
/-! SUPPORT. What rounding does, said once (R83): the result is a nearest value of the format, ties go to the even one, values
of the format are kept, and rounding is monotone. Everything here is about magnitudes: `n / d` in units of `2^-149`. -/

namespace Sys2Proof.Machine.F32

theorem roundExp_lt {n d : Nat} (hd : 0 < d) (h : n < overflowAt * d) : roundExp n d < 254 := by
  rcases (roundExp_bounds (n := n) hd).2 with h0 | h0
  · omega
  · by_contra hc
    have h1 : 2 ^ 254 ≤ 2 ^ roundExp n d := Nat.pow_le_pow_right (by norm_num) (by omega)
    have h2 : 2 ^ 23 * (d * 2 ^ 254) ≤ 2 ^ 23 * (d * 2 ^ roundExp n d) :=
      Nat.mul_le_mul_left _ (Nat.mul_le_mul_left _ h1)
    have h3 : overflowAt * d ≤ 2 ^ 23 * (d * 2 ^ 254) := by
      rw [show 2 ^ 23 * (d * 2 ^ 254) = (2 ^ 23 * 2 ^ 254) * d by ring]
      exact Nat.mul_le_mul_right d (by norm_num [overflowAt, scale])
    omega

/-- Below the threshold the result is finite (R83(c)). -/
theorem roundMag_finite {n d : Nat} (hd : 0 < d) (h : n < overflowAt * d) : roundMag n d < 255 * 2 ^ 23 := by
  have he := roundExp_lt hd h
  have hq := (roundSig_bounds (n := n) hd).1
  rw [roundMag, if_neg (by omega)]
  by_contra hc
  have hq' : roundHalfEven n (d * 2 ^ roundExp n d) = 2 ^ 24 ∧ roundExp n d = 253 := by omega
  have herr := (roundHalfEven_error (n := n) (Nat.mul_pos hd (Nat.two_pow_pos (roundExp n d)))).2
  rw [hq'.1, hq'.2] at herr
  have : overflowAt * d = 2 * (2 ^ 24 * (2 ^ 252 * d)) - 2 ^ 252 * d := by
    rw [show overflowAt = 2 * (2 ^ 24 * 2 ^ 252) - 2 ^ 252 by norm_num [overflowAt, scale], Nat.sub_mul]
    ring_nf
  rw [show 2 * (2 ^ 24 * (d * 2 ^ 253)) = 4 * (2 ^ 24 * (2 ^ 252 * d)) by ring,
    show d * 2 ^ 253 = 2 * (2 ^ 252 * d) by ring] at herr
  omega

theorem roundMag_finite_iff {n d : Nat} (hd : 0 < d) : roundMag n d < 255 * 2 ^ 23 ↔ n < overflowAt * d := by
  refine ⟨fun h => ?_, roundMag_finite hd⟩
  by_contra hc
  rw [roundMag_of_overflow (by omega)] at h
  omega

theorem roundMag_le (n d : Nat) (hd : 0 < d) : roundMag n d ≤ 255 * 2 ^ 23 := by
  by_cases h : n < overflowAt * d
  · exact (roundMag_finite hd h).le
  · rw [roundMag_of_overflow (by omega)]

theorem roundMag_lt_pack (n d : Nat) (hd : 0 < d) : roundMag n d < 2 ^ 31 :=
  lt_of_le_of_lt (roundMag_le n d hd) (by norm_num)

/-- Among the multiples of the spacing the rounded significand is nearest, and it is even where another one is as near. -/
theorem roundHalfEven_nearest {n D : Nat} (hD : 0 < D) (c : Nat) :
    |(n : Int) - (roundHalfEven n D * D : Nat)| ≤ |(n : Int) - (c * D : Nat)| ∧
      (|(n : Int) - (roundHalfEven n D * D : Nat)| = |(n : Int) - (c * D : Nat)| → c ≠ roundHalfEven n D →
        roundHalfEven n D % 2 = 0) := by
  obtain ⟨h1, h2⟩ := roundHalfEven_error (n := n) hD
  by_cases hc : c = roundHalfEven n D
  · subst hc; exact ⟨le_rfl, fun _ h => absurd rfl h⟩
  · have hsep : c * D + D ≤ roundHalfEven n D * D ∨ roundHalfEven n D * D + D ≤ c * D := by
      rcases Nat.lt_or_gt_of_ne hc with h | h
      · left; calc c * D + D = (c + 1) * D := by ring
          _ ≤ _ := Nat.mul_le_mul_right D h
      · right; calc roundHalfEven n D * D + D = (roundHalfEven n D + 1) * D := by ring
          _ ≤ _ := Nat.mul_le_mul_right D h
    have hdm := Nat.div_add_mod n D
    have hm := Nat.mod_lt n hD
    have hcases : roundHalfEven n D * D = D * (n / D) ∨ roundHalfEven n D * D = D * (n / D) + D := by
      rcases roundHalfEven_cases n D with h | h <;> rw [h]
      · left; ring
      · right; ring
    generalize hA : roundHalfEven n D * D = A at *
    generalize hC : c * D = C at *
    constructor
    · rcases abs_cases ((n : Int) - (A : Nat)) with ⟨e1, _⟩ | ⟨e1, _⟩ <;>
        rcases abs_cases ((n : Int) - (C : Nat)) with ⟨e2, _⟩ | ⟨e2, _⟩ <;> omega
    · intro heq _
      apply roundHalfEven_tie
      rcases abs_cases ((n : Int) - (A : Nat)) with ⟨e1, _⟩ | ⟨e1, _⟩ <;>
        rcases abs_cases ((n : Int) - (C : Nat)) with ⟨e2, _⟩ | ⟨e2, _⟩ <;> omega

/-- A magnitude of the format is a whole number of the spacings at `e`, or it lies below the significands there. -/
theorem magOf_multiple_or_small (b e : Nat) : (∃ c, magOf b = c * 2 ^ e) ∨ (0 < e ∧ magOf b < 2 ^ 23 * 2 ^ e) := by
  obtain ⟨e', q, rfl, hq, he⟩ := exists_canonical b
  rw [magOf_canonical (by omega) he]
  by_cases h : e ≤ e'
  · left
    refine ⟨q * 2 ^ (e' - e), ?_⟩
    rw [Nat.mul_assoc, ← Nat.pow_add]; congr 2; omega
  · right
    refine ⟨by omega, ?_⟩
    calc q * 2 ^ e' < 2 ^ 24 * 2 ^ e' := Nat.mul_lt_mul_of_pos_right hq (Nat.two_pow_pos _)
      _ = 2 ^ 23 * 2 ^ (e' + 1) := by ring
      _ ≤ 2 ^ 23 * 2 ^ e := Nat.mul_le_mul_left _ (Nat.pow_le_pow_right (by norm_num) (by omega))

/-- R83(b) below the overflow threshold: no magnitude of the format is nearer than the result, and the result is even where
another one is as near. -/
theorem roundMag_nearest_of_lt {n d : Nat} (hd : 0 < d) (h : n < overflowAt * d) (b : Nat) :
    |(n : Int) - (magOf (roundMag n d) * d : Nat)| ≤ |(n : Int) - (magOf b * d : Nat)| ∧
      (|(n : Int) - (magOf (roundMag n d) * d : Nat)| = |(n : Int) - (magOf b * d : Nat)| → b ≠ roundMag n d →
        roundMag n d % 2 = 0) := by
  have hD : 0 < d * 2 ^ roundExp n d := Nat.mul_pos hd (Nat.two_pow_pos _)
  have hr : magOf (roundMag n d) * d = roundHalfEven n (d * 2 ^ roundExp n d) * (d * 2 ^ roundExp n d) := by
    rw [magOf_roundMag hd h]; ring
  have hpar : roundHalfEven n (d * 2 ^ roundExp n d) % 2 = 0 → roundMag n d % 2 = 0 := by
    intro hq; rw [roundMag, if_neg (by omega)]; omega
  rcases magOf_multiple_or_small b (roundExp n d) with ⟨c, hc⟩ | ⟨hpos, hsmall⟩
  · have hb : magOf b * d = c * (d * 2 ^ roundExp n d) := by rw [hc]; ring
    rw [hr, hb]
    obtain ⟨h1, h2⟩ := roundHalfEven_nearest (n := n) hD c
    refine ⟨h1, fun heq hne => hpar (h2 heq fun hcq => hne ?_)⟩
    rw [hcq] at hc
    exact magOf_inj.mp (by rw [hc, magOf_roundMag hd h])
  · have hlow := ((roundExp_bounds (n := n) hd).2).resolve_left (by omega)
    have hmul : magOf b * d < 2 ^ 23 * (d * 2 ^ roundExp n d) := by
      calc magOf b * d < 2 ^ 23 * 2 ^ roundExp n d * d := Nat.mul_lt_mul_of_pos_right hsmall hd
        _ = _ := by ring
    have h1 := (roundHalfEven_nearest (n := n) hD (2 ^ 23)).1
    rw [hr]
    have e1 : |(n : Int) - (2 ^ 23 * (d * 2 ^ roundExp n d) : Nat)| = (n : Int) - (2 ^ 23 * (d * 2 ^ roundExp n d) : Nat) :=
      abs_of_nonneg (by omega)
    have e2 : |(n : Int) - (magOf b * d : Nat)| = (n : Int) - (magOf b * d : Nat) := abs_of_nonneg (by omega)
    rw [e1] at h1
    rw [e2]
    exact ⟨by omega, fun heq => absurd heq (by omega)⟩

/-- R83(b) with the extended set of R83: up to `2^128`, no magnitude is nearer than the result. -/
theorem roundMag_nearest {n d : Nat} (hd : 0 < d) {b : Nat} (hb : b ≤ 255 * 2 ^ 23) :
    |(n : Int) - (magOf (roundMag n d) * d : Nat)| ≤ |(n : Int) - (magOf b * d : Nat)| := by
  by_cases h : n < overflowAt * d
  · exact (roundMag_nearest_of_lt hd h b).1
  · rw [roundMag_of_overflow (by omega), magOf_infinity]
    rcases Nat.lt_or_ge b (255 * 2 ^ 23) with hlt | hge
    · have hm : magOf b * d ≤ (2 ^ 128 - 2 ^ 104) * scale * d := by
        rw [← magOf_maxf]; exact Nat.mul_le_mul_right d (magOf_le_iff.mpr (by omega))
      have e1 : (2 ^ 128 - 2 ^ 104) * scale * d = 2 ^ 128 * scale * d - 2 * (2 ^ 103 * scale * d) := by
        rw [Nat.sub_mul, Nat.sub_mul]; congr 1; ring
      have e2 : overflowAt * d = 2 ^ 128 * scale * d - 2 ^ 103 * scale * d := by
        rw [overflowAt, Nat.sub_mul, Nat.sub_mul]
      have e3 : 4 * (2 ^ 103 * scale * d) ≤ 2 ^ 128 * scale * d := by
        rw [show 4 * (2 ^ 103 * scale * d) = 2 ^ 105 * (scale * d) by ring, Nat.mul_assoc]
        exact Nat.mul_le_mul_right _ (by norm_num)
      have e4 : |(n : Int) - (magOf b * d : Nat)| = (n : Int) - (magOf b * d : Nat) := abs_of_nonneg (by omega)
      rw [e4, abs_le]; omega
    · rw [show b = 255 * 2 ^ 23 by omega, magOf_infinity]

/-- R83(a): a magnitude of the format is kept. -/
theorem roundMag_exact {n d b : Nat} (hd : 0 < d) (hb : b ≤ 255 * 2 ^ 23) (h : magOf b * d = n) : roundMag n d = b := by
  have := roundMag_nearest (n := n) hd hb
  rw [h, sub_self, abs_zero, abs_nonpos_iff, sub_eq_zero] at this
  have h2 : magOf (roundMag n d) * d = magOf b * d := by rw [h]; exact_mod_cast this.symm
  exact magOf_inj.mp (Nat.eq_of_mul_eq_mul_right hd h2)

theorem roundMag_magOf {b : Nat} (hb : b ≤ 255 * 2 ^ 23) : roundMag (magOf b) 1 = b :=
  roundMag_exact Nat.one_pos hb (Nat.mul_one _)

@[simp] theorem roundMag_zero {d : Nat} (hd : 0 < d) : roundMag 0 d = 0 := roundMag_exact hd (by omega) (by simp)

/-- Rounding depends on the ratio alone. -/
theorem roundMag_congr {n d n' d' : Nat} (hd : 0 < d) (hd' : 0 < d') (h : n * d' = n' * d) :
    roundMag n d = roundMag n' d' := by
  rw [← roundMag_scale n d d' hd', ← roundMag_scale n' d' d hd, h, Nat.mul_comm d d']

/-- Rounding is monotone (R83). -/
theorem roundMag_mono {n d n' d' : Nat} (hd : 0 < d) (hd' : 0 < d') (h : n * d' ≤ n' * d) :
    roundMag n d ≤ roundMag n' d' := by
  rw [← roundMag_scale n d d' hd', ← roundMag_scale n' d' d hd, Nat.mul_comm d' d]
  have hD : 0 < d * d' := Nat.mul_pos hd hd'
  by_contra hc
  have hlt : roundMag (n' * d) (d * d') < roundMag (n * d') (d * d') := by omega
  have h1 := roundMag_nearest (n := n * d') hD (roundMag_le (n' * d) _ hD)
  have h2 := roundMag_nearest (n := n' * d) hD (roundMag_le (n * d') _ hD)
  have h3 : magOf (roundMag (n' * d) (d * d')) * (d * d') < magOf (roundMag (n * d') (d * d')) * (d * d') :=
    Nat.mul_lt_mul_of_pos_right (magOf_strictMono hlt) hD
  have heq : n * d' = n' * d := by
    rcases abs_cases (((n * d' : Nat) : Int) - (magOf (roundMag (n * d') (d * d')) * (d * d') : Nat)) with ⟨e1, _⟩ | ⟨e1, _⟩ <;>
    rcases abs_cases (((n * d' : Nat) : Int) - (magOf (roundMag (n' * d) (d * d')) * (d * d') : Nat)) with ⟨e2, _⟩ | ⟨e2, _⟩ <;>
    rcases abs_cases (((n' * d : Nat) : Int) - (magOf (roundMag (n * d') (d * d')) * (d * d') : Nat)) with ⟨e3, _⟩ | ⟨e3, _⟩ <;>
    rcases abs_cases (((n' * d : Nat) : Int) - (magOf (roundMag (n' * d) (d * d')) * (d * d') : Nat)) with ⟨e4, _⟩ | ⟨e4, _⟩ <;>
    omega
  rw [heq] at hlt
  exact lt_irrefl _ hlt

/-- A significand of at most 24 bits at any exponent is a magnitude of the format (infinities and beyond aside). -/
theorem exists_magOf {q : Nat} (hq : q ≤ 2 ^ 24) (e : Nat) : ∃ b, magOf b = q * 2 ^ e := by
  induction e generalizing q with
  | zero => exact ⟨0 * 2 ^ 23 + q, magOf_canonical hq (.inl rfl)⟩
  | succ e ih =>
    by_cases h : 2 ^ 23 ≤ q
    · exact ⟨(e + 1) * 2 ^ 23 + q, magOf_canonical hq (.inr h)⟩
    · obtain ⟨b, hb⟩ := ih (q := 2 * q) (by omega)
      exact ⟨b, by rw [hb]; ring⟩

/-- The same, with the result known to be finite. -/
theorem exists_finite_magOf {q : Nat} (hq : q ≤ 2 ^ 24) (e : Nat) (h : q * 2 ^ e < 2 ^ 128 * scale) :
    ∃ b, b < 255 * 2 ^ 23 ∧ magOf b = q * 2 ^ e := by
  obtain ⟨b, hb⟩ := exists_magOf hq e
  refine ⟨b, ?_, hb⟩
  rw [← magOf_strictMono.lt_iff_lt, hb, magOf_infinity]; exact h

end Sys2Proof.Machine.F32
end

