-- ==== Sys2Proof/Laws/Arith.lean ====
section
/-! SUPPORT. One lemma per operation of the number format, saying what it answers (R84 to R88, R96 to R98). Values are held as
integer counts of `2^-149` (`scaled`). -/

namespace Sys2Proof.Machine.F32

/-! ### Values of words -/

theorem scaled_eq (w : Word) : scaled w = if signBit w then -(magOf (low w) : Int) else (magOf (low w) : Int) := by
  rw [scaled, mag_eq_magOf]

theorem natAbs_scaled (w : Word) : (scaled w).natAbs = mag w := by
  unfold scaled; split <;> simp

theorem scaled_pack (neg : Bool) {n : Nat} (h : n < 2 ^ 31) :
    scaled (pack neg n) = if neg then -(magOf n : Int) else (magOf n : Int) := by
  rw [scaled_eq, signBit_pack neg h, low_pack neg h]

theorem isFinite_pack (neg : Bool) {n : Nat} (h : n < 2 ^ 31) : isFinite (pack neg n) = true ↔ n < 255 * 2 ^ 23 := by
  rw [isFinite_iff_low, low_pack neg h]

@[simp] theorem scaled_zero (neg : Bool) : scaled (zero neg) = 0 := by
  rw [zero, scaled_pack neg (by norm_num)]; simp

@[simp] theorem isFinite_zero (neg : Bool) : isFinite (zero neg) = true := (isFinite_pack neg (by norm_num)).mpr (by norm_num)

theorem mag_le_of_isFinite {w : Word} (h : isFinite w = true) : mag w ≤ (2 ^ 128 - 2 ^ 104) * scale := by
  rw [isFinite_iff_low] at h
  rw [mag_eq_magOf, ← magOf_maxf]; exact magOf_le_iff.mpr (by omega)

theorem isZero_iff_low (w : Word) : isZero w = true ↔ low w = 0 := by
  simp only [isZero, low, Bool.and_eq_true, beq_iff_eq]; omega

theorem isZero_iff_mag (w : Word) : isZero w = true ↔ mag w = 0 := by
  rw [isZero_iff_low, mag_eq_magOf, ← magOf_inj, magOf_zero]

theorem isZero_iff_scaled (w : Word) : isZero w = true ↔ scaled w = 0 := by
  rw [isZero_iff_mag, ← natAbs_scaled, Int.natAbs_eq_zero]

theorem eq_zero_of_isZero {w : Word} (h : isZero w = true) : w = zero (signBit w) := by
  conv_lhs => rw [← pack_low w, (isZero_iff_low w).mp h]
  rfl

/-- A finite word is a significand below `2^24` at an exponent. -/
theorem exists_sig (w : Word) : ∃ e q, mag w = q * 2 ^ e ∧ q < 2 ^ 24 := by
  obtain ⟨e, q, h, hq, he⟩ := exists_canonical (low w)
  exact ⟨e, q, by rw [mag_eq_magOf, h, magOf_canonical (by omega) he], hq⟩

theorem not_isNaN_of_isFinite {w : Word} (h : isFinite w = true) : isNaN w = false := by
  simp only [isFinite, bne_iff_ne] at h; simp [isNaN, h]

theorem not_isInf_of_isFinite {w : Word} (h : isFinite w = true) : isInf w = false := by
  simp only [isFinite, bne_iff_ne] at h; simp [isInf, h]

/-- Every word is finite, an infinity or a NaN (R81). -/
theorem class_cases (w : Word) : isFinite w = true ∨ isInf w = true ∨ isNaN w = true := by
  simp only [isFinite, isInf, isNaN, bne_iff_ne, Bool.and_eq_true, beq_iff_eq]; omega

/-- Words of one sign and one value are one word. -/
theorem eq_of_scaled {a b : Word} (h : scaled a = scaled b) (hs : signBit a = signBit b) : a = b := by
  have hl : low a = low b := by
    rw [scaled_eq, scaled_eq, hs] at h
    apply magOf_inj.mp
    split at h <;> omega
  rw [← pack_low a, ← pack_low b, hs, hl]

theorem scaled_nonneg_of_signBit {w : Word} (h : signBit w = false) : scaled w = mag w := by simp [scaled, h]

theorem signBit_eq_of_scaled_pos {w : Word} (h : 0 < scaled w) : signBit w = false := by
  by_contra hc
  rw [scaled, if_pos (by simpa using hc)] at h; omega

theorem signBit_eq_of_scaled_neg {w : Word} (h : scaled w < 0) : signBit w = true := by
  by_contra hc
  rw [scaled, if_neg hc] at h; omega

/-! ### Rounded words -/

theorem scaled_round (neg : Bool) {n d : Nat} (hd : 0 < d) :
    scaled (round neg n d) = if neg then -(magOf (roundMag n d) : Int) else (magOf (roundMag n d) : Int) :=
  scaled_pack neg (roundMag_lt_pack n d hd)

theorem signBit_round (neg : Bool) {n d : Nat} (hd : 0 < d) : signBit (round neg n d) = neg :=
  signBit_pack neg (roundMag_lt_pack n d hd)

theorem mag_round (neg : Bool) {n d : Nat} (hd : 0 < d) : mag (round neg n d) = magOf (roundMag n d) :=
  mag_pack neg (roundMag_lt_pack n d hd)

theorem isFinite_round (neg : Bool) {n d : Nat} (hd : 0 < d) : isFinite (round neg n d) = true ↔ n < overflowAt * d := by
  rw [round, isFinite_pack neg (roundMag_lt_pack n d hd), roundMag_finite_iff hd]

/-- A finite word is what its own value rounds to (R83(a)). -/
theorem round_self {w : Word} (h : isFinite w = true) : round (signBit w) (mag w) 1 = w := by
  rw [isFinite_iff_low] at h
  rw [round, mag_eq_magOf, roundMag_magOf (by omega), pack_low]

theorem round_zero (neg : Bool) {d : Nat} (hd : 0 < d) : round neg 0 d = zero neg := by rw [round, roundMag_zero hd, zero]

/-! ### Operations -/

@[simp] theorem signBit_neg (w : Word) : signBit (neg w) = !signBit w := by
  simp [signBit, neg]

@[simp] theorem expField_neg (w : Word) : expField (neg w) = expField w := by
  have : (neg w).extractLsb' 23 8 = w.extractLsb' 23 8 := by
    rw [neg]; ext i hi; simp; interval_cases i <;> simp
  simp only [expField, this]

@[simp] theorem fracField_neg (w : Word) : fracField (neg w) = fracField w := by
  have : (neg w).extractLsb' 0 23 = w.extractLsb' 0 23 := by
    rw [neg]; ext i hi; simp; interval_cases i <;> simp
  simp only [fracField, this]

@[simp] theorem isFinite_neg (w : Word) : isFinite (neg w) = isFinite w := by simp [isFinite]
@[simp] theorem isZero_neg (w : Word) : isZero (neg w) = isZero w := by simp [isZero]
@[simp] theorem mag_neg (w : Word) : mag (neg w) = mag w := by simp [mag]
@[simp] theorem scaled_neg (w : Word) : scaled (neg w) = -scaled w := by
  simp only [scaled, signBit_neg, mag_neg]; cases signBit w <;> simp

theorem fadd_of_finite {a b : Word} (ha : isFinite a = true) (hb : isFinite b = true) : fadd a b = addFinite a b := by
  simp [fadd, not_isNaN_of_isFinite ha, not_isNaN_of_isFinite hb, not_isInf_of_isFinite ha, not_isInf_of_isFinite hb]

theorem fmul_of_finite {a b : Word} (ha : isFinite a = true) (hb : isFinite b = true) :
    fmul a b = round (signBit a != signBit b) (mag a * mag b) scale := by
  simp [fmul, not_isNaN_of_isFinite ha, not_isNaN_of_isFinite hb, not_isInf_of_isFinite ha, not_isInf_of_isFinite hb]

theorem fdiv_of_finite {a b : Word} (ha : isFinite a = true) (hb : isFinite b = true) (h0 : isZero b = false) :
    fdiv a b = round (signBit a != signBit b) (mag a * scale) (mag b) := by
  simp [fdiv, not_isNaN_of_isFinite ha, not_isNaN_of_isFinite hb, not_isInf_of_isFinite ha, not_isInf_of_isFinite hb, h0]

/-- A sum below the overflow threshold is finite. -/
theorem isFinite_addFinite {a b : Word} (h : (scaled a + scaled b).natAbs < overflowAt) : isFinite (addFinite a b) = true := by
  unfold addFinite; split
  · exact isFinite_zero _
  · exact (isFinite_round _ Nat.one_pos).mpr (by omega)

/-- An exact sum that is a value of the format is not rounded (R84). -/
theorem scaled_addFinite_exact {a b : Word} {n : Nat} (hn : n ≤ 255 * 2 ^ 23)
    (h : magOf n = (scaled a + scaled b).natAbs) : scaled (addFinite a b) = scaled a + scaled b := by
  unfold addFinite; split
  · rename_i h0; rw [scaled_zero, h0]
  · rw [scaled_round _ Nat.one_pos, ← h, roundMag_magOf hn, h]
    by_cases hneg : scaled a + scaled b < 0
    · simp only [hneg, decide_true, if_true]; omega
    · simp only [hneg, decide_false, Bool.false_eq_true, if_false]; omega

/-- `fadd(z, x) = x` bit for bit for a zero `z` and a finite `x` that is not a zero (R84). -/
theorem fadd_zero_left {z x : Word} (hz : isZero z = true) (hx : isFinite x = true) (h0 : isZero x = false) :
    fadd z x = x := by
  have hzf : isFinite z = true := by rw [eq_zero_of_isZero hz]; exact isFinite_zero _
  have hz0 : scaled z = 0 := (isZero_iff_scaled z).mp hz
  have hx0 : scaled x ≠ 0 := fun h => by rw [(isZero_iff_scaled x).mpr h] at h0; exact absurd h0 (by simp)
  rw [fadd_of_finite hzf hx, addFinite, hz0, Int.zero_add, if_neg hx0, natAbs_scaled]
  conv_rhs => rw [← round_self hx]
  congr 1
  rcases lt_or_gt_of_ne hx0 with h | h
  · simp [h, signBit_eq_of_scaled_neg h]
  · simp [not_lt.mpr h.le, signBit_eq_of_scaled_pos h]

theorem addFinite_comm (a b : Word) : addFinite a b = addFinite b a := by
  unfold addFinite; rw [Int.add_comm, Bool.and_comm]

theorem fadd_zero_right {z x : Word} (hz : isZero z = true) (hx : isFinite x = true) (h0 : isZero x = false) :
    fadd x z = x := by
  have hzf : isFinite z = true := by rw [eq_zero_of_isZero hz]; exact isFinite_zero _
  rw [fadd_of_finite hx hzf, addFinite_comm, ← fadd_of_finite hzf hx, fadd_zero_left hz hx h0]

/-- The sum of two zeros is `-0` only for two `-0` (R84). -/
theorem fadd_zeros {a b : Word} (ha : isZero a = true) (hb : isZero b = true) :
    fadd a b = zero (signBit a && signBit b) := by
  have haf : isFinite a = true := by rw [eq_zero_of_isZero ha]; exact isFinite_zero _
  have hbf : isFinite b = true := by rw [eq_zero_of_isZero hb]; exact isFinite_zero _
  rw [fadd_of_finite haf hbf, addFinite, (isZero_iff_scaled a).mp ha, (isZero_iff_scaled b).mp hb]; simp

/-- Of a number that has a value at `q * 2^e`, the whole part counted in units is a value too. -/
theorem exists_magOf_mul_scale {k : Nat} (hk : k ≤ 2 ^ 24) : ∃ n, n < 255 * 2 ^ 23 ∧ magOf n = k * scale := by
  refine exists_finite_magOf hk 149 ?_
  exact lt_of_le_of_lt (Nat.mul_le_mul_right scale hk) (Nat.mul_lt_mul_of_pos_right (by norm_num) scale_pos)

/-- `of_nat` is exact up to `2^24` (R86). -/
theorem scaled_ofNat {k : Nat} (hk : k ≤ 2 ^ 24) : scaled (ofNat k) = (k * scale : Nat) := by
  obtain ⟨n, hn, h⟩ := exists_magOf_mul_scale hk
  rw [ofNat, scaled_round _ Nat.one_pos, ← h, roundMag_magOf hn.le]; simp

theorem isFinite_ofNat {k : Nat} (hk : k < 2 ^ 32) : isFinite (ofNat k) = true := by
  rw [ofNat, isFinite_round _ Nat.one_pos, overflowAt, Nat.mul_one]
  exact Nat.mul_lt_mul_of_pos_right (lt_of_lt_of_le hk (by norm_num)) scale_pos

/-- `ffloor` and `to_index` of a finite word that is not negative and lies below `2^24` (R87). -/
theorem scaled_ffloor {a : Word} (ha : isFinite a = true) (h0 : 0 ≤ scaled a) (hlt : scaled a < ((2 ^ 24 * scale : Nat) : Int)) :
    scaled (ffloor a) = scaled a / (scale : Int) * (scale : Int) := by
  have hs : (0 : Int) < scale := by exact_mod_cast scale_pos
  have hq0 : 0 ≤ scaled a / (scale : Int) := Int.ediv_nonneg h0 hs.le
  have hq : scaled a / (scale : Int) < 2 ^ 24 := Int.ediv_lt_of_lt_mul hs (by push_cast at hlt ⊢; exact hlt)
  obtain ⟨n, hn, h⟩ := exists_magOf_mul_scale (k := (scaled a / (scale : Int)).natAbs) (by omega)
  have key : ((scaled a / (scale : Int)).natAbs : Int) = scaled a / (scale : Int) := Int.natAbs_of_nonneg hq0
  simp only [ffloor, not_isNaN_of_isFinite ha, not_isInf_of_isFinite ha, Bool.false_eq_true, if_false]
  rw [scaled_round _ Nat.one_pos, ← h, roundMag_magOf hn.le, h]
  by_cases hsb : signBit a = true
  · have hz : scaled a = 0 := by
      have : scaled a = -(mag a : Int) := by simp [scaled, hsb]
      omega
    simp [hz]
  · simp only [hsb]; push_cast; rw [abs_of_nonneg hq0]

theorem isFinite_ffloor {a : Word} (ha : isFinite a = true) (h0 : 0 ≤ scaled a) (hlt : scaled a < ((2 ^ 24 * scale : Nat) : Int)) :
    isFinite (ffloor a) = true := by
  have hs : (0 : Int) < scale := by exact_mod_cast scale_pos
  have hq0 : 0 ≤ scaled a / (scale : Int) := Int.ediv_nonneg h0 hs.le
  have hq : scaled a / (scale : Int) < 2 ^ 24 := Int.ediv_lt_of_lt_mul hs (by push_cast at hlt ⊢; exact hlt)
  simp only [ffloor, not_isNaN_of_isFinite ha, not_isInf_of_isFinite ha, Bool.false_eq_true, if_false]
  rw [isFinite_round _ Nat.one_pos, overflowAt, Nat.mul_one]
  exact Nat.mul_lt_mul_of_pos_right (lt_of_lt_of_le (show _ < 2 ^ 24 by omega) (by norm_num)) scale_pos

theorem toIndex_ffloor {a : Word} (ha : isFinite a = true) (h0 : 0 ≤ scaled a)
    (hlt : scaled a < ((2 ^ 24 * scale : Nat) : Int)) : toIndex (ffloor a) = (scaled a / (scale : Int)).toNat := by
  have hs : (scale : Int) ≠ 0 := by exact_mod_cast scale_pos.ne'
  rw [toIndex, scaled_ffloor ha h0 hlt, Int.mul_ediv_cancel _ hs]

/-- Reducing a significand modulo a whole number of units leaves a value of the format: `q * 2^e` modulo `M * 2^149` for
`M <= 2^24` (the fact behind R91 and R97(c)). -/
theorem exists_magOf_mod {q : Nat} (hq : q < 2 ^ 24) (e : Nat) {M : Nat} (hM0 : 0 < M) (hM : M ≤ 2 ^ 24) :
    ∃ n, n < 255 * 2 ^ 23 ∧ magOf n = q * 2 ^ e % (M * scale) := by
  have hlt : q * 2 ^ e % (M * scale) < 2 ^ 128 * scale :=
    lt_of_lt_of_le (Nat.mod_lt _ (Nat.mul_pos hM0 scale_pos)) (Nat.mul_le_mul_right _ (le_trans hM (by norm_num)))
  by_cases he : 149 ≤ e
  · have h1 : q * 2 ^ e % (M * scale) = q * 2 ^ (e - 149) % M * 2 ^ 149 := by
      rw [← Nat.mul_mod_mul_right, Nat.mul_assoc, ← Nat.pow_add, show e - 149 + 149 = e by omega]; rfl
    rw [h1] at hlt ⊢
    exact exists_finite_magOf (le_trans (Nat.mod_lt _ hM0).le hM) 149 hlt
  · have h1 : M * scale = M * 2 ^ (149 - e) * 2 ^ e := by
      rw [scale, Nat.mul_assoc, ← Nat.pow_add, show 149 - e + e = 149 by omega]
    rw [h1, Nat.mul_mod_mul_right] at hlt ⊢
    exact exists_finite_magOf (le_trans (Nat.mod_le _ _) hq.le) e hlt

/-- The fraction `t = fsub(a, ffloor(a))` is exact (R91). -/
theorem scaled_fsub_ffloor {a : Word} (ha : isFinite a = true) (h0 : 0 ≤ scaled a)
    (hlt : scaled a < ((2 ^ 24 * scale : Nat) : Int)) : scaled (fsub a (ffloor a)) = scaled a % (scale : Int) := by
  have hfl := scaled_ffloor ha h0 hlt
  have hsum : scaled a + scaled (neg (ffloor a)) = scaled a % (scale : Int) := by
    rw [scaled_neg, hfl, Int.emod_def]; ring
  obtain ⟨e, q, hm, hq⟩ := exists_sig a
  obtain ⟨n, hn, h⟩ := exists_magOf_mod hq e Nat.one_pos (by norm_num)
  have hmag : ((mag a : Nat) : Int) = scaled a := by rw [← natAbs_scaled]; exact Int.natAbs_of_nonneg h0
  rw [fsub, fadd_of_finite ha (by rw [isFinite_neg]; exact isFinite_ffloor ha h0 hlt)]
  rw [scaled_addFinite_exact hn.le (by rw [h, hsum, ← hm, Nat.one_mul, ← hmag]; norm_cast), hsum]

/-! ### WRAP -/

theorem wrapExact_cast (L : Nat) (s : Word) (hL : 0 < L) : (wrapExact L s : Int) = scaled s % ((L * scale : Nat) : Int) := by
  have hp : ((L * scale : Nat) : Int) ≠ 0 := by exact_mod_cast (Nat.mul_pos hL scale_pos).ne'
  rw [wrapExact, Int.toNat_of_nonneg (Int.emod_nonneg _ hp)]

theorem wrapExact_lt (L : Nat) (s : Word) (hL : 0 < L) : wrapExact L s < L * scale := by
  have hp : (0 : Int) < ((L * scale : Nat) : Int) := by exact_mod_cast Nat.mul_pos hL scale_pos
  have := Int.emod_lt_of_pos (scaled s) hp
  rw [← wrapExact_cast L s hL] at this
  exact_mod_cast this

/-- What `WRAP` rounds to never passes `L` (R96). -/
theorem magOf_roundMag_wrapExact_le {L : Nat} (hL : 0 < L) (hL2 : L ≤ 2 ^ 24) (s : Word) :
    magOf (roundMag (wrapExact L s) 1) ≤ L * scale := by
  obtain ⟨n, hn, h⟩ := exists_magOf_mul_scale hL2
  rw [← h, magOf_le_iff, ← roundMag_magOf hn.le, h]
  exact roundMag_mono Nat.one_pos Nat.one_pos (by have := wrapExact_lt L s hL; omega)

/-- R97(a): `WRAP` of a finite word is finite, in `[0, L)`, with sign bit 0. -/
theorem wrap_spec {L : Nat} (hL : 0 < L) (hL2 : L ≤ 2 ^ 24) {s : Word} (hs : isFinite s = true) :
    isFinite (wrap L s) = true ∧ signBit (wrap L s) = false ∧ mag (wrap L s) < L * scale := by
  have hpos := Nat.mul_pos hL scale_pos
  have hle := magOf_roundMag_wrapExact_le hL hL2 s
  have hlt := wrapExact_lt L s hL
  unfold wrap
  rw [if_pos hs, mag_round _ Nat.one_pos]
  split
  · refine ⟨isFinite_zero _, ?_, ?_⟩
    · rw [zero, signBit_pack _ (by norm_num)]
    · rw [zero, mag_pack _ (by norm_num), magOf_zero]; exact hpos
  · rename_i hne
    refine ⟨?_, signBit_round _ Nat.one_pos, ?_⟩
    · rw [isFinite_round _ Nat.one_pos, overflowAt, Nat.mul_one]
      exact lt_of_lt_of_le hlt (Nat.mul_le_mul_right _ (le_trans hL2 (by norm_num)))
    · rw [mag_round _ Nat.one_pos]; omega

/-- Where the exact modulo is a value of the format, `WRAP` is that value (R97(b), (c)). -/
theorem scaled_wrap_exact {L : Nat} (hL : 0 < L) {s : Word} (hs : isFinite s = true) {n : Nat} (hn : n ≤ 255 * 2 ^ 23)
    (h : magOf n = wrapExact L s) : scaled (wrap L s) = scaled s % ((L * scale : Nat) : Int) := by
  have hlt := wrapExact_lt L s hL
  unfold wrap
  rw [if_pos hs, mag_round _ Nat.one_pos, ← h, roundMag_magOf hn, h, if_neg hlt.ne, scaled_round _ Nat.one_pos, ← h,
    roundMag_magOf hn, h, ← wrapExact_cast L s hL]
  simp

/-- R97(c): `WRAP` of a word that is not negative is exact. -/
theorem scaled_wrap_of_nonneg {L : Nat} (hL : 0 < L) (hL2 : L ≤ 2 ^ 24) {s : Word} (hs : isFinite s = true) (h0 : 0 ≤ scaled s) :
    scaled (wrap L s) = scaled s % ((L * scale : Nat) : Int) := by
  obtain ⟨e, q, hm, hq⟩ := exists_sig s
  obtain ⟨n, hn, h⟩ := exists_magOf_mod hq e hL hL2
  refine scaled_wrap_exact hL hs hn.le ?_
  have hmag : ((mag s : Nat) : Int) = scaled s := by rw [← natAbs_scaled]; exact Int.natAbs_of_nonneg h0
  have := wrapExact_cast L s hL
  rw [h, ← hm]
  rw [← hmag] at this
  exact_mod_cast this.symm

/-- R97(b): `WRAP` keeps a word in `[0, L)` with sign bit 0, bit for bit. -/
theorem wrap_of_inRange {L : Nat} (hL : 0 < L) (hL2 : L ≤ 2 ^ 24) {s : Word} (hs : isFinite s = true) (hb : signBit s = false)
    (hlt : scaled s < ((L * scale : Nat) : Int)) : wrap L s = s := by
  have h0 : 0 ≤ scaled s := by rw [scaled_nonneg_of_signBit hb]; omega
  refine eq_of_scaled ?_ (by rw [(wrap_spec hL hL2 hs).2.1, hb])
  rw [scaled_wrap_of_nonneg hL hL2 hs h0, Int.emod_eq_of_lt h0 hlt]

/-- The sum of a phase and a finite increment is finite (R98). -/
theorem isFinite_fadd_phase {p i : Word} (hp : isFinite p = true) (hlt : mag p < 2 ^ 24 * scale) (hi : isFinite i = true) :
    isFinite (fadd p i) = true := by
  rw [fadd_of_finite hp hi]
  apply isFinite_addFinite
  have h1 := mag_le_of_isFinite hi
  have h2 : (scaled p + scaled i).natAbs ≤ mag p + mag i := by
    rw [← natAbs_scaled p, ← natAbs_scaled i]; exact Int.natAbs_add_le _ _
  have h3 : 2 ^ 24 * scale + (2 ^ 128 - 2 ^ 104) * scale ≤ overflowAt := by
    rw [← Nat.add_mul, overflowAt]; exact Nat.mul_le_mul_right _ (by norm_num)
  omega

end Sys2Proof.Machine.F32
end

