-- ==== Sys2Proof/Laws/State.lean ====
section
/-! SUPPORT. One lemma per field per update of `State`, so that no proof unfolds a record update. -/

namespace Sys2Proof.Machine.State

variable (s : State) (v d : Word) (q : List HostInput) (st : Status)

@[simp] theorem setPhase_cfg : (s.setPhase v).cfg = s.cfg := rfl
@[simp] theorem setPhase_phase : (s.setPhase v).phase = v := rfl
@[simp] theorem setPhase_inc : (s.setPhase v).inc = s.inc := rfl
@[simp] theorem setPhase_inbox : (s.setPhase v).inbox = s.inbox := rfl
@[simp] theorem setPhase_rsps : (s.setPhase v).rsps = s.rsps := rfl

@[simp] theorem setInc_cfg : (s.setInc v).cfg = s.cfg := rfl
@[simp] theorem setInc_phase : (s.setInc v).phase = s.phase := rfl
@[simp] theorem setInc_inc : (s.setInc v).inc = v := rfl
@[simp] theorem setInc_inbox : (s.setInc v).inbox = s.inbox := rfl
@[simp] theorem setInc_rsps : (s.setInc v).rsps = s.rsps := rfl

@[simp] theorem setInbox_cfg : (s.setInbox q).cfg = s.cfg := rfl
@[simp] theorem setInbox_phase : (s.setInbox q).phase = s.phase := rfl
@[simp] theorem setInbox_inc : (s.setInbox q).inc = s.inc := rfl
@[simp] theorem setInbox_inbox : (s.setInbox q).inbox = q := rfl
@[simp] theorem setInbox_rsps : (s.setInbox q).rsps = s.rsps := rfl

@[simp] theorem respond_cfg : (s.respond st d).cfg = s.cfg := rfl
@[simp] theorem respond_phase : (s.respond st d).phase = s.phase := rfl
@[simp] theorem respond_inc : (s.respond st d).inc = s.inc := rfl
@[simp] theorem respond_inbox : (s.respond st d).inbox = s.inbox := rfl
@[simp] theorem respond_rsps : (s.respond st d).rsps = s.rsps ++ [{ status := st, data := d }] := rfl

@[simp] theorem applyReset_cfg : s.applyReset.cfg = s.cfg := rfl
@[simp] theorem applyReset_phase : s.applyReset.phase = 0x00000000#32 := rfl
@[simp] theorem applyReset_inc : s.applyReset.inc = 0x00000000#32 := rfl
@[simp] theorem applyReset_inbox : s.applyReset.inbox = s.inbox := rfl
@[simp] theorem applyReset_rsps : s.applyReset.rsps = s.rsps := rfl

@[simp] theorem resetOf_cfg (c : Cfg) (h : c.wf = true) : (State.resetOf c h).cfg = c := rfl
@[simp] theorem resetOf_phase (c : Cfg) (h : c.wf = true) : (State.resetOf c h).phase = 0x00000000#32 := rfl
@[simp] theorem resetOf_inc (c : Cfg) (h : c.wf = true) : (State.resetOf c h).inc = 0x00000000#32 := rfl
@[simp] theorem resetOf_inbox (c : Cfg) (h : c.wf = true) : (State.resetOf c h).inbox = [] := rfl
@[simp] theorem resetOf_rsps (c : Cfg) (h : c.wf = true) : (State.resetOf c h).rsps = [] := rfl

end Sys2Proof.Machine.State
end

