-- ==== Sys2Proof/Laws/Memory.lean ====
section
/-! SUPPORT. The table memory: which reads exist (R45), that the four taps of a pull always do (R43, R44), and that the
canonical form is kept, since nothing writes the table (R41). -/

namespace Sys2Proof.Machine

@[simp] theorem memRead_eq {α : Type} (t : List α) (i : Nat) : memRead t i = t[i]? := rfl

/-- A read answers exactly at the indices that exist (R45). -/
theorem memRead_isSome {α : Type} (t : List α) (i : Nat) : (memRead t i).isSome ↔ i < t.length := by simp

/-- The indices of R43 are in range (R44). -/
theorem tapIndex_lt {L : Nat} (hL : 0 < L) (k : Nat) (d : Int) : tapIndex L k d < L := by
  have h1 : (0 : Int) < L := by exact_mod_cast hL
  have h2 := Int.emod_lt_of_pos ((k : Int) + d) h1
  have h3 := Int.emod_nonneg ((k : Int) + d) h1.ne'
  rw [tapIndex]; omega

/-- The four words of a pull exist (R44): gathering answers them. -/
theorem gather_eq_some {α : Type} {t : List α} (ht : 0 < t.length) (k : Nat) :
    ∃ y : Taps α, gather t k = some y ∧
      t[tapIndex t.length k (-1)]? = some y.y0 ∧ t[tapIndex t.length k 0]? = some y.y1 ∧
      t[tapIndex t.length k 1]? = some y.y2 ∧ t[tapIndex t.length k 2]? = some y.y3 := by
  have h (d : Int) := List.getElem?_eq_getElem (tapIndex_lt ht k d)
  refine ⟨⟨t[tapIndex t.length k (-1)]'(tapIndex_lt ht k _), t[tapIndex t.length k 0]'(tapIndex_lt ht k _),
    t[tapIndex t.length k 1]'(tapIndex_lt ht k _), t[tapIndex t.length k 2]'(tapIndex_lt ht k _)⟩, ?_, h _, h _, h _, h _⟩
  simp only [gather, memRead_eq, h]

/-- The sample at a phase always exists on a table that has a word. -/
theorem sampleAt_eq_some {α : Type} (N : Num α) {t : List α} (ht : 0 < t.length) (p : α) :
    ∃ y : Taps α, gather t (splitIndex N p) = some y ∧ sampleAt N t p = some (interp N y (splitFrac N p)) := by
  obtain ⟨y, hy, -⟩ := gather_eq_some ht (splitIndex N p)
  exact ⟨y, hy, by rw [sampleAt, hy]⟩

/-- R7 unpacked. -/
theorem Memory.wf_iff (t : Memory) :
    Memory.wf t = true ↔ 4 ≤ t.length ∧ t.length ≤ 2 ^ 24 ∧ ∀ w ∈ t, F32.isFinite w = true := by
  simp [Memory.wf, and_assoc]

/-- The memory of a configuration that is an instance has the canonical form. -/
theorem Cfg.memory_wf {c : Cfg} (h : c.wf = true) : Memory.wf c.table = true := by
  simp only [Cfg.wf, Bool.and_eq_true] at h; exact h.1.1

/-- `State.reset`'s memory has the canonical form. -/
theorem reset_memory_wf : Memory.wf State.reset.cfg.table = true := by decide

end Sys2Proof.Machine
end

