-- ==== Sys2Proof/Laws/Ops.lean ====
section
/-! SUPPORT. What the shared operations and the four meanings do, said once: when they refuse, what they answer on a legal
state, and that the registers stay legal (R12, R23, R120, R110, R140, R144). -/

namespace Sys2Proof.Machine

open F32

/-! ### Legal states -/

theorem legal_iff (s : State) : s.legal = true ↔ s.cfg.wf = true ∧ phaseOk s.cfg.table.length s.phase = true ∧ isFinite s.inc = true := by
  simp only [State.legal, State.regsOk, State.tableLen, incOk, Bool.and_eq_true]

theorem phaseOk_iff (L : Nat) (p : Word) :
    phaseOk L p = true ↔ isFinite p = true ∧ 0 ≤ scaled p ∧ scaled p < ((L * scale : Nat) : Int) ∧ p ≠ 0x80000000#32 := by
  simp only [phaseOk, Bool.and_eq_true, decide_eq_true_eq, and_assoc]

theorem cfg_bounds {c : Cfg} (h : c.wf = true) : 4 ≤ c.table.length ∧ c.table.length ≤ 2 ^ 24 := by
  have := (Memory.wf_iff _).mp (Cfg.memory_wf h); exact ⟨this.1, this.2.1⟩

theorem val_nonneg_iff (w : Word) : 0 ≤ val w ↔ 0 ≤ scaled w := by
  have : (0 : Rat) < scale := by exact_mod_cast scale_pos
  rw [val, le_div_iff₀ this]; simp

theorem val_lt_nat_iff (w : Word) (L : Nat) : val w < (L : Rat) ↔ scaled w < ((L * scale : Nat) : Int) := by
  have : (0 : Rat) < scale := by exact_mod_cast scale_pos
  rw [val, div_lt_iff₀ this]; exact_mod_cast Iff.rfl

/-- The guard of every command is the invariant of R23 on an instance of R12. -/
theorem legal_iff_inv (s : State) : s.legal = true ↔ s.Inv := by
  rw [legal_iff, phaseOk_iff, ← val_nonneg_iff, ← val_lt_nat_iff]
  exact ⟨fun ⟨h1, ⟨h2, h3, h4, h5⟩, h6⟩ => ⟨h1, h2, h3, h4, h5, h6⟩, fun h => ⟨h.1, ⟨h.2, h.3, h.4, h.5⟩, h.6⟩⟩

/-- A word with sign bit 0 is not `-0.0`. -/
theorem ne_negZero_of_signBit {w : Word} (h : signBit w = false) : w ≠ 0x80000000#32 := by
  rintro rfl; exact absurd h (by decide)

/-- A legal phase has sign bit 0 (R23(a)). -/
theorem signBit_of_phaseOk {L : Nat} {p : Word} (h : phaseOk L p = true) : signBit p = false := by
  obtain ⟨-, h0, -, hne⟩ := (phaseOk_iff L p).mp h
  by_contra hs
  have hs : signBit p = true := by simpa using hs
  have hz : scaled p = 0 := by
    have : scaled p = -(mag p : Int) := by simp [scaled, hs]
    omega
  apply hne
  rw [eq_zero_of_isZero ((isZero_iff_scaled p).mpr hz), hs]; decide

/-! ### The guards -/

theorem onInstance_of_wf {σ : Type} {s : State} (h : s.cfg.wf = true) (r : Host.Outcome σ Fault Refusal) : onInstance s r = r := by simp [onInstance, h]

theorem onInstance_of_not_wf {σ : Type} {s : State} (h : s.cfg.wf = false) (r : Host.Outcome σ Fault Refusal) : onInstance s r = .refused .notAnInstance := by
  simp [onInstance, h]

theorem onLegal_of_legal {σ : Type} {s : State} (h : s.legal = true) (r : Host.Outcome σ Fault Refusal) : onLegal s r = r := by
  simp only [State.legal, Bool.and_eq_true] at h; simp [onLegal, onInstance, h.1, h.2]

theorem onLegal_of_not_wf {σ : Type} {s : State} (h : s.cfg.wf = false) (r : Host.Outcome σ Fault Refusal) : onLegal s r = .refused .notAnInstance :=
  onInstance_of_not_wf h _

theorem onLegal_of_not_regsOk {σ : Type} {s : State} (h : s.cfg.wf = true) (h2 : s.regsOk = false) (r : Host.Outcome σ Fault Refusal) :
    onLegal s r = .refused .notReset := by simp [onLegal, onInstance, h, h2]

/-- On any other state a command refuses, for one of the two reasons of R164. -/
theorem onLegal_of_not_legal {σ : Type} {s : State} (h : s.legal = false) (r : Host.Outcome σ Fault Refusal) :
    onLegal s r = .refused (if s.cfg.wf then .notReset else .notAnInstance) := by
  cases hw : s.cfg.wf
  · simp [onLegal_of_not_wf hw r]
  · rw [onLegal_of_not_regsOk hw (by simpa [State.legal, hw] using h) r]; simp

/-- Building answers the reset state of an instance and refuses every other configuration (R12). -/
theorem build_of_wf {c : Cfg} (h : c.wf = true) : State.build c = .next (State.resetOf c h) := by simp [State.build, h]

theorem build_of_not_wf {c : Cfg} (h : c.wf = false) : State.build c = .refused .notAnInstance := by simp [State.build, h]

/-- RESET on an instance (R180). -/
theorem execReset_of_wf {s : State} (h : s.cfg.wf = true) : execReset s = .next s.applyReset := onInstance_of_wf h _

/-! ### The registers stay legal -/

/-- ADVANCE gives a legal phase (R98, R23(a)). -/
theorem phaseOk_advance {L : Nat} (hL : 0 < L) (hL2 : L ≤ 2 ^ 24) {p i : Word} (hp : phaseOk L p = true) (hi : isFinite i = true) :
    phaseOk L (advance binary32 L p i) = true := by
  obtain ⟨hf, h0, hlt, -⟩ := (phaseOk_iff L p).mp hp
  have hm : mag p < 2 ^ 24 * scale := by
    have h1 : mag p < L * scale := by rw [← natAbs_scaled]; omega
    exact lt_of_lt_of_le h1 (Nat.mul_le_mul_right _ hL2)
  obtain ⟨w1, w2, w3⟩ := wrap_spec hL hL2 (isFinite_fadd_phase hf hm hi)
  have e : advance binary32 L p i = wrap L (fadd p i) := rfl
  rw [e, phaseOk_iff, scaled_nonneg_of_signBit w2]
  exact ⟨w1, by omega, by exact_mod_cast w3, ne_negZero_of_signBit w2⟩

theorem phaseOk_zero {L : Nat} (hL : 0 < L) : phaseOk L 0x00000000#32 = true := by
  have h0 : scaled 0x00000000#32 = 0 := by decide
  rw [phaseOk_iff, h0]
  exact ⟨by decide, le_rfl, by exact_mod_cast Nat.mul_pos hL scale_pos, by decide⟩

/-! ### The meanings on a legal state -/

/-- GET_SAMPLE on a legal state: it answers the sample and advances the phase (R120). -/
theorem execGetSample_of_legal {s : State} (h : s.legal = true) :
    ∃ y : Taps Word, gather s.cfg.table (splitIndex binary32 s.phase) = some y ∧
      execGetSample s = .next ((s.setPhase (advance binary32 s.cfg.table.length s.phase s.inc)).respond .ok
        (interp binary32 y (splitFrac binary32 s.phase))) := by
  have hL := (cfg_bounds ((legal_iff s).mp h).1).1
  obtain ⟨y, hy, hs⟩ := sampleAt_eq_some binary32 (t := s.cfg.table) (by omega) s.phase
  exact ⟨y, hy, by rw [execGetSample, onLegal_of_legal h, getSampleRule, hs]⟩

/-- SET_FREQUENCY on a legal state (R110). -/
theorem execSetFrequency_of_legal {s : State} (h : s.legal = true) (f : Word) :
    execSetFrequency f s =
      if isFinite (increment binary32 s.cfg.table.length (Cfg.rate s.cfg) f) then
        .next ((s.setInc (increment binary32 s.cfg.table.length (Cfg.rate s.cfg) f)).respond .ok 0x00000000#32)
      else .next (s.respond .badFrequency 0x00000000#32) := by
  rw [execSetFrequency, onLegal_of_legal h, setFrequencyRule, State.tableLen]
  by_cases hf : isFinite (increment binary32 s.cfg.table.length (Cfg.rate s.cfg) f) = true
  · have : binary32.isFinite (increment binary32 s.cfg.table.length (Cfg.rate s.cfg) f) = true := hf
    simp only [this, hf, if_true]
  · have hf := Bool.eq_false_iff.mpr hf
    have : binary32.isFinite (increment binary32 s.cfg.table.length (Cfg.rate s.cfg) f) = false := hf
    simp [this, hf, raiseError]

/-- GET_INFO on a legal state (R140). -/
theorem execGetInfo_of_legal {s : State} (h : s.legal = true) (sel : Selector) :
    execGetInfo sel s = .next (s.respond (infoResponse s.cfg sel).status (infoResponse s.cfg sel).data) := by
  rw [execGetInfo, onLegal_of_legal h]

/-- The reserved opcode on a legal state (R144). -/
theorem execReserved_of_legal {s : State} (h : s.legal = true) :
    execReserved s = .next (s.respond .illegalCommand 0x00000000#32) := by
  rw [execReserved, onLegal_of_legal h, raiseError]

/-- On a state that is not legal every command refuses. -/
theorem exec_of_not_legal {s : State} (h : s.legal = false) (i : Instr) :
    exec i s = .refused (if s.cfg.wf then .notReset else .notAnInstance) := by
  cases i with
  | getSample => exact onLegal_of_not_legal h _
  | setFrequency f => exact onLegal_of_not_legal h _
  | getInfo sel => exact onLegal_of_not_legal h _
  | reserved => exact onLegal_of_not_legal h _

theorem legal_of_exec_next {i : Instr} {s s' : State} (h : exec i s = .next s') : s.legal = true := by
  by_contra hl
  rw [exec_of_not_legal (by simpa using hl)] at h; cases h

/-- What one command can do when it goes on: it answers once, and it changes the phase (GET_SAMPLE alone) or the increment
(SET_FREQUENCY alone, to a finite word), or no register. -/
theorem exec_next_cases {i : Instr} {s s' : State} (h : exec i s = .next s') :
    (i = .getSample ∧ ∃ out, s' = (s.setPhase (advance binary32 s.cfg.table.length s.phase s.inc)).respond .ok out) ∨
    (∃ f v, i = .setFrequency f ∧ isFinite v = true ∧ s' = (s.setInc v).respond .ok 0x00000000#32) ∨
    (i ≠ .getSample ∧ ∃ st d, s' = s.respond st d) := by
  have hl := legal_of_exec_next h
  cases i with
  | getSample =>
    obtain ⟨y, -, hy⟩ := execGetSample_of_legal hl
    exact .inl ⟨rfl, _, (Host.Outcome.next.inj (hy.symm.trans h)).symm⟩
  | setFrequency f =>
    have heq := (execSetFrequency_of_legal hl f).symm.trans h
    split at heq
    · rename_i hf; exact .inr (.inl ⟨f, _, rfl, hf, (Host.Outcome.next.inj heq).symm⟩)
    · exact .inr (.inr ⟨by simp, _, _, (Host.Outcome.next.inj heq).symm⟩)
  | getInfo sel =>
    exact .inr (.inr ⟨by simp, _, _, (Host.Outcome.next.inj ((execGetInfo_of_legal hl sel).symm.trans h)).symm⟩)
  | reserved =>
    exact .inr (.inr ⟨by simp, _, _, (Host.Outcome.next.inj ((execReserved_of_legal hl).symm.trans h)).symm⟩)

/-- On a legal state every command goes on. -/
theorem exec_next_of_legal {s : State} (h : s.legal = true) (i : Instr) : ∃ s', exec i s = .next s' := by
  cases i with
  | getSample => obtain ⟨y, -, hy⟩ := execGetSample_of_legal h; exact ⟨_, hy⟩
  | setFrequency f =>
    have hf := execSetFrequency_of_legal h f
    split at hf <;> exact ⟨_, hf⟩
  | getInfo sel => exact ⟨_, execGetInfo_of_legal h sel⟩
  | reserved => exact ⟨_, execReserved_of_legal h⟩

/-- Every command keeps a legal state legal (the table's canonical form among it). -/
theorem exec_keeps_legal {i : Instr} {s s' : State} (h : exec i s = .next s') : s'.legal = true := by
  obtain ⟨hw, hp, hi⟩ := (legal_iff s).mp (legal_of_exec_next h)
  obtain ⟨hL, hL2⟩ := cfg_bounds hw
  rw [legal_iff]
  rcases exec_next_cases h with ⟨-, out, rfl⟩ | ⟨f, v, -, hv, rfl⟩ | ⟨-, st, d, rfl⟩
  · exact ⟨hw, by simpa using phaseOk_advance (by omega) hL2 hp hi, hi⟩
  · exact ⟨hw, hp, hv⟩
  · exact ⟨hw, hp, hi⟩

end Sys2Proof.Machine
end

