-- ==== Sys2Proof/Laws/Denotes.lean ====
section
/-! SUPPORT. What a word denotes (R81), and that an operation whose exact result is a value of the format gives that value
(R83(a), R84): the facts behind the agreement of the two instances (R89). -/

namespace Sys2Proof.Machine.F32

theorem scale_ne_zero : (scale : Rat) ≠ 0 := by exact_mod_cast scale_pos.ne'

/-- Values of words are compared through their counts of `2^-149`. -/
theorem val_eq_iff (w : Word) (q : Rat) : val w = q ↔ (scaled w : Rat) = q * (scale : Rat) := by
  rw [val, div_eq_iff scale_ne_zero]

theorem scaled_of_val_add {a b c : Word} (h : val c = val a + val b) : scaled c = scaled a + scaled b := by
  rw [val_eq_iff, add_mul, val, val, div_mul_cancel₀ _ scale_ne_zero, div_mul_cancel₀ _ scale_ne_zero] at h
  exact_mod_cast h

/-- A finite word's bits 30:0 lie below the infinity's. -/
theorem low_lt_of_isFinite {w : Word} (h : isFinite w = true) : low w < 255 * 2 ^ 23 := (isFinite_iff_low w).mp h

/-- An exact sum that is a value of the format is the result (R84). -/
theorem denotes_fadd {a b : Word} {x y : Rat} (ha : Denotes a x) (hb : Denotes b y) (h : IsValue (x + y)) :
    Denotes (fadd a b) (x + y) := by
  obtain ⟨c, hc, hv⟩ := h
  obtain ⟨ha, rfl⟩ := ha
  obtain ⟨hb, rfl⟩ := hb
  have hs := scaled_of_val_add hv
  have hm : mag c = (scaled a + scaled b).natAbs := by rw [← hs, natAbs_scaled]
  rw [fadd_of_finite ha hb]
  refine ⟨isFinite_addFinite ?_, ?_⟩
  · rw [← hm]
    exact lt_of_le_of_lt (mag_le_of_isFinite hc) (Nat.mul_lt_mul_of_pos_right (by norm_num) scale_pos)
  · rw [← hv, val, val, scaled_addFinite_exact (low_lt_of_isFinite hc).le (by rw [← mag_eq_magOf, hm]), hs]

theorem denotes_neg {a : Word} {x : Rat} (ha : Denotes a x) : Denotes (neg a) (-x) :=
  ⟨by rw [isFinite_neg]; exact ha.1, by rw [← ha.2, val, val, scaled_neg]; push_cast; ring⟩

/-- An exact difference that is a value of the format is the result (R84). -/
theorem denotes_fsub {a b : Word} {x y : Rat} (ha : Denotes a x) (hb : Denotes b y) (h : IsValue (x - y)) :
    Denotes (fsub a b) (x - y) := by
  rw [sub_eq_add_neg] at h ⊢; exact denotes_fadd ha (denotes_neg hb) h

/-- A rounded word whose magnitude is that of a finite word denotes that word's value, up to the sign. -/
theorem round_of_mag {c : Word} (hc : isFinite c = true) (neg : Bool) {n d : Nat} (hd : 0 < d) (h : mag c * d = n) :
    isFinite (round neg n d) = true ∧ scaled (round neg n d) = if neg then -(mag c : Int) else (mag c : Int) := by
  have hl := low_lt_of_isFinite hc
  have hr : roundMag n d = low c := roundMag_exact hd hl.le (by rw [← mag_eq_magOf, h])
  refine ⟨?_, by rw [scaled_round _ hd, hr, ← mag_eq_magOf]⟩
  rw [round, hr]; exact (isFinite_pack _ (by omega)).mpr hl

/-- The sign and the magnitude of a product of two values. -/
theorem scaled_mul (a b : Word) : scaled a * scaled b = if (signBit a != signBit b) then -((mag a * mag b : Nat) : Int) else ((mag a * mag b : Nat) : Int) := by
  rw [scaled, scaled]; cases signBit a <;> cases signBit b <;> simp

/-- An exact product that is a value of the format is the result (R84). -/
theorem denotes_fmul {a b : Word} {x y : Rat} (ha : Denotes a x) (hb : Denotes b y) (h : IsValue (x * y)) :
    Denotes (fmul a b) (x * y) := by
  obtain ⟨c, hc, hv⟩ := h
  obtain ⟨ha, rfl⟩ := ha
  obtain ⟨hb, rfl⟩ := hb
  have hs : scaled c * (scale : Int) = scaled a * scaled b := by
    rw [val, val, val, div_mul_div_comm, div_eq_div_iff scale_ne_zero (mul_ne_zero scale_ne_zero scale_ne_zero)] at hv
    have : (scaled c : Rat) * scale = scaled a * scaled b := mul_right_cancel₀ scale_ne_zero (by linear_combination hv)
    exact_mod_cast this
  have hm : mag c * scale = mag a * mag b := by
    have := congrArg Int.natAbs hs
    simpa [Int.natAbs_mul, natAbs_scaled] using this
  rw [fmul_of_finite ha hb]
  obtain ⟨h1, h2⟩ := round_of_mag hc (signBit a != signBit b) scale_pos hm
  refine ⟨h1, ?_⟩
  have hsc : scaled (round (signBit a != signBit b) (mag a * mag b) scale) * (scale : Int) = scaled a * scaled b := by
    rw [h2, scaled_mul, ← hm]; split <;> push_cast <;> ring
  have hp : (scale : Int) ≠ 0 := by exact_mod_cast scale_pos.ne'
  rw [← hv, val, val, mul_right_cancel₀ hp (hsc.trans hs.symm)]

/-- An exact quotient that is a value of the format is the result (R84). -/
theorem denotes_fdiv {a b : Word} {x y : Rat} (ha : Denotes a x) (hb : Denotes b y) (h0 : y ≠ 0) (h : IsValue (x / y)) :
    Denotes (fdiv a b) (x / y) := by
  obtain ⟨c, hc, hv⟩ := h
  obtain ⟨ha, rfl⟩ := ha
  obtain ⟨hb, rfl⟩ := hb
  have hb0 : scaled b ≠ 0 := by
    intro hz; apply h0; rw [val, hz]; simp
  have hz : isZero b = false := by
    by_contra hn; exact hb0 ((isZero_iff_scaled b).mp (by simpa using hn))
  have hs : scaled c * scaled b = scaled a * (scale : Int) := by
    have hvb : (scaled b : Rat) ≠ 0 := by exact_mod_cast hb0
    rw [val, val, val, div_div_div_cancel_right₀ scale_ne_zero, div_eq_div_iff scale_ne_zero hvb] at hv
    exact_mod_cast hv
  have hm : mag c * mag b = mag a * scale := by
    have := congrArg Int.natAbs hs
    simpa [Int.natAbs_mul, natAbs_scaled] using this
  have hbp : 0 < mag b := by rw [← natAbs_scaled]; omega
  rw [fdiv_of_finite ha hb hz]
  obtain ⟨h1, h2⟩ := round_of_mag hc (signBit a != signBit b) hbp hm
  refine ⟨h1, ?_⟩
  have hsc : scaled (round (signBit a != signBit b) (mag a * scale) (mag b)) * scaled b = scaled a * (scale : Int) := by
    have hmi : (mag c : Int) * mag b = mag a * scale := by exact_mod_cast hm
    rw [h2, scaled, scaled]
    cases signBit a <;> cases signBit b <;> simp <;> linear_combination hmi
  rw [← hv, val, val, mul_right_cancel₀ hb0 (hsc.trans hs.symm)]

/-- Dyadic numbers of at most 24 significant bits are values of the format (R81). -/
theorem isValue_dyadic {n : Int} {k : Nat} (hn : n.natAbs ≤ 2 ^ 24) (hk : k ≤ 149) : IsValue (n / 2 ^ k) := by
  obtain ⟨m, hm, h⟩ := exists_finite_magOf (q := n.natAbs) hn (149 - k)
    (lt_of_le_of_lt (Nat.mul_le_mul hn (Nat.pow_le_pow_right (by norm_num) (Nat.sub_le 149 k)))
      (by rw [scale]; exact Nat.mul_lt_mul_of_pos_right (by norm_num) (by positivity)))
  have hs : (scale : Rat) = 2 ^ (149 - k) * 2 ^ k := by
    rw [scale, ← pow_add, Nat.sub_add_cancel hk]; norm_num
  refine ⟨pack (decide (n < 0)) m, (isFinite_pack _ (by omega)).mpr hm, ?_⟩
  rw [val, scaled_pack _ (by omega), h, hs]
  have h2 : (2 : Rat) ^ (149 - k) ≠ 0 := by positivity
  by_cases hneg : n < 0
  · have hq : (n : Rat) < 0 := by exact_mod_cast hneg
    simp only [hneg, decide_true, if_true]; push_cast; rw [abs_of_neg hq]; field_simp
  · have hq : (0 : Rat) ≤ n := by exact_mod_cast not_lt.mp hneg
    simp only [hneg, decide_false, Bool.false_eq_true, if_false]; push_cast; rw [abs_of_nonneg hq]; field_simp

/-- The constants of R93 denote the exact instance's. -/
theorem denotes_lit (l : Lit) : Denotes (binary32.lit l) (exactNum.lit l) := by
  have key {w : Word} {q : Rat} (hf : isFinite w = true) (n : Int) (hn : scaled w = n * 2 ^ 148) (hq : q = n / 2) : Denotes w q :=
    ⟨hf, by rw [val_eq_iff, hn, hq, scale]; push_cast; ring⟩
  cases l
  · exact key (by decide) (-1) (by decide) (by norm_num [exactNum])
  · exact key (by decide) 1 (by decide) (by norm_num [exactNum])
  · exact key (by decide) 3 (by decide) (by norm_num [exactNum])
  · exact key (by decide) (-3) (by decide) (by norm_num [exactNum])
  · exact key (by decide) 5 (by decide) (by norm_num [exactNum])
  · exact key (by decide) 4 (by decide) (by norm_num [exactNum])
  · exact key (by decide) 2 (by decide) (by norm_num [exactNum])

/-- INTERP rounds nothing where every number of `interpSteps` is a value of the format (R89). -/
theorem denotes_interp {y : Taps Word} {z : Taps Rat} {t : Word} {u : Rat} (h0 : Denotes y.y0 z.y0) (h1 : Denotes y.y1 z.y1)
    (h2 : Denotes y.y2 z.y2) (h3 : Denotes y.y3 z.y3) (ht : Denotes t u) (h : ∀ q ∈ interpSteps exactNum z u, IsValue q) :
    Denotes (interp binary32 y t) (interp exactNum z u) := by
  simp only [interpSteps, List.cons_append, List.nil_append, List.mem_cons, List.not_mem_nil, or_false, forall_eq_or_imp,
    forall_eq] at h
  obtain ⟨v1, v2, v3, v4, v5, v6, v7, v8, v9, v10, v11, v12, v13, v14, v15, v16, v17, v18, v19, v20, v21, v22, v23, v24⟩ := h
  have t2 : Denotes (square binary32 t) (square exactNum u) := denotes_fmul ht ht v1
  have t3 : Denotes (cube binary32 t) (cube exactNum u) := denotes_fmul t2 ht v2
  have ht' := denotes_fmul (denotes_lit .half) ht v3
  have a0 := denotes_fsub (denotes_fadd (denotes_fmul (denotes_lit .negHalf) t3 v6) t2 v7) ht' v8
  have a1 := denotes_fadd (denotes_fsub (denotes_fmul (denotes_lit .threeHalves) t3 v9) (denotes_fmul (denotes_lit .fiveHalves) t2 v10) v11)
    (denotes_lit .one) v12
  have a2 := denotes_fadd (denotes_fadd (denotes_fmul (denotes_lit .negThreeHalves) t3 v13) (denotes_fmul (denotes_lit .two) t2 v14) v15) ht' v16
  have a3 := denotes_fsub (denotes_fmul (denotes_lit .half) t3 v4) (denotes_fmul (denotes_lit .half) t2 v5) v17
  have p0 := denotes_fmul a0 h0 v18
  have p1 := denotes_fmul a1 h1 v19
  have p2 := denotes_fmul a2 h2 v20
  have p3 := denotes_fmul a3 h3 v21
  exact denotes_fadd (denotes_fadd (denotes_fadd p0 p1 v22) p2 v23) p3 v24

end Sys2Proof.Machine.F32
end

