-- ==== Sys2Proof/Laws/Exact.lean ====
section
/-! SUPPORT. The exact instance (R89): its guard, its operations as the operations of the rationals, its taps. -/

namespace Sys2Proof.Machine

theorem exact_regsOk_iff (s : ExactState) : s.regsOk = true ↔ 0 ≤ s.phase ∧ s.phase < (s.cfg.table.length : Rat) := by
  simp only [ExactState.regsOk, Bool.and_eq_true, decide_eq_true_eq]

theorem onExactLegal_of_inv {α : Type} {s : ExactState} (h : s.Inv) (r : ExactResult α) : onExactLegal s r = r := by
  simp [onExactLegal, h.instanceOk, (exact_regsOk_iff s).mpr ⟨h.phaseNonneg, h.phaseBelow⟩]

theorem onExactLegal_of_not_wf {α : Type} {s : ExactState} (h : s.cfg.wf = false) (r : ExactResult α) :
    onExactLegal s r = .refused .notAnInstance := by simp [onExactLegal, h]

@[simp] theorem exactTable_length (c : Cfg) : (exactTable c).length = c.table.length := List.length_map ..

/-- WRAP with no rounding is the mathematical modulo (R89). -/
theorem exact_wrap (L : Nat) (s : Rat) : exactNum.wrap L s = s - (L : Rat) * (⌊s / (L : Rat)⌋ : Rat) := rfl

/-- SPLIT with no rounding (R89, R91). -/
theorem exact_splitIndex (p : Rat) : splitIndex exactNum p = ⌊p⌋.toNat := by
  show ⌊((⌊p⌋ : Int) : Rat)⌋.toNat = ⌊p⌋.toNat
  rw [Int.floor_intCast]

theorem exact_splitFrac (p : Rat) : splitFrac exactNum p = p - (⌊p⌋ : Rat) := rfl

/-- ADVANCE with no rounding stays in `[0, L)` (R89, R134). -/
theorem exact_advance_range {L : Nat} (hL : 0 < L) (p i : Rat) :
    0 ≤ advance exactNum L p i ∧ advance exactNum L p i < (L : Rat) := by
  have h : (0 : Rat) < L := by exact_mod_cast hL
  have e : advance exactNum L p i = (p + i) - (L : Rat) * (⌊(p + i) / (L : Rat)⌋ : Rat) := exact_wrap L _
  have h1 := Int.floor_le ((p + i) / (L : Rat))
  have h2 := Int.lt_floor_add_one ((p + i) / (L : Rat))
  rw [le_div_iff₀ h] at h1
  rw [div_lt_iff₀ h] at h2
  rw [e]; constructor <;> nlinarith

/-- GET_SAMPLE in the exact instance on a legal state: a sample of the table, and the phase advanced. -/
theorem exactGetSample_of_inv {s : ExactState} (h : s.Inv) :
    ∃ y : Taps Rat, gather (exactTable s.cfg) (splitIndex exactNum s.phase) = some y ∧
      exactGetSample s = .next ({ s with phase := advance exactNum s.cfg.table.length s.phase s.inc },
        .sample (interp exactNum y (splitFrac exactNum s.phase))) := by
  have hL := (cfg_bounds h.instanceOk).1
  obtain ⟨y, hy, hs⟩ := sampleAt_eq_some exactNum (t := exactTable s.cfg) (by simp; omega) s.phase
  exact ⟨y, hy, by rw [exactGetSample, onExactLegal_of_inv h, getSampleRule, hs]; simp⟩

end Sys2Proof.Machine
end

