-- ==== Sys2Proof/Laws/PerInstr.lean ====
section
/-! SUPPORT. Statements made per command, as syntax: the family OpField says that an encoded command carries its own opcode in
`cmd[33:32]` and its operand word in `cmd[31:0]` (R60, R61). -/

namespace Sys2Proof.Laws.OpField

/-- The fields of an encoded command. -/
def Statement (i : Instr) : Prop := opField (encode i) = opcodeOf i ∧ operandField (encode i) = operandOf i

theorem commandWord_fields (op : BitVec 2) (x : Word) : opField (commandWord op x) = op ∧ operandField (commandWord op x) = x := by
  have h : (op ++ x).toNat = op.toNat * 2 ^ 32 + x.toNat := by
    rw [BitVec.toNat_append, ← Nat.shiftLeft_add_eq_or_of_lt x.isLt, Nat.shiftLeft_eq]
  have h1 := op.isLt
  have h2 := x.isLt
  constructor <;> apply BitVec.eq_of_toNat_eq
  · rw [opField, commandWord, BitVec.extractLsb'_toNat, h, Nat.shiftRight_eq_div_pow]; omega
  · rw [operandField, commandWord, BitVec.extractLsb'_toNat, h, Nat.shiftRight_eq_div_pow]; omega

theorem getSample : Statement .getSample := commandWord_fields _ _
theorem setFrequency (f : Word) : Statement (.setFrequency f) := commandWord_fields _ _
theorem getInfo (sel : Selector) : Statement (.getInfo sel) := commandWord_fields _ _
theorem reserved : Statement .reserved := commandWord_fields _ _

end Sys2Proof.Laws.OpField
end

