-- ==== Sys2Proof/Laws/Port.lean ====
section
/-! SUPPORT. What a clock edge of the port can do (R71, R180, R182, R186), said once for each kind of edge. -/

namespace Sys2Proof.Machine

/-- `cmd_ready` is 0 while a command is in progress (R71). -/
theorem ready_of_busy {p : PortState} {b : InProgress} (h : p.busy = some b) : p.ready = false := by simp [PortState.ready, h]

/-- The block is ready where nothing is in progress and nothing is shown (R71). -/
theorem ready_of_idle {p : PortState} (h : p.busy = none) (h2 : p.rspNow = none) : p.ready = true := by simp [PortState.ready, h, h2]

theorem heldWord_of_ready {q : Pins} {p : PortState} (h : p.ready = true) : heldWord q p = none := by simp [heldWord, h]

theorem heldWord_of_not_ready {q : Pins} {p : PortState} (h : p.ready = false) :
    heldWord q p = if q.cmdValid = true then some q.cmd else none := by simp [heldWord, h]

/-- The handshake is kept exactly when a word waited with is not changed (R71, R186). -/
theorem breaksHandshake_eq_false_iff (q : Pins) (p : PortState) :
    breaksHandshake q p = false ↔ ∀ w, p.waiting = some w → q.cmdValid = true → q.cmd = w := by
  cases h : p.waiting <;> cases h2 : q.cmdValid <;> simp [breaksHandshake, h, h2]

/-- An edge with `rst` high on an instance (R180, R182). -/
theorem tick_of_rst {q : Pins} {p : PortState} (h : p.core.cfg.wf = true) (hr : q.rst = true) :
    tick q p = .next { core := p.core.applyReset, busy := none, rspNow := none, waiting := none } := by
  rw [tick, onInstance_of_wf h, if_pos hr, resetEdge, execReset_of_wf h]

/-- An edge with `rst` low and the handshake kept, on an instance: the command in progress goes on, or the block idles. -/
theorem tick_of_run {q : Pins} {p : PortState} (h : p.core.cfg.wf = true) (hr : q.rst = false) (hs : breaksHandshake q p = false) :
    tick q p = match p.busy with
      | some b => advanceCommand q p b.word b.left
      | none   => idleEdge q p := by
  cases hb : p.busy <;> simp [tick, onInstance_of_wf h, hr, runEdge, hs, hb]

/-- An edge with `rst` low that breaks the handshake (R186). -/
theorem tick_of_broken {q : Pins} {p : PortState} (h : p.core.cfg.wf = true) (hr : q.rst = false) (hs : breaksHandshake q p = true) :
    tick q p = .refused .brokenHandshake := by
  simp [tick, onInstance_of_wf h, hr, runEdge, hs]

/-- The last edge of a command, on a legal state: the command's own effect, and its response in the next cycle. -/
theorem finishCommand_of_legal {q : Pins} {p : PortState} (h : p.core.legal = true) (w : Cmd) :
    ∃ s' r, exec (decode w) p.core = .next s' ∧ s'.rsps = p.core.rsps ++ [r] ∧
      finishCommand q p w = .next { core := s', busy := none, rspNow := some r, waiting := heldWord q p } := by
  obtain ⟨s', hs⟩ := exec_next_of_legal h (decode w)
  have hr : ∃ r, s'.rsps = p.core.rsps ++ [r] := by
    rcases exec_next_cases hs with ⟨-, out, rfl⟩ | ⟨f, v, -, -, rfl⟩ | ⟨-, st, d, rfl⟩ <;> exact ⟨_, rfl⟩
  obtain ⟨r, hr⟩ := hr
  exact ⟨s', r, hs, hr, by rw [finishCommand, hs]; simp [hr]⟩

/-- Every edge that goes on keeps the configuration. -/
theorem tick_keeps_cfg {q : Pins} {p p' : PortState} (h : tick q p = .next p') : p'.core.cfg = p.core.cfg := by
  have hw : p.core.cfg.wf = true := by
    by_contra hn
    rw [tick, onInstance_of_not_wf (by simpa using hn)] at h; cases h
  have hfin (w : Cmd) (hf : finishCommand q p w = .next p') : p'.core.cfg = p.core.cfg := by
    unfold finishCommand at hf
    split at hf
    · rename_i s' hs
      cases hf
      rcases exec_next_cases hs with ⟨-, out, rfl⟩ | ⟨f, v, -, -, rfl⟩ | ⟨-, st, d, rfl⟩ <;> rfl
    · cases hf
    · cases hf
  have hadv (w : Cmd) (n : Nat) (ha : advanceCommand q p w n = .next p') : p'.core.cfg = p.core.cfg := by
    unfold advanceCommand at ha
    split at ha
    · exact hfin w ha
    · cases ha; rfl
  cases hr : q.rst
  · cases hs : breaksHandshake q p
    · rw [tick_of_run hw hr hs] at h
      split at h
      · exact hadv _ _ h
      · unfold idleEdge at h
        split at h
        · cases hl : p.core.legal
          · rw [onLegal_of_not_legal hl] at h; cases h
          · rw [onLegal_of_legal hl] at h; exact hadv _ _ h
        · cases h; rfl
    · rw [tick_of_broken hw hr hs] at h; cases h
  · rw [tick_of_rst hw hr] at h; cases h; rfl

end Sys2Proof.Machine
end

