-- ==== Sys2Proof/Tests/Slice0.lean ====
section
/-! SUPPORT. Tests of the model. Expected results come from the spec: 95_test_vectors, the tables of R117 and R138, the worked
examples of the command rules, and words written out from R60 to R65. Below them, for every statement with hypotheses, a
concrete case that meets them together (`witness_...`). -/

namespace Sys2Proof.Tests

open Sys2Proof.Machine

/-! ### Helpers -/

/-- CFG_A with the given registers (95_test_vectors section 0). -/
def stA (p i : Word) : State := { State.reset with phase := p, inc := i }

/-- CFG_B with the given registers. -/
def cfgB : Cfg :=
  { Cfg.cfgA with
    table := [0x00000000#32, 0x3F000000#32, 0x3F800000#32, 0x3F000000#32, 0x00000000#32, 0xBF000000#32, 0xBF800000#32, 0xBF000000#32]
    sr := 16#32 }

/-- CFG_D, whose length is not a power of two. -/
def cfgD : Cfg :=
  { Cfg.cfgA with
    table := [0x00000000#32, 0x3F400000#32, 0x3F400000#32, 0x00000000#32, 0xBF400000#32, 0xBF400000#32]
    sr := 48000#32 }

/-- An instance with the given configuration and registers. -/
def st (c : Cfg) (p i : Word) : State := { State.reset with cfg := c, phase := p, inc := i }

/-- The registers and the last response of an outcome. -/
def seen (r : Result) : Option (Word × Word × Option Response) :=
  match r with
  | .next s => some (s.phase, s.inc, s.rsps.getLast?)
  | .fault _ => none
  | .refused _ => none

/-! ### Well-formedness: a term each check refuses -/

theorem test_wf_cfgA : Cfg.cfgA.wf = true := by decide
theorem test_wf_refuses_short_table : Cfg.wf { Cfg.cfgA with table := [0#32, 0#32, 0#32] } = false := by decide
theorem test_wf_refuses_infinite_entry : Cfg.wf { Cfg.cfgA with table := [0#32, 0x7F800000#32, 0#32, 0#32] } = false := by decide
theorem test_wf_refuses_long_table (t : Memory) (h : 2 ^ 24 < t.length) : Memory.wf t = false := by
  rw [Memory.wf, decide_eq_false (not_le.mpr h), Bool.and_false, Bool.false_and]
theorem test_wf_refuses_zero_rate : Cfg.wf { Cfg.cfgA with sr := 0#32 } = false := by decide
theorem test_wf_refuses_zero_latency : Cfg.wf { Cfg.cfgA with timing := { tPull := 0, tSetf := 1, tInfo := 1, readyWithRsp := true } } = false := by
  decide
theorem test_wf_refuses_selector_4 : AsmLine.wf (.getInfo (.number 4)) = false := by decide
theorem test_wf_refuses_wide_raw_frequency : AsmLine.wf (.setFrequency (.raw (2 ^ 32))) = false := by decide
theorem test_wf_refuses_wide_word : AsmLine.wf (.word (2 ^ 34)) = false := by decide
theorem test_wf_instr : Instr.wf (.getInfo .totalDuration) = true := by decide

/-! ### Decoding: words written out from R60 to R65 -/

theorem test_decode_getSample : decode 0b0011011110101011011011111011101111#34 = .getSample := by decide
theorem test_decode_setFrequency : decode 0b0101000011101010001100000000000000#34 = .setFrequency 0x43A8C000#32 := by decide
theorem test_decode_channels : decode 0b1000000000000000000000000000000100#34 = .getInfo .channels := by decide
theorem test_decode_sampleRate : decode 0b1011111111111111111111111111111101#34 = .getInfo .sampleRate := by decide
theorem test_decode_frameLength : decode 0b1010000000000000000000000000000010#34 = .getInfo .frameLength := by decide
theorem test_decode_totalDuration : decode 0b1000000000000000000000000000000011#34 = .getInfo .totalDuration := by decide
theorem test_decode_reserved : decode 0b1100010010001101000101011001111000#34 = .reserved := by decide
theorem test_decode_rejects_35_bits : decodeNat (2 ^ 34) = .error .notACommandWord := rfl
theorem test_decodeTableWord : decodeTableWord 40 0x200000001 = some (.getInfo .sampleRate) := by decide
theorem test_encode_hold : encode (.setFrequency 0#32) = 0x100000000#34 := by decide

/-! ### Commands: at most two each -/

/-- P6 line 3: inexact weights on CFG_B. -/
theorem test_getSample_inexact :
    seen (exec .getSample (st cfgB 0x3F0CCCCD#32 0x3F0CCCCD#32)) = some (0x3F8CCCCD#32, 0x3F0CCCCD#32, some ⟨.ok, 0x3E8CCCCC#32⟩) := by
  decide +kernel
/-- 95_test_vectors section 2.5: below zero and across the seam, a length that is no power of two. -/
theorem test_getSample_reverse_seam :
    seen (exec .getSample (st cfgD 0x3F000000#32 0xC0200000#32)) = some (0x40800000#32, 0xC0200000#32, some ⟨.ok, 0x3ED80000#32⟩) := by
  decide +kernel
/-- P2 line 1. -/
theorem test_setFrequency_one :
    seen (exec (.setFrequency 0x3F800000#32) (stA 0x3F000000#32 0#32)) = some (0x3F000000#32, 0x3F000000#32, some ⟨.ok, 0#32⟩) := by
  decide
/-- 95_test_vectors section 2.4: on CFG_B the product of `2^125` and 8 overflows. -/
theorem test_setFrequency_overflow :
    seen (exec (.setFrequency 0x7E000000#32) (st cfgB 0x40100000#32 0x3F400000#32)) =
      some (0x40100000#32, 0x3F400000#32, some ⟨.badFrequency, 0#32⟩) := by
  decide
theorem test_getInfo_sampleRate :
    seen (exec (.getInfo .sampleRate) (st cfgD 0#32 0#32)) = some (0#32, 0#32, some ⟨.ok, 0x0000BB80#32⟩) := by decide
theorem test_getInfo_frameLength :
    seen (exec (.getInfo .frameLength) (st cfgD 0#32 0#32)) = some (0#32, 0#32, some ⟨.none, 0#32⟩) := by decide
theorem test_reserved :
    seen (step ((stA 0x3F000000#32 0x3F000000#32).withFetchWord 40 0x33F800000)) =
      some (0x3F000000#32, 0x3F000000#32, some ⟨.illegalCommand, 0#32⟩) := by decide
theorem test_response_word : Response.word ⟨.illegalCommand, 0#32⟩ = 0x300000000#34 := by decide
theorem test_reset_input :
    seen (step { stA 0x3F000000#32 0x7F800000#32 with inbox := [.reset] }) = some (0#32, 0#32, none) := by decide

/-! ### Numeric functions -/

theorem test_weights_third :
    weights binary32 0x3EAAAAAB#32 = ⟨0xBD97B426#32, 0x3F471C72#32, 0x3EAAAAAC#32, 0xBD17B426#32⟩ := by decide
theorem test_wrap_ties_to_L : F32.wrap 64 0xB6000000#32 = 0#32 := by decide
theorem test_wrap_maxf_48 : F32.wrap 48 0x7F7FFFFF#32 = 0#32 := by decide
theorem test_increment_underflow : increment binary32 64 44100 0x00000001#32 = 0#32 := by decide
theorem test_increment_2_121 : increment binary32 64 44100 0x7C000000#32 = 0x773E37C6#32 := by decide
theorem test_assembler_decimal : FreqArg.toWord (.decimal false 11 1) = 0x3F8CCCCD#32 := by decide
/-- The corner that contradicts R135's "less than the old": the wrapped phase equals the old one (log entry 17). Computed by
hand from R83, R98: `4 + 1.5 * 2^-21` is a tie and goes to `4 + 2^-20`. -/
theorem test_forward_wrap_can_stand_still : advance binary32 4 0x35800000#32 0x407FFFFF#32 = 0x35800000#32 := by decide

/-! ### Witnesses: for every statement with hypotheses, values that meet them together -/

theorem inv_of_legal {s : State} (h : s.legal = true) : s.Inv := (legal_iff_inv s).mp h

theorem val_of_scaled {w : Word} {n : Int} (h : F32.scaled w = n * (F32.scale : Int)) : F32.val w = n := by
  have hs : (F32.scale : Rat) ≠ 0 := by exact_mod_cast F32.scale_pos.ne'
  rw [F32.val, h]; push_cast; field_simp

theorem val_pos_of_scaled {w : Word} (h : 0 < F32.scaled w) : 0 < F32.val w :=
  div_pos (by exact_mod_cast h) (by exact_mod_cast F32.scale_pos)

theorem val_neg_of_scaled {w : Word} (h : F32.scaled w < 0) : F32.val w < 0 :=
  div_neg_of_neg_of_pos (by exact_mod_cast h) (by exact_mod_cast F32.scale_pos)

theorem of_seen {r : Result} {p i : Word} {a : Option Response} (h : seen r = some (p, i, a)) :
    ∃ t, r = .next t ∧ t.phase = p ∧ t.inc = i ∧ t.rsps.getLast? = a := by
  cases r with
  | next t =>
    simp only [seen, Option.some.injEq, Prod.mk.injEq] at h
    exact ⟨t, rfl, h⟩
  | fault e => simp [seen] at h
  | refused e => simp [seen] at h

theorem witness_WrittenOutWordsDecode : decode 0x143A8C000#34 = .setFrequency 0x43A8C000#32 := by decide

theorem witness_DecodeReadsOpAndOperand :
    (0x0FFFFFFFF#34).extractLsb' 32 2 = 0b00#2 ∧ (0x1FFFFFFFF#34).extractLsb' 32 2 = 0b01#2 ∧
    ((0x2FFFFFFFC#34).extractLsb' 32 2 = 0b10#2 ∧ (0x2FFFFFFFC#34).extractLsb' 0 2 = 0#2) ∧
    ((0x200000001#34).extractLsb' 32 2 = 0b10#2 ∧ (0x200000001#34).extractLsb' 0 2 = 1#2) ∧
    ((0x200000002#34).extractLsb' 32 2 = 0b10#2 ∧ (0x200000002#34).extractLsb' 0 2 = 2#2) ∧
    ((0x2FFFFFFFF#34).extractLsb' 32 2 = 0b10#2 ∧ (0x2FFFFFFFF#34).extractLsb' 0 2 = 3#2) ∧
    (0x3FFFFFFFF#34).extractLsb' 32 2 = 0b11#2 := by decide

theorem witness_DecodeEncodeRoundTrip :
    Instr.wf (.setFrequency 0xFFFFFFFF#32) = true ∧ Instr.wf (.getInfo .totalDuration) = true ∧
    decode 0x0FFFFFFFF#34 = decode 0x000000000#34 ∧ (0x1FFFFFFFF#34).extractLsb' 32 2 = 0b01#2 ∧
    (0x200000003#34).extractLsb' 32 2 = 0b10#2 := by decide

theorem witness_AssemblerLinesMeanTheirCommands :
    0 < 1 ∧ (2 ^ 32 - 1 : Nat) < 2 ^ 32 ∧ 3 < 4 ∧ (2 ^ 34 - 1 : Nat) < 2 ^ 34 ∧
    [AsmLine.getSample, .getInfo (.number 3), .word (2 ^ 34 - 1), .pull 0, .hold, .reset].all AsmLine.wf = true ∧
    AsmLine.getInfo (.number 4) ∈ [AsmLine.getInfo (.number 4)] ∧ AsmLine.wf (.getInfo (.number 4)) = false := by decide

theorem witness_StepRunsTheDecodedCommand :
    { stA 0#32 0#32 with inbox := [.command 0x3FFFFFFFF#34, .reset] }.inbox = .command 0x3FFFFFFFF#34 :: [.reset] ∧
    { stA 0#32 0#32 with inbox := [.reset] }.inbox = .reset :: [] ∧ (stA 0#32 0#32).cfg.wf = true ∧ (stA 0#32 0#32).inbox = [] := by
  decide

theorem witness_ResetClearsRegistersKeepsConstants :
    { stA 0x7FC00000#32 0x7F800000#32 with inbox := [.reset] }.cfg.wf = true ∧
    { stA 0x7FC00000#32 0x7F800000#32 with inbox := [.reset] }.inbox = .reset :: [] := by decide

theorem witness_ResetMeetsTheInvariant :
    Cfg.cfgA.wf = true ∧ Cfg.wf { Cfg.cfgA with sr := 0xFFFFFFFF#32 } = true ∧ Cfg.wf { Cfg.cfgA with sr := 1#32 } = true := by
  decide

/-- A legal state at the top of its range: the largest phase below `L`, the largest increment, a GET_SAMPLE issued. -/
def topState : State := { stA 0x407FFFFF#32 0x7F7FFFFF#32 with inbox := [.command 0#34, .reset, .command 0x3FFFFFFFF#34] }

theorem topState_inv : topState.Inv := inv_of_legal (by decide)

theorem witness_EveryStepKeepsTheInvariant : cfgD.wf = true ∧ topState.Inv ∧ ∃ t, step topState = .next t :=
  ⟨by decide, topState_inv, exec_next_of_legal (s := topState.setInbox topState.inbox.tail) (by decide) .getSample⟩

theorem witness_EveryCommandAnswersExactlyOnce :
    topState.Inv ∧ topState.inbox = .command 0#34 :: [.reset, .command 0x3FFFFFFFF#34] := ⟨topState_inv, rfl⟩

theorem witness_EveryInputSequenceRunsToItsEnd : topState.Inv ∧ topState.inbox.length = 3 := ⟨topState_inv, rfl⟩

theorem witness_CommandsRunExactlyOnLegalStates :
    topState.Inv ∧ { topState with cfg := { Cfg.cfgA with sr := 0#32 } }.cfg.wf = false ∧
    ((stA 0x40800000#32 0#32).cfg.wf = true ∧ ¬ (stA 0x40800000#32 0#32).Inv) :=
  ⟨topState_inv, by decide, by decide, fun h => absurd ((legal_iff_inv _).mpr h) (by decide)⟩

/-- The smallest and the largest table that is none, no rate, no latency; and states and pins built on such a configuration. -/
theorem witness_OnlyInstancesAreBuiltAndRun :
    Cfg.cfgA.wf = true ∧ Cfg.wf { Cfg.cfgA with table := [0#32, 0#32, 0#32] } = false ∧ Cfg.wf { Cfg.cfgA with sr := 0#32 } = false ∧
    (st { Cfg.cfgA with sr := 0#32 } 0#32 0#32).cfg.wf = false ∧
    ({ core := st { Cfg.cfgA with sr := 0#32 } 0#32 0#32, busy := none, rspNow := none, waiting := none } : PortState).core.cfg.wf = false ∧
    ({ cfg := { Cfg.cfgA with sr := 0#32 }, phase := 0, inc := 0 } : ExactState).cfg.wf = false := by decide

theorem witness_CommandsLeaveTheRestUnchanged :
    (∃ t, exec .getSample topState = .next t) ∧ (∃ t, exec (.setFrequency 0x7FC00000#32) topState = .next t) ∧
    (∃ t, exec (.getInfo .channels) topState = .next t) ∧ (∃ t, exec .reserved topState = .next t) ∧
    Instr.reserved ≠ .getSample ∧ (∀ f, Instr.reserved ≠ .setFrequency f) :=
  have h : topState.legal = true := by decide
  ⟨exec_next_of_legal h _, exec_next_of_legal h _, exec_next_of_legal h _, exec_next_of_legal h _, by simp, by simp⟩

theorem witness_OnlyTheirWritersChangeRegisters :
    (∃ t, step ((stA 0#32 0x3F000000#32).withFetchWord 40 0) = .next t ∧ t.phase ≠ (stA 0#32 0x3F000000#32).phase) ∧
    (∃ t, step ((stA 0#32 0x3F000000#32).withFetchWord 40 0x1BF000000) = .next t ∧ t.inc ≠ (stA 0#32 0x3F000000#32).inc) := by
  constructor
  · obtain ⟨t, h, hp, -⟩ := of_seen (r := step ((stA 0#32 0x3F000000#32).withFetchWord 40 0)) (p := 0x3F000000#32)
      (i := 0x3F000000#32) (a := some ⟨.ok, 0#32⟩) (by decide +kernel)
    exact ⟨t, h, by rw [hp]; decide⟩
  · obtain ⟨t, h, -, hi, -⟩ := of_seen (r := step ((stA 0#32 0x3F000000#32).withFetchWord 40 0x1BF000000)) (p := 0#32)
      (i := 0xBE800000#32) (a := some ⟨.ok, 0#32⟩) (by decide +kernel)
    exact ⟨t, h, by rw [hi]; decide⟩

/-- One case for each status: the illegal word, a NaN frequency, an undeclared property. -/
theorem witness_StatusesComeFromTheirOpcodes :
    ∀ w ∈ [0x300000000#34, 0x17FC00000#34, 0x200000002#34, 0x000000000#34], ∃ t r,
      step { topState with inbox := [.command w] } = .next t ∧ t.rsps = topState.rsps ++ [r] := by
  intro w _
  obtain ⟨t, ht⟩ := exec_next_of_legal (s := topState.setInbox []) (by decide) (decode w)
  have hr : ∃ r, t.rsps = topState.rsps ++ [r] := by
    rcases exec_next_cases ht with ⟨-, out, rfl⟩ | ⟨f, v, -, -, rfl⟩ | ⟨-, st, d, rfl⟩ <;> exact ⟨_, rfl⟩
  obtain ⟨r, hr⟩ := hr
  exact ⟨t, r, ht, hr⟩

theorem witness_QueriesAndErrorsLeaveNoTrace :
    (∃ s1, exec .reserved topState = .next s1) ∧ (∃ s1, exec (.getInfo .totalDuration) topState = .next s1) ∧
    (∃ s1, exec (.setFrequency 0x7F800000#32) topState = .next s1 ∧
      s1.rsps = topState.rsps ++ [{ status := .badFrequency, data := 0x00000000#32 }]) ∧
    ∃ s2, exec .getSample topState = .next s2 := by
  have h : topState.legal = true := by decide
  have hb := execSetFrequency_of_legal h 0x7F800000#32
  rw [if_neg (by decide)] at hb
  exact ⟨exec_next_of_legal h _, exec_next_of_legal h _, ⟨_, hb, rfl⟩, exec_next_of_legal h _⟩

theorem witness_GetSampleInterpolatesThenAdvances :
    topState.Inv ∧ (stA 0x00000000#32 0xFF7FFFFF#32).Inv ∧ (st cfgD 0x40BFFFFF#32 0x80000001#32).Inv :=
  ⟨topState_inv, inv_of_legal (by decide), inv_of_legal (by decide)⟩

theorem witness_SampleDependsOnPhaseAndTableOnly :
    topState.Inv ∧ (st { Cfg.cfgA with sr := 48000#32 } 0x407FFFFF#32 0#32).Inv ∧
    topState.phase = (st { Cfg.cfgA with sr := 48000#32 } 0x407FFFFF#32 0#32).phase ∧
    topState.cfg.table = (st { Cfg.cfgA with sr := 48000#32 } 0x407FFFFF#32 0#32).cfg.table :=
  ⟨topState_inv, inv_of_legal (by decide), rfl, rfl⟩

/-- Knots at both ends of the table, and an instance. -/
theorem witness_KnotSampleIsTheTableEntry :
    ((stA 0#32 0#32).Inv ∧ F32.val (stA 0#32 0#32).phase = ((0 : Nat) : Rat)) ∧
    ((stA 0x40400000#32 0#32).Inv ∧ F32.val (stA 0x40400000#32 0#32).phase = ((3 : Nat) : Rat)) ∧ cfgB.wf = true :=
  ⟨⟨inv_of_legal (by decide), by exact_mod_cast val_of_scaled (n := 0) (by decide)⟩,
    ⟨inv_of_legal (by decide), by exact_mod_cast val_of_scaled (n := 3) (by decide)⟩, by decide⟩

theorem witness_StaticUntilAFrequencyIsSet :
    (stA 0#32 0#32).Inv ∧ (stA 0#32 0#32).phase = 0x00000000#32 ∧ (stA 0#32 0#32).inc = 0x00000000#32 ∧
    ∃ t, exec (.getInfo .channels) (stA 0#32 0#32) = .next t ∧ ∀ f, Instr.getInfo .channels ≠ .setFrequency f :=
  ⟨inv_of_legal (by decide), rfl, rfl, _, execGetInfo_of_legal (by decide) .channels, by simp⟩

/-- Both zeros, and an increment that the sum absorbs. -/
theorem witness_ZeroIncrementHoldsTheSample :
    ((stA 0x40600000#32 0#32).Inv ∧ F32.isZero (stA 0x40600000#32 0#32).inc = true) ∧
    ((stA 0x40600000#32 0x80000000#32).Inv ∧ F32.isZero (stA 0x40600000#32 0x80000000#32).inc = true) ∧
    ((stA 0x40600000#32 0x30800000#32).Inv ∧ F32.fadd 0x40600000#32 0x30800000#32 = (stA 0x40600000#32 0x30800000#32).phase) :=
  ⟨⟨inv_of_legal (by decide), by decide⟩, ⟨inv_of_legal (by decide), by decide⟩, inv_of_legal (by decide), by decide⟩

/-- Sums below `L`, and equal to `L`; the smallest increment and the largest below `L`. -/
theorem witness_ForwardPlaybackAdvancesOrWraps :
    (∀ i ∈ [0x3F000000#32, 0x00000001#32, 0x407FFFFF#32], (stA 0x40600000#32 i).Inv ∧ 0 < F32.val (stA 0x40600000#32 i).inc ∧
      F32.val (stA 0x40600000#32 i).inc < ((stA 0x40600000#32 i).cfg.table.length : Rat)) ∧
    F32.val (F32.fadd 0x40600000#32 0x00000001#32) < ((4 : Nat) : Rat) ∧
    ((4 : Nat) : Rat) ≤ F32.val (F32.fadd 0x40600000#32 0x3F000000#32) := by
  refine ⟨fun i hi => ?_, (val_lt_nat_iff _ _).mpr (by decide), ?_⟩
  · simp only [List.mem_cons, List.not_mem_nil, or_false] at hi
    rcases hi with rfl | rfl | rfl <;>
      exact ⟨inv_of_legal (by decide), val_pos_of_scaled (by decide), (val_lt_nat_iff _ _).mpr (by decide)⟩
  · rw [val_of_scaled (n := 4) (by decide)]; norm_num

/-- The sum 0, a sum below 0, and a sum so little below 0 that `fl(L + sum)` is `L`. -/
theorem witness_ReversePlaybackWrapsBelowZero :
    (∀ pi ∈ [(0x3E800000#32, 0xBE800000#32), (0x00000000#32, 0xBE800000#32), (0x00000000#32, 0xB4000000#32)],
      (stA pi.1 pi.2).Inv ∧ -((stA pi.1 pi.2).cfg.table.length : Rat) < F32.val (stA pi.1 pi.2).inc ∧ F32.val (stA pi.1 pi.2).inc < 0) ∧
    0 ≤ F32.val (F32.fadd 0x3E800000#32 0xBE800000#32) ∧ F32.val (F32.fadd 0x00000000#32 0xBE800000#32) < 0 ∧
    (F32.val (F32.fadd 0x00000000#32 0xB4000000#32) < 0 ∧
      F32.val (F32.fl ((4 : Rat) + F32.val (F32.fadd 0x00000000#32 0xB4000000#32))) = 4) := by
  have hi (a b : Word) (h1 : F32.scaled a = -F32.scaled b) (h2 : F32.scaled b < ((4 * F32.scale : Nat) : Int)) :
      -(4 : Rat) < F32.val a := by
    have : F32.val a = -F32.val b := by rw [F32.val, F32.val, h1]; push_cast; ring
    rw [this, neg_lt_neg_iff]; exact_mod_cast (val_lt_nat_iff _ 4).mpr h2
  refine ⟨fun pi hp => ?_, (val_nonneg_iff _).mpr (by decide), val_neg_of_scaled (by decide), val_neg_of_scaled (by decide), ?_⟩
  · simp only [List.mem_cons, List.not_mem_nil, or_false] at hp
    rcases hp with rfl | rfl | rfl
    · exact ⟨inv_of_legal (by decide), hi _ 0x3E800000#32 (by decide) (by decide), val_neg_of_scaled (by decide)⟩
    · exact ⟨inv_of_legal (by decide), hi _ 0x3E800000#32 (by decide) (by decide), val_neg_of_scaled (by decide)⟩
    · exact ⟨inv_of_legal (by decide), hi _ 0x34000000#32 (by decide) (by decide), val_neg_of_scaled (by decide)⟩
  · have e : F32.val (F32.fadd 0x00000000#32 0xB4000000#32) = -1 / 2 ^ 23 := by
      have : (F32.scale : Rat) ≠ 0 := by exact_mod_cast F32.scale_pos.ne'
      rw [F32.val, show F32.scaled (F32.fadd 0x00000000#32 0xB4000000#32) = -(2 ^ 126 : Int) by decide, F32.scale]; norm_num
    rw [e, show F32.fl ((4 : Rat) + -1 / 2 ^ 23) = 0x40800000#32 by decide +kernel]
    exact_mod_cast val_of_scaled (n := 4) (by decide)

theorem witness_SetFrequencyStoresTheIncrement :
    topState.Inv ∧ F32.isFinite (F32.fdiv (F32.fmul 0x3F800000#32 (F32.ofNat 4)) (F32.ofNat 8)) = true ∧
    F32.isFinite (F32.fdiv (F32.fmul 0x7F800001#32 (F32.ofNat 4)) (F32.ofNat 8)) = false :=
  ⟨topState_inv, by decide, by decide⟩

/-- On CFG_A (`L = 4`) the boundary lies between `0x7E7FFFFF`, whose product is `MAXF`, and `0x7E800000`, `2^126`. -/
theorem witness_BadFrequencyExactlyOnOverflow :
    topState.Inv ∧ F32.isNaN 0x7F800001#32 = true ∧ F32.isInf 0xFF800000#32 = true ∧
    (F32.isFinite 0x7E800000#32 = true ∧ (2 : Rat) ^ 128 - 2 ^ 103 ≤ |F32.val 0x7E800000#32| * (topState.cfg.table.length : Rat)) ∧
    (F32.isFinite 0x7E7FFFFF#32 = true ∧ |F32.val 0x7E7FFFFF#32| * (topState.cfg.table.length : Rat) < (2 : Rat) ^ 128 - 2 ^ 103) := by
  have h1 : F32.val 0x7E800000#32 = ((2 ^ 126 : Int) : Rat) := val_of_scaled (by decide)
  have h2 : F32.val 0x7E7FFFFF#32 = (((2 ^ 24 - 1) * 2 ^ 102 : Int) : Rat) := val_of_scaled (by decide)
  have h3 : (topState.cfg.table.length : Rat) = 4 := by norm_num [topState, stA, State.reset, State.resetOf, Cfg.cfgA]
  refine ⟨topState_inv, by decide, by decide, ⟨by decide, ?_⟩, by decide, ?_⟩
  · rw [h1, h3]; norm_num
  · rw [h2, h3]; norm_num

theorem witness_FrequencyChangeIsPhaseContinuous :
    (∃ t, exec (.setFrequency 0x3F800000#32) topState = .next t) ∧ ∃ t, exec (.setFrequency 0x7FC00000#32) topState = .next t :=
  have h : topState.legal = true := by decide
  ⟨exec_next_of_legal h _, exec_next_of_legal h _⟩

theorem witness_LastGoodFrequencyCounts :
    ∃ s1 s2, exec (.setFrequency 0x7FC00000#32) (stA 0#32 0#32) = .next s1 ∧ exec (.setFrequency 0x00000000#32) s1 = .next s2 ∧
      s2.rsps = s1.rsps ++ [{ status := .ok, data := 0x00000000#32 }] := by
  have h1 := execSetFrequency_of_legal (s := stA 0#32 0#32) (by decide) 0x7FC00000#32
  rw [if_neg (by decide)] at h1
  have h2 := execSetFrequency_of_legal (s := (stA 0#32 0#32).respond .badFrequency 0#32) (by decide) 0x00000000#32
  rw [if_pos (by decide)] at h2
  exact ⟨_, _, h1, h2, rfl⟩

theorem witness_ZeroFrequencyKeepsItsSign : topState.Inv ∧ F32.isZero 0x80000000#32 = true ∧ F32.isZero 0x00000000#32 = true :=
  ⟨topState_inv, by decide, by decide⟩

theorem witness_GetInfoAnswersTheFourProperties : (st { Cfg.cfgA with sr := 0xFFFFFFFF#32 } 0#32 0#32).Inv :=
  inv_of_legal (by decide)

theorem witness_ReservedOpcodeIsIllegalAndHarmless : topState.Inv := topState_inv

/-- The least and the largest finite word, a tie with two neighbours equally near, the overflow threshold and the underflow
threshold. -/
theorem witness_RoundingIsNearestTiesToEven :
    (F32.isFinite 0x00000001#32 = true ∧ F32.isZero 0x00000001#32 = false) ∧
    (F32.isFinite 0xFF7FFFFF#32 = true ∧ F32.isZero 0xFF7FFFFF#32 = false) ∧
    (F32.isFinite (F32.fl 16777217) = true ∧ F32.isFinite 0x4B800001#32 = true ∧
      |(16777217 : Rat) - F32.val (F32.fl 16777217)| = |(16777217 : Rat) - F32.val 0x4B800001#32| ∧
      F32.val 0x4B800001#32 ≠ F32.val (F32.fl 16777217)) ∧
    (2 : Rat) ^ 128 - 2 ^ 103 ≤ |2 ^ 128 - 2 ^ 103| ∧ ((1 / 2 ^ 150 : Rat) ≠ 0 ∧ |(1 / 2 ^ 150 : Rat)| ≤ 1 / 2 ^ 150) ∧
    ((0 : Rat) ≤ 16777217 ∧ F32.isFinite (F32.fl 0) = true ∧ F32.isFinite (F32.fl 16777217) = true) := by
  have e : F32.fl 16777217 = 0x4B800000#32 := by decide +kernel
  have h1 : F32.val 0x4B800000#32 = ((16777216 : Int) : Rat) := val_of_scaled (by decide)
  have h2 : F32.val 0x4B800001#32 = ((16777218 : Int) : Rat) := val_of_scaled (by decide)
  refine ⟨by decide, by decide, ⟨by rw [e]; decide, by decide, ?_, ?_⟩, le_abs_self _, ⟨by positivity, ?_⟩, by norm_num, by decide, by rw [e]; decide⟩
  · rw [e, h1, h2]; norm_num
  · rw [e, h1, h2]; norm_num
  · rw [abs_of_nonneg (by positivity)]

/-- Operands for each clause: a sum that is zero and one that is not, zero operands, a zero divisor. -/
theorem witness_ArithmeticRoundsTheExactResultOnce :
    [0x3F800000#32, 0xBF800000#32, 0x00000000#32, 0x80000000#32, 0x7F7FFFFF#32].all F32.isFinite = true ∧
    F32.val 0x3F800000#32 + F32.val 0xBF800000#32 = 0 ∧ F32.val 0x3F800000#32 + F32.val 0x00000000#32 ≠ 0 ∧
    F32.val 0x3F800000#32 * F32.val 0x80000000#32 = 0 ∧ F32.val 0x80000000#32 = 0 ∧
    (F32.isZero 0x80000000#32 = true ∧ F32.isZero 0x3F800000#32 = false) ∧
    (F32.isFinite 0x00000000#32 = true ∧ F32.val 0x00000000#32 = F32.val 0x3F800000#32 + F32.val 0xBF800000#32 ∧
      F32.val 0x00000000#32 = F32.val 0x3F800000#32 - F32.val 0x3F800000#32) ∧
    F32.isZero (F32.fmul 0x80000001#32 0x00000001#32) = true ∧ F32.isZero (F32.fdiv 0x80000001#32 0x7F7FFFFF#32) = true := by
  have h1 : F32.val 0x3F800000#32 = ((1 : Int) : Rat) := val_of_scaled (by decide)
  have h2 : F32.val 0xBF800000#32 = ((-1 : Int) : Rat) := val_of_scaled (by decide)
  have h3 : F32.val 0x00000000#32 = ((0 : Int) : Rat) := val_of_scaled (by decide)
  have h4 : F32.val 0x80000000#32 = ((0 : Int) : Rat) := val_of_scaled (by decide)
  refine ⟨by decide, ?_, ?_, ?_, ?_, by decide, ⟨by decide, ?_, ?_⟩, by decide, by decide⟩ <;> norm_num [h1, h2, h3, h4]

theorem witness_InfinitiesAndNaNsAsTheRulesSay :
    F32.isNaN 0x7F800001#32 = true ∧ F32.isNaN 0xFFC00000#32 = true ∧ F32.isFinite 0xFF7FFFFF#32 = true ∧
    (F32.isNaN 0x7F800000#32 = false ∧ F32.isZero 0x7F800000#32 = false) ∧
    F32.isNaN (F32.fmul 0x7F800000#32 0x00000000#32) = true := by decide

theorem witness_OfNatIsTheRoundedInteger : (2 ^ 32 - 1 : Nat) < 2 ^ 32 ∧ (2 ^ 24 : Nat) ≤ 2 ^ 24 ∧ 2 ^ 24 * 2 ^ 7 < 2 ^ 32 := by decide

theorem witness_FloorIsExact :
    F32.isFinite 0xBF000000#32 = true ∧ F32.isFinite 0x7F7FFFFF#32 = true ∧
    (F32.isFinite 0x4B7FFFFF#32 = true ∧ F32.val 0x4B7FFFFF#32 = ((16777215 : Nat) : Rat) ∧ 16777215 < 2 ^ 24) ∧ topState.Inv :=
  ⟨by decide, by decide, ⟨by decide, by exact_mod_cast val_of_scaled (n := 16777215) (by decide), by norm_num⟩, topState_inv⟩

theorem witness_SplitIsExact : topState.Inv ∧ (stA 0x40400000#32 0#32).Inv ∧ F32.val (stA 0x40400000#32 0#32).phase = ((3 : Nat) : Rat) :=
  ⟨topState_inv, inv_of_legal (by decide), by exact_mod_cast val_of_scaled (n := 3) (by decide)⟩

theorem witness_TapIndicesAreInRangeAndDistinct : 4 ≤ 4 ∧ 3 < 4 ∧ 4 ≤ 7 ∧ 0 < 7 := by decide

theorem witness_IndexArithmeticNeedsOneCorrection : 4 ≤ 4 ∧ 3 < 4 ∧ ((-1 : Int) = -1) ∧ (2 : Int) = 2 := by decide

theorem witness_InterpolationFollowsTheEvaluationOrder :
    F32.fmul 0x3F000000#32 0x3F000000#32 = 0x3E800000#32 ∧ F32.fmul 0x3E800000#32 0x3F000000#32 = 0x3E000000#32 := by decide

theorem witness_InterpolationIsExactAtKnots :
    F32.isFinite 0x7F7FFFFF#32 = true ∧ (F32.isFinite 0x80000000#32 = true ∧ F32.isZero 0x80000000#32 = true) ∧
    (F32.isFinite 0x3F800000#32 = true ∧ F32.isZero 0x3F800000#32 = false) ∧ topState.Inv :=
  ⟨by decide, by decide, by decide, topState_inv⟩

theorem witness_WrapRoundsTheExactModuloOnce :
    (4 ≤ 4 ∧ 4 ≤ 2 ^ 24) ∧ (4 ≤ 2 ^ 24 ∧ 2 ^ 24 ≤ 2 ^ 24) ∧ F32.isFinite 0x80000001#32 = true ∧ F32.isFinite 0xFF7FFFFF#32 = true := by
  decide

/-- A value in range, one past it, a negative multiple, and a negative value that is none. -/
theorem witness_WrapHasTheListedProperties :
    [0x40600000#32, 0x7F7FFFFF#32, 0xC1000000#32, 0xBE800000#32].all F32.isFinite = true ∧
    (0 ≤ F32.val 0x40600000#32 ∧ F32.val 0x40600000#32 < ((4 : Nat) : Rat)) ∧
    (F32.val 0xC1000000#32 < 0 ∧ F32.val 0xC1000000#32 = -(((2 : Nat) : Rat) * ((4 : Nat) : Rat))) ∧
    (F32.val 0xBE800000#32 < 0 ∧
      F32.val 0xBE800000#32 - ((4 : Nat) : Rat) * (⌊F32.val 0xBE800000#32 / ((4 : Nat) : Rat)⌋ : Rat) ≠ 0) := by
  have h1 : F32.val 0xC1000000#32 = ((-8 : Int) : Rat) := val_of_scaled (by decide)
  have h2 : F32.val 0xBE800000#32 = -1 / 4 := by
    have : (F32.scale : Rat) ≠ 0 := by exact_mod_cast F32.scale_pos.ne'
    rw [F32.val, show F32.scaled 0xBE800000#32 = -(2 ^ 147 : Int) by decide, F32.scale]; norm_num
  refine ⟨by decide, ⟨(val_nonneg_iff _).mpr (by decide), (val_lt_nat_iff _ _).mpr (by decide)⟩,
    ⟨val_neg_of_scaled (by decide), by rw [h1]; norm_num⟩, val_neg_of_scaled (by decide), ?_⟩
  rw [h2, show ⌊(-1 / 4 : Rat) / ((4 : Nat) : Rat)⌋ = -1 by rw [Int.floor_eq_iff]; norm_num]; norm_num

theorem witness_DerivedConstantsOfAnInstance : cfgD.wf = true ∧ cfgD.table.length ≤ 2 ^ 3 := by decide

theorem witness_BoundedTableGivesFiniteSamples :
    topState.Inv ∧ (∀ w ∈ topState.cfg.table, |F32.val w| ≤ 2 ^ 126) ∧ ∃ t, exec .getSample topState = .next t := by
  refine ⟨topState_inv, fun w hw => ?_, exec_next_of_legal (by decide) _⟩
  have h1 : F32.val 0x3F800000#32 = ((1 : Int) : Rat) := val_of_scaled (by decide)
  have h2 : F32.val 0xBF800000#32 = ((-1 : Int) : Rat) := val_of_scaled (by decide)
  have h3 : F32.val 0x00000000#32 = ((0 : Int) : Rat) := val_of_scaled (by decide)
  have hw : w = 0x00000000#32 ∨ w = 0x3F800000#32 ∨ w = 0x00000000#32 ∨ w = 0xBF800000#32 := by
    simpa [topState, stA, State.reset, State.resetOf, Cfg.cfgA] using hw
  rcases hw with rfl | rfl | rfl | rfl
  · rw [h3]; norm_num
  · rw [h1]; norm_num
  · rw [h3]; norm_num
  · rw [h2]; norm_num

theorem witness_IdealWeightsFormTheSpline : (0 : Rat) ≤ 1 ∧ (1 : Rat) ≤ 1 ∧ (0 : Rat) ≤ 0 := by norm_num

theorem witness_ExactPhaseIsPeriodic :
    0 < 4 ∧ (0 : Rat) ≤ 7 / 2 ∧ (7 / 2 : Rat) < ((4 : Nat) : Rat) ∧ ((8 : Nat) : Rat) * (1 / 2) = ((1 : Int) : Rat) * ((4 : Nat) : Rat) := by
  norm_num

theorem witness_ExactSampleCrossesTheSeam :
    4 ≤ ([0, 1, 0, -1] : List Rat).length ∧ 3 < ([0, 1, 0, -1] : List Rat).length ∧ (0 : Rat) ≤ 7 / 2 ∧
    (7 / 2 : Rat) < (([0, 1, 0, -1] : List Rat).length : Rat) := by norm_num

/-- The exact instance of CFG_A at the given phase and increment. -/
def exA (p i : Rat) : ExactState := { cfg := Cfg.cfgA, phase := p, inc := i }

theorem exA_inv {p i : Rat} (h0 : 0 ≤ p) (h4 : p < 4) : (exA p i).Inv := ⟨(by decide : Cfg.cfgA.wf = true), h0, by simpa [exA, Cfg.cfgA] using h4⟩

theorem witness_ExactInstanceFollowsTheFormulas :
    (exA 0 (-5)).Inv ∧ (exA (7 / 2) 100).Inv ∧ F32.isFinite 0x80000001#32 = true ∧ F32.isFinite 0x7F800000#32 = false :=
  ⟨exA_inv (by norm_num) (by norm_num), exA_inv (by norm_num) (by norm_num), by decide, by decide⟩

/-- Eight pulls by 1/2 go once around four entries, and no pull at all goes nowhere. -/
theorem witness_ExactSamplesRepeat :
    (exA (7 / 2) (1 / 2)).Inv ∧ ((8 : Nat) : Rat) * (exA (7 / 2) (1 / 2)).inc = ((1 : Int) : Rat) * ((exA (7 / 2) (1 / 2)).cfg.table.length : Rat) ∧
    ((0 : Nat) : Rat) * (exA (7 / 2) (1 / 2)).inc = ((0 : Int) : Rat) * ((exA (7 / 2) (1 / 2)).cfg.table.length : Rat) ∧
    ∃ t bs, exactRun (List.replicate 0 .getSample) (exA (7 / 2) (1 / 2)) = .next (t, bs) :=
  ⟨exA_inv (by norm_num) (by norm_num), by norm_num [exA, Cfg.cfgA], by norm_num, _, _, rfl⟩

/-- On CFG_A: `f = 2` gives `2 * 4 = 8` and `8 / 8 = 1`; the sum `3 + 2 = 5` wraps to 1. -/
theorem witness_ExactAgreesWhereNothingRounds :
    (stA 0x40400000#32 0x40000000#32).Inv ∧
    (exA 3 2).cfg = (stA 0x40400000#32 0x40000000#32).cfg ∧ (exA 3 2).phase = F32.val 0x40400000#32 ∧
    (exA 3 2).inc = F32.val 0x40000000#32 ∧
    F32.val 0x41000000#32 = F32.val 0x40000000#32 * ((4 : Nat) : Rat) ∧ F32.val 0x41000000#32 = ((8 : Nat) : Rat) ∧
    F32.val 0x3F800000#32 = F32.val 0x40000000#32 * ((4 : Nat) : Rat) / ((8 : Nat) : Rat) ∧
    F32.val 0x40A00000#32 = F32.val 0x40400000#32 + F32.val 0x40000000#32 ∧
    F32.val 0x3F800000#32 = F32.val 0x40A00000#32 - ((4 : Nat) : Rat) * (⌊F32.val 0x40A00000#32 / ((4 : Nat) : Rat)⌋ : Rat) := by
  have h1 : F32.val 0x3F800000#32 = ((1 : Int) : Rat) := val_of_scaled (by decide)
  have h2 : F32.val 0x40000000#32 = ((2 : Int) : Rat) := val_of_scaled (by decide)
  have h3 : F32.val 0x40400000#32 = ((3 : Int) : Rat) := val_of_scaled (by decide)
  have h5 : F32.val 0x40A00000#32 = ((5 : Int) : Rat) := val_of_scaled (by decide)
  have h8 : F32.val 0x41000000#32 = ((8 : Int) : Rat) := val_of_scaled (by decide)
  have hf : ⌊(5 / 4 : Rat)⌋ = 1 := by rw [Int.floor_eq_iff]; norm_num
  refine ⟨inv_of_legal (by decide), rfl, ?_, ?_, ?_, ?_, ?_, ?_, ?_⟩ <;> norm_num [h1, h2, h3, h5, h8, exA, hf]

/-- On CFG_A at phase 7/2: the taps across the seam, and every number INTERP forms there, a multiple of 1/16. -/
theorem witness_ExactAgreesWhereNothingRounds_sample :
    (stA 0x40600000#32 0#32).Inv ∧ F32.val 0x40600000#32 = 7 / 2 ∧
    ∃ y : Taps Rat, gather (exactTable (stA 0x40600000#32 0#32).cfg) (splitIndex exactNum (exA (7 / 2) 0).phase) = some y ∧
      ∀ q ∈ interpSteps exactNum y (splitFrac exactNum (exA (7 / 2) 0).phase), F32.IsValue q := by
  have h : gather (exactTable Cfg.cfgA) (splitIndex exactNum (7 / 2)) = some { y0 := 0, y1 := -1, y2 := 0, y3 := 1 } := by
    decide +kernel
  have hs : interpSteps exactNum { y0 := 0, y1 := -1, y2 := 0, y3 := 1 } (splitFrac exactNum (7 / 2)) =
      ([4, 2, 4, 1, 2, -1, 3, -1, 3, 10, -7, 9] ++ [-3, 8, 5, 9, -1] ++ [0, -9, 0, -1, -9, -9, -10] : List Int).map
        (fun n : Int => (n : Rat) / 2 ^ 4) := by decide +kernel
  refine ⟨inv_of_legal (by decide), ?_, _, h, fun q hq => ?_⟩
  · rw [F32.val_eq_iff, show F32.scaled 0x40600000#32 = 7 * 2 ^ 148 by decide, F32.scale]; norm_num
  · rw [show (exA (7 / 2) 0).phase = 7 / 2 from rfl, hs, List.mem_map] at hq
    obtain ⟨n, hn, rfl⟩ := hq
    have hb : ([4, 2, 4, 1, 2, -1, 3, -1, 3, 10, -7, 9] ++ [-3, 8, 5, 9, -1] ++ [0, -9, 0, -1, -9, -9, -10] : List Int).all
        (fun n : Int => decide (n.natAbs ≤ 2 ^ 24)) = true := by decide
    exact F32.isValue_dyadic (of_decide_eq_true (List.all_eq_true.mp hb n hn)) (by norm_num)

/-- The port of CFG_A after reset, and the same port with a GET_SAMPLE in progress or a response in its cycle. -/
def portA : PortState := PortState.resetOf Cfg.cfgA (by decide)
def portBusy (n : Nat) : PortState := { portA with core := topState, busy := some { word := 0#34, left := n } }
def portAnswering : PortState := { portA with rspNow := some ⟨.ok, 0#32⟩ }
def present (w : Cmd) : Pins := { rst := false, cmdValid := true, cmd := w }

/-- GET_SAMPLE takes two cycles on CFG_A, so one edge follows its acceptance; the reserved opcode takes one. A word kept
while waiting, and none presented. -/
theorem witness_PortAnswersAfterItsLatency :
    portA.core.Inv ∧ portA.busy = none ∧ portA.out.cmdReady = true ∧ portA.waiting = none ∧
    (∀ q ∈ [present 0x3FFFFFFFF#34], q.rst = false) ∧
    [present 0x3FFFFFFFF#34].length + 1 = latency Cfg.cfgA.timing (decode 0#34) ∧
    ([] : List Pins).length + 1 = latency Cfg.cfgA.timing (decode 0x3FFFFFFFF#34) ∧
    portAnswering.out.cmdReady = false :=
  ⟨inv_of_legal (by decide), rfl, rfl, rfl, by simp [present], by decide, by decide, by decide⟩

theorem witness_PortAcceptsOnlyWhenValidAndReady :
    portA.core.cfg.wf = true ∧ (present 0#34).rst = false ∧ portA.waiting = none ∧
    (portA.busy = none ∧ ({ present 0#34 with cmdValid := false } : Pins).cmdValid = false) ∧
    (portAnswering.busy = none ∧ portAnswering.out.cmdReady = false) ∧
    (1 < 2 ∧ (portBusy 2).busy = some { word := 0#34, left := 2 }) := by decide

/-- The waiting word changes while a command is in progress, and at the edge where the block could have accepted it. -/
theorem witness_ChangingAWaitingCommandIsRefused :
    (∃ p', tick (present 0#34) (portBusy 2) = .next p') ∧ (portBusy 2).out.cmdReady = false ∧
    (∃ p', tick (present 0#34) portAnswering = .next p') ∧ portAnswering.out.cmdReady = false ∧
    (present 0x300000000#34).cmd ≠ (present 0#34).cmd :=
  ⟨⟨_, rfl⟩, by decide, ⟨_, rfl⟩, by decide, by decide⟩

theorem witness_ResetAbandonsTheCommandInProgress :
    (portBusy 1).core.cfg.wf = true ∧ ({ rst := true, cmdValid := true, cmd := 0#34 } : Pins).rst = true := by decide

theorem witness_PortIsReadyAfterReset :
    (portBusy 1).core.cfg.wf = true ∧ (∃ p', tick { rst := true, cmdValid := false, cmd := 0#34 } (portBusy 1) = .next p') ∧
    1 < latency (portBusy 1).core.cfg.timing (decode 0#34) :=
  ⟨by decide, ⟨_, rfl⟩, by decide⟩

/-- The port refuses a word changed while it waits (R71, R186). -/
theorem test_port_broken_handshake :
    ticks [present 0#34, present 0x200000000#34, present 0x300000000#34] portA = .refused .brokenHandshake := by rfl

end Sys2Proof.Tests
end

section
/-! PROOFS. The scope: when a configuration is an instance (R7, R8, R11, R12), its derived constants (R10), what one step does
with the next host input (R13, R70), and exactly when a command runs (R12, R184). -/

namespace Sys2Proof.Machine

/-! ### Steps by the next host input -/

theorem step_of_nil {s : State} (h : s.inbox = []) : step s = onInstance s (.next s) := by
  simp only [step, nextInput, h]

theorem step_of_command {s : State} {w : Cmd} {rest : List HostInput} (h : s.inbox = .command w :: rest) :
    step s = exec (decode w) (s.setInbox rest) := by
  simp only [step, nextInput, h]

theorem step_of_reset {s : State} {rest : List HostInput} (h : s.inbox = .reset :: rest) :
    step s = execReset (s.setInbox rest) := by
  simp only [step, nextInput, h]

/-- Bits from 34 on do not matter, so a command word given as a wider number is that word. -/
theorem tableWordCmd_toNat {nbits : Nat} (h : 34 ≤ nbits) (w : Cmd) : tableWordCmd nbits w.toNat = w := by
  have hw : w.toNat < 2 ^ nbits := lt_of_lt_of_le w.isLt (Nat.pow_le_pow_right (by norm_num) h)
  rw [tableWordCmd, Nat.mod_eq_of_lt hw, BitVec.ofNat_toNat, BitVec.setWidth_eq]

theorem withFetchWord_inbox {nbits : Nat} (h : 34 ≤ nbits) (s : State) (w : Cmd) :
    (s.withFetchWord nbits w.toNat).inbox = .command w :: s.inbox.tail := by
  rw [State.withFetchWord, placeCommand, tableWordCmd_toNat h, State.setInbox_inbox]

/-- Settles O5, by the kind of the next input; a word placed by `withFetchWord` is that next input. -/
theorem stepRunsTheDecodedCommand : Obligations.StepRunsTheDecodedCommand := by
  refine ⟨fun s w rest h => step_of_command h, fun s rest h => step_of_reset h, fun s hw h => ?_, fun s w => ?_⟩
  · rw [step_of_nil h, onInstance_of_wf hw]
  · exact step_of_command (withFetchWord_inbox (by norm_num) s w)

/-! ### When a command runs -/

/-- A command refuses exactly on a state that is not legal, and the configuration decides which refusal it is (R12, R184). -/
theorem exec_refused_iff (i : Instr) (s : State) (r : Refusal) :
    exec i s = .refused r ↔ s.legal = false ∧ r = (if s.cfg.wf then .notReset else .notAnInstance) := by
  cases h : s.legal with
  | true =>
    obtain ⟨s', hs⟩ := exec_next_of_legal h i
    simp [hs]
  | false =>
    rw [exec_of_not_legal h]
    exact ⟨fun hr => ⟨rfl, (Host.Outcome.refused.inj hr).symm⟩, fun ⟨_, hr⟩ => congrArg _ hr.symm⟩

/-- A command goes on exactly on a state that meets the invariant of R23. -/
theorem exec_next_iff_inv (i : Instr) (s : State) : (∃ s', exec i s = .next s') ↔ s.Inv := by
  rw [← legal_iff_inv]
  exact ⟨fun ⟨_, h⟩ => legal_of_exec_next h, fun h => exec_next_of_legal h i⟩

theorem exec_notAnInstance_iff (i : Instr) (s : State) : exec i s = .refused .notAnInstance ↔ s.cfg.wf = false := by
  rw [exec_refused_iff]
  cases hw : s.cfg.wf <;> simp [State.legal, hw]

theorem exec_notReset_iff (i : Instr) (s : State) : exec i s = .refused .notReset ↔ s.cfg.wf = true ∧ ¬ s.Inv := by
  rw [exec_refused_iff, ← legal_iff_inv]
  cases hw : s.cfg.wf <;> simp

/-- Settles O12: the guard of every command is the invariant, and it is the only thing that can refuse. -/
theorem commandsRunExactlyOnLegalStates : Obligations.CommandsRunExactlyOnLegalStates :=
  fun i s => ⟨exec_next_iff_inv i s, exec_notAnInstance_iff i s, exec_notReset_iff i s⟩

/-! ### Derived constants -/

/-- The model's `AW` is the library's ceiling logarithm (R10). -/
theorem indexWidth_eq_clog (L : Nat) : indexWidth L = Nat.clog 2 L := by
  by_cases h : L ≤ 1
  · rw [indexWidth, if_pos h, Nat.clog_of_right_le_one h]
  · refine eq_of_forall_ge_iff fun w => ?_
    rw [indexWidth, if_neg h, Nat.clog_le_iff_le_pow Nat.one_lt_two, Nat.succ_le_iff, Nat.log2_lt (by omega)]
    omega

/-- `of_nat` is `fl` on the naturals (R86). -/
theorem F32.ofNat_eq_fl (n : Nat) : F32.ofNat n = F32.fl (n : Rat) := by
  have h : ¬ (n : Rat) < 0 := not_lt.mpr n.cast_nonneg
  simp only [F32.ofNat, F32.fl, h, decide_false, Rat.num_natCast, Rat.den_natCast, Int.natAbs_natCast]

theorem F32.val_ofNat {n : Nat} (h : n ≤ 2 ^ 24) : F32.val (F32.ofNat n) = (n : Rat) := by
  rw [F32.val_eq_iff, F32.scaled_ofNat h]; push_cast; rfl

/-- Settles O43: `L <= 2^24` is in the range where `of_nat` is exact, and `AW` is the ceiling logarithm. -/
theorem derivedConstantsOfAnInstance : Obligations.DerivedConstantsOfAnInstance := by
  refine ⟨fun c h => ?_, ?_, ?_, ?_⟩
  · obtain ⟨-, hL⟩ := cfg_bounds h
    rw [Cfg.aw, indexWidth_eq_clog]
    exact ⟨F32.isFinite_ofNat (lt_of_le_of_lt hL (by norm_num)), F32.val_ofNat hL, F32.ofNat_eq_fl _,
      Nat.le_pow_clog Nat.one_lt_two _, fun w hw => Nat.clog_le_of_le_pow hw⟩
  · exact (indexWidth_eq_clog (2 ^ 2)).trans (Nat.clog_pow 2 2 Nat.one_lt_two)
  · exact (indexWidth_eq_clog (2 ^ 6)).trans (Nat.clog_pow 2 6 Nat.one_lt_two)
  · exact (indexWidth_eq_clog (2 ^ 24)).trans (Nat.clog_pow 2 24 Nat.one_lt_two)

/-! ### What is not an instance, and that nothing runs on it -/

/-- R11 unpacked. -/
theorem Timing.wf_iff (t : Timing) : t.wf = true ↔ 0 < t.tPull ∧ 0 < t.tSetf ∧ 0 < t.tInfo := by
  simp [Sys2Proof.Timing.wf, and_assoc]

/-- R12 unpacked: the table of R7, the sample rate of R8, the timing of R11. -/
theorem Cfg.wf_iff (c : Cfg) :
    c.wf = true ↔ (4 ≤ c.table.length ∧ c.table.length ≤ 2 ^ 24 ∧ ∀ w ∈ c.table, F32.isFinite w = true) ∧
      c.sr ≠ 0#32 ∧ 0 < c.timing.tPull ∧ 0 < c.timing.tSetf ∧ 0 < c.timing.tInfo := by
  simp only [Sys2Proof.Cfg.wf, Bool.and_eq_true, decide_eq_true_eq, Memory.wf_iff, Timing.wf_iff, and_assoc]

/-- The ways in which a configuration fails to be an instance (R7, R8, R11, R12). -/
theorem Cfg.wf_eq_false_iff (c : Cfg) :
    c.wf = false ↔ (c.table.length < 4 ∨ 2 ^ 24 < c.table.length ∨ (∃ w ∈ c.table, F32.isFinite w = false) ∨
      c.sr = 0x00000000#32 ∨ c.timing.tPull = 0 ∨ c.timing.tSetf = 0 ∨ c.timing.tInfo = 0) := by
  rw [← Bool.not_eq_true, Cfg.wf_iff]
  simp only [not_and_or, not_forall, not_le, not_lt, ne_eq, not_not, Nat.le_zero, Bool.not_eq_true, exists_prop, or_assoc]

theorem exec_of_not_wf {s : State} (h : s.cfg.wf = false) (i : Instr) : exec i s = .refused .notAnInstance :=
  (exec_notAnInstance_iff i s).mpr h

theorem execReset_of_not_wf {s : State} (h : s.cfg.wf = false) : execReset s = .refused .notAnInstance :=
  onInstance_of_not_wf h _

/-- Not even the idle step exists on what is not an instance (R12). -/
theorem step_of_not_wf {s : State} (h : s.cfg.wf = false) : step s = .refused .notAnInstance := by
  match hq : s.inbox with
  | [] => rw [step_of_nil hq, onInstance_of_not_wf h]
  | .command w :: rest => exact (step_of_command hq).trans (exec_of_not_wf (s := s.setInbox rest) h _)
  | .reset :: rest => exact (step_of_reset hq).trans (execReset_of_not_wf (s := s.setInbox rest) h)

theorem tick_of_not_wf {p : PortState} (h : p.core.cfg.wf = false) (q : Pins) : tick q p = .refused .notAnInstance :=
  onInstance_of_not_wf h _

theorem exactExec_of_not_wf {s : ExactState} (h : s.cfg.wf = false) (i : Instr) : exactExec i s = .refused .notAnInstance := by
  cases i with
  | getSample => exact onExactLegal_of_not_wf h _
  | setFrequency f => exact onExactLegal_of_not_wf h _
  | getInfo sel => exact onExactLegal_of_not_wf h _
  | reserved => exact onExactLegal_of_not_wf h _

/-- Settles O50: every way in goes through the guard of R12, and the guard's failures are the negation of R7, R8 and R11. -/
theorem onlyInstancesAreBuiltAndRun : Obligations.OnlyInstancesAreBuiltAndRun :=
  ⟨fun _ h => build_of_wf h, fun _ h => build_of_not_wf h,
    fun _ h => ⟨step_of_not_wf h, execReset_of_not_wf h, exec_of_not_wf h⟩,
    fun _ q h => tick_of_not_wf h q, fun i _ h => exactExec_of_not_wf h i, Cfg.wf_eq_false_iff⟩

end Sys2Proof.Machine
end

section
/-! PROOFS. The registers and their invariant (R21 to R23, R31): what one step that goes on can do, what reset leaves, the
frame of every command, and who writes which register. -/

namespace Sys2Proof.Machine

/-! ### Reset -/

/-- Reset gives a state of R23, whatever the registers held before (R31, R180). -/
theorem applyReset_inv {s : State} (h : s.cfg.wf = true) : s.applyReset.Inv := by
  obtain ⟨hL, -⟩ := cfg_bounds h
  have hphase : phaseOk s.cfg.table.length 0x00000000#32 = true := phaseOk_zero (by omega)
  have hinc : F32.isFinite 0x00000000#32 = true := by decide
  exact (legal_iff_inv _).mp ((legal_iff _).mpr ⟨h, hphase, hinc⟩)

/-- The initial state of an instance is one that a reset leaves, so it meets R23. -/
theorem resetOf_inv (c : Cfg) (h : c.wf = true) : (State.resetOf c h).Inv :=
  applyReset_inv (s := State.resetOf c h) h

/-- Settles O6: the initial state by its fields, and the RESET step through the guard of R12 alone. -/
theorem resetClearsRegistersKeepsConstants : Obligations.ResetClearsRegistersKeepsConstants := by
  refine ⟨fun c h => ⟨State.resetOf_phase c h, State.resetOf_inc c h, State.resetOf_cfg c h⟩, fun s rest hw hq => ?_⟩
  calc step s = execReset (s.setInbox rest) := step_of_reset hq
    _ = .next (s.setInbox rest).applyReset := execReset_of_wf (s := s.setInbox rest) hw

/-- Settles O7: `State.reset` is the reset state of the instance CFG_A. -/
theorem resetMeetsTheInvariant : Obligations.ResetMeetsTheInvariant :=
  ⟨resetOf_inv _ _, resetOf_inv⟩

/-! ### What one step can do -/

/-- The three kinds of step that go on: the idle one, a RESET, a command word (R75, R70, R170). -/
theorem step_next_cases {s s' : State} (h : step s = .next s') :
    s' = s ∨
    (∃ rest, s.inbox = .reset :: rest ∧ s.cfg.wf = true ∧ s' = (s.setInbox rest).applyReset) ∨
    (∃ w rest, s.inbox = .command w :: rest ∧ exec (decode w) (s.setInbox rest) = .next s') := by
  have hw : s.cfg.wf = true := by
    by_contra hn
    rw [step_of_not_wf (Bool.eq_false_iff.mpr hn)] at h
    cases h
  match hq : s.inbox with
  | [] =>
    rw [step_of_nil hq, onInstance_of_wf hw] at h
    exact .inl (Host.Outcome.next.inj h).symm
  | .reset :: rest =>
    rw [step_of_reset hq, execReset_of_wf (s := s.setInbox rest) hw] at h
    exact .inr (.inl ⟨rest, rfl, hw, (Host.Outcome.next.inj h).symm⟩)
  | .command w :: rest => exact .inr (.inr ⟨w, rest, rfl, (step_of_command hq).symm.trans h⟩)

/-- A command that goes on ends in a state of R23: `ADVANCE` wraps into `[0, L)` with sign bit 0, and only a finite increment
is stored. -/
theorem exec_keeps_inv {i : Instr} {s s' : State} (h : exec i s = .next s') : s'.Inv :=
  (legal_iff_inv s').mp (exec_keeps_legal h)

/-- Settles O8, by the kind of the step. -/
theorem everyStepKeepsTheInvariant : Obligations.EveryStepKeepsTheInvariant := by
  refine ⟨resetOf_inv, fun s s' hs h => ?_⟩
  rcases step_next_cases h with rfl | ⟨rest, -, hw, rfl⟩ | ⟨w, rest, -, hx⟩
  · exact hs
  · exact applyReset_inv (s := s.setInbox rest) hw
  · exact exec_keeps_inv hx

/-! ### Frames -/

/-- What every command leaves unchanged, and that it answers once (R21, R22, R41, R66). -/
theorem exec_frame {i : Instr} {s s' : State} (h : exec i s = .next s') :
    s'.cfg = s.cfg ∧ s'.inbox = s.inbox ∧ ∃ r : Response, s'.rsps = s.rsps ++ [r] := by
  rcases exec_next_cases h with ⟨-, out, rfl⟩ | ⟨f, v, -, -, rfl⟩ | ⟨-, st, d, rfl⟩ <;> exact ⟨rfl, rfl, _, rfl⟩

/-- A command that changes `phase` is GET_SAMPLE (R21). -/
theorem getSample_of_phase_ne {i : Instr} {s s' : State} (h : exec i s = .next s') (hp : s'.phase ≠ s.phase) :
    i = .getSample := by
  rcases exec_next_cases h with ⟨hi, -⟩ | ⟨f, v, -, -, rfl⟩ | ⟨-, st, d, rfl⟩
  · exact hi
  · exact absurd rfl hp
  · exact absurd rfl hp

/-- A command that changes `inc` is a SET_FREQUENCY that answers OK (R22, R112). -/
theorem setFrequency_ok_of_inc_ne {i : Instr} {s s' : State} (h : exec i s = .next s') (hi : s'.inc ≠ s.inc) :
    ∃ f, i = .setFrequency f ∧ s'.rsps = s.rsps ++ [{ status := .ok, data := 0x00000000#32 }] := by
  rcases exec_next_cases h with ⟨-, out, rfl⟩ | ⟨f, v, hf, -, rfl⟩ | ⟨-, st, d, rfl⟩
  · exact absurd rfl hi
  · exact ⟨f, hf, rfl⟩
  · exact absurd rfl hi

/-- Settles O13: the table is part of the configuration, and each register has one writer. -/
theorem commandsLeaveTheRestUnchanged : Obligations.CommandsLeaveTheRestUnchanged := by
  intro i s s' h
  obtain ⟨hcfg, hinbox, hrsps⟩ := exec_frame h
  refine ⟨hcfg, fun a => by rw [hcfg], hinbox, hrsps, fun hi => ?_, fun hi => ?_⟩
  · by_contra hp
    exact hi (getSample_of_phase_ne h hp)
  · by_contra hc
    obtain ⟨f, hf, -⟩ := setFrequency_ok_of_inc_ne h hc
    exact hi f hf

/-! ### Who writes the registers -/

/-- A command word is its opcode field followed by its operand field (R60). -/
theorem commandWord_opField_operandField (w : Cmd) : commandWord (opField w) (operandField w) = w :=
  (BitVec.extractLsb'_append_extractLsb'_eq_extractLsb' (Nat.zero_add 32).symm).trans BitVec.extractLsb'_eq_self

/-- The words that decode to GET_SAMPLE are those with opcode `00` (R61, R62). -/
theorem exists_operand_of_decode_getSample {w : Cmd} (h : decode w = .getSample) : ∃ x : Word, w = 0b00#2 ++ x := by
  have hop : opField w = 0b00#2 := by
    unfold decode at h
    split_ifs at h with h0
    exact h0
  exact ⟨operandField w, by rw [← hop]; exact (commandWord_opField_operandField w).symm⟩

/-- A word that decodes to SET_FREQUENCY has opcode `01` and carries the operand (R61, R63). -/
theorem eq_append_of_decode_setFrequency {w : Cmd} {f : Word} (h : decode w = .setFrequency f) : w = 0b01#2 ++ f := by
  obtain ⟨hop, hf⟩ : opField w = 0b01#2 ∧ operandField w = f := by
    unfold decode at h
    split_ifs at h with h0 h1
    exact ⟨h1, Instr.setFrequency.inj h⟩
  rw [← hop, ← hf]
  exact (commandWord_opField_operandField w).symm

/-- Settles O14, by the kind of the step: a command that changes a register is the register's writer, and the word it came
from has the writer's opcode. -/
theorem onlyTheirWritersChangeRegisters : Obligations.OnlyTheirWritersChangeRegisters := by
  intro s s' h
  rcases step_next_cases h with rfl | ⟨rest, hq, -, -⟩ | ⟨w, rest, hq, hx⟩
  · exact ⟨fun hp => absurd rfl hp, fun hi => absurd rfl hi⟩
  · exact ⟨fun _ => ⟨rest, .inl hq⟩, fun _ => ⟨rest, .inl hq⟩⟩
  · constructor
    · intro hp
      obtain ⟨x, rfl⟩ := exists_operand_of_decode_getSample (getSample_of_phase_ne hx hp)
      exact ⟨rest, .inr ⟨x, hq⟩⟩
    · intro hi
      obtain ⟨f, hf, hr⟩ := setFrequency_ok_of_inc_ne hx hi
      obtain rfl := eq_append_of_decode_setFrequency hf
      exact ⟨rest, .inr ⟨f, hq, hr⟩⟩

end Sys2Proof.Machine
end

section
/-! PROOFS. The table memory: the four indices of a pull (R43, R44), and that no read of a word that does not exist ever
happens, so nothing faults (R45, R162). -/

namespace Sys2Proof.Machine

/-! ### The tap indices -/

/-- The index as an integer: the mathematical modulo of R43. -/
theorem natCast_tapIndex {L : Nat} (hL : 0 < L) (k : Nat) (d : Int) : (tapIndex L k d : Int) = ((k : Int) + d) % (L : Int) :=
  Int.toNat_of_nonneg (Int.emod_nonneg _ (by omega))

/-- Two offsets less than `L` apart give different indices: equal indices would make `L` divide the difference. -/
theorem tapIndex_ne {L : Nat} (k : Nat) {d e : Int} (hde : d < e) (hL : e - d < L) : tapIndex L k d ≠ tapIndex L k e := by
  intro h
  have hmod : ((k : Int) + d) % (L : Int) = ((k : Int) + e) % (L : Int) := by
    rw [← natCast_tapIndex (by omega), ← natCast_tapIndex (by omega), h]
  have hdvd : (L : Int) ∣ e - d := by
    rw [← add_sub_add_left_eq_sub e d (k : Int)]
    exact Int.ModEq.dvd hmod
  have hle := Int.le_of_dvd (sub_pos.mpr hde) hdvd
  omega

/-- Settles O37: the offsets `-1`, `0`, `1`, `2` lie at most 3 apart, and `L` is at least 4. -/
theorem tapIndicesAreInRangeAndDistinct : Obligations.TapIndicesAreInRangeAndDistinct := by
  refine ⟨fun L k hL _ => ?_, by decide, by decide, by decide, by decide⟩
  have hlt (d : Int) : tapIndex L k d < L := tapIndex_lt (by omega) k d
  have hne {d e : Int} (h : d < e ∧ e - d < 4) : tapIndex L k d ≠ tapIndex L k e := tapIndex_ne k h.1 (by omega)
  exact ⟨hlt _, hlt _, hlt _, hlt _, hne (by decide), hne (by decide), hne (by decide), hne (by decide), hne (by decide),
    hne (by decide)⟩

/-! ### Nothing faults -/

/-- A legal state's table has all four words of a pull, so the command goes on; any other state refuses it (R44, R164). -/
theorem exec_ne_fault (i : Instr) (s : State) (e : Fault) : exec i s ≠ .fault e := by
  cases h : s.legal with
  | true =>
    obtain ⟨s', hs⟩ := exec_next_of_legal h i
    simp [hs]
  | false => simp [exec_of_not_legal h]

/-- The guard of R12 alone can only refuse. -/
theorem onInstance_next_ne_fault {σ : Type} (s : State) (t : σ) (e : Fault) : onInstance s (.next t) ≠ .fault e := by
  cases h : s.cfg.wf with
  | true => simp [onInstance_of_wf h]
  | false => simp [onInstance_of_not_wf h]

/-- Every step is the idle one, a RESET or a command, and none of the three faults. -/
theorem step_ne_fault (s : State) (e : Fault) : step s ≠ .fault e := by
  match hq : s.inbox with
  | [] => rw [step_of_nil hq]; exact onInstance_next_ne_fault _ _ e
  | .reset :: rest => rw [step_of_reset hq]; exact onInstance_next_ne_fault _ _ e
  | .command w :: rest => rw [step_of_command hq]; exact exec_ne_fault _ _ e

/-- Settles O11: the command's own read of the table always succeeds where the command runs at all. -/
theorem noStepEverFaults : Obligations.NoStepEverFaults :=
  ⟨step_ne_fault, exec_ne_fault⟩

end Sys2Proof.Machine
end

section
/-! PROOFS. The command words (R60 to R65, R69): what the decoder reads of a word by its opcode, and that encoding and decoding
undo each other on the bits a command reads. -/

namespace Sys2Proof.Machine

/-! ### The decoder by opcode -/

theorem opField_cases (w : Cmd) : opField w = 0b00#2 ∨ opField w = 0b01#2 ∨ opField w = 0b10#2 ∨ opField w = 0b11#2 :=
  (by decide : ∀ b : BitVec 2, b = 0b00#2 ∨ b = 0b01#2 ∨ b = 0b10#2 ∨ b = 0b11#2) (opField w)

theorem decode_of_op_getSample {w : Cmd} (h : opField w = 0b00#2) : decode w = .getSample := by simp [decode, h]

theorem decode_of_op_setFrequency {w : Cmd} (h : opField w = 0b01#2) : decode w = .setFrequency (operandField w) := by
  simp [decode, h]

theorem decode_of_op_getInfo {w : Cmd} (h : opField w = 0b10#2) : decode w = .getInfo (Selector.ofBits (selField w)) := by
  simp [decode, h]

theorem decode_of_op_reserved {w : Cmd} (h : opField w = 0b11#2) : decode w = .reserved := by simp [decode, h]

/-- A word decodes to a command of its own opcode (R61). -/
theorem opcodeOf_decode (w : Cmd) : opcodeOf (decode w) = opField w := by
  rcases opField_cases w with h | h | h | h
  · rw [decode_of_op_getSample h, h, opcodeOf]
  · rw [decode_of_op_setFrequency h, h, opcodeOf]
  · rw [decode_of_op_getInfo h, h, opcodeOf]
  · rw [decode_of_op_reserved h, h, opcodeOf]

/-! ### Selectors and fields -/

@[simp] theorem ofBits_toBits (sel : Selector) : Selector.ofBits sel.toBits = sel := by cases sel <;> rfl

@[simp] theorem toBits_ofBits : ∀ b : BitVec 2, (Selector.ofBits b).toBits = b := by decide

theorem ofBits_inj {a b : BitVec 2} : Selector.ofBits a = Selector.ofBits b ↔ a = b :=
  (Function.LeftInverse.injective toBits_ofBits).eq_iff

@[simp] theorem opField_commandWord (op : BitVec 2) (x : Word) : opField (commandWord op x) = op :=
  (Laws.OpField.commandWord_fields op x).1

@[simp] theorem operandField_commandWord (op : BitVec 2) (x : Word) : operandField (commandWord op x) = x :=
  (Laws.OpField.commandWord_fields op x).2

/-- The selector is the low end of the operand (R64). -/
theorem selField_eq_setWidth (w : Cmd) : selField w = (operandField w).setWidth 2 := by
  apply BitVec.eq_of_toNat_eq
  simp only [selField, operandField, BitVec.extractLsb'_toNat, BitVec.toNat_setWidth, Nat.shiftRight_zero]
  omega

/-- A GET_INFO reads the two low bits of its operand, so the selector written back is the operand with the others cleared. -/
theorem setWidth_selField (w : Cmd) : (selField w).setWidth 32 = operandField w &&& 3#32 := by
  apply BitVec.eq_of_toNat_eq
  rw [selField_eq_setWidth, BitVec.toNat_and, BitVec.toNat_setWidth, BitVec.toNat_setWidth]
  calc (operandField w).toNat % 2 ^ 2 % 2 ^ 32 = (operandField w).toNat % 2 ^ 2 := by omega
    _ = (operandField w).toNat &&& 3 := (Nat.and_two_pow_sub_one_eq_mod _ 2).symm

/-- Masking a word with the whole opcode masks its operand. -/
theorem and_commandWord (w : Cmd) (m : Word) : w &&& commandWord 0b11#2 m = commandWord (opField w) (operandField w &&& m) := by
  have hop : opField w &&& 0b11#2 = opField w := BitVec.and_allOnes
  calc w &&& commandWord 0b11#2 m = commandWord (opField w) (operandField w) &&& commandWord 0b11#2 m := by
        rw [commandWord_opField_operandField]
    _ = commandWord (opField w &&& 0b11#2) (operandField w &&& m) := BitVec.and_append
    _ = commandWord (opField w) (operandField w &&& m) := by rw [hop]

/-! ### The round trip -/

/-- Encoding loses nothing a command holds. -/
theorem decode_encode (i : Instr) : decode (encode i) = i := by
  have hop : opField (encode i) = opcodeOf i := opField_commandWord _ _
  have hx : operandField (encode i) = operandOf i := operandField_commandWord _ _
  cases i with
  | getSample => exact decode_of_op_getSample hop
  | setFrequency f => rw [decode_of_op_setFrequency hop, hx, operandOf]
  | getInfo sel =>
    have hsel : selField (encode (.getInfo sel)) = sel.toBits := by
      rw [selField_eq_setWidth, hx, operandOf, BitVec.setWidth_setWidth_of_le _ (by decide), BitVec.setWidth_eq]
    rw [decode_of_op_getInfo hop, hsel, ofBits_toBits]
  | reserved => exact decode_of_op_reserved hop

/-- The operand bits a command reads (R61 to R65). -/
def usedOperandBits : Instr → Word
  | .getSample      => 0#32
  | .setFrequency _ => 0xFFFFFFFF#32
  | .getInfo _      => 3#32
  | .reserved       => 0#32

/-- The operand written back is the operand read, with the ignored bits cleared (R62, R64). -/
theorem operandOf_decode (w : Cmd) : operandOf (decode w) = operandField w &&& usedOperandBits (decode w) := by
  rcases opField_cases w with h | h | h | h
  · rw [decode_of_op_getSample h, operandOf, usedOperandBits, BitVec.and_zero]
  · rw [decode_of_op_setFrequency h, operandOf, usedOperandBits]
    exact BitVec.and_allOnes.symm
  · rw [decode_of_op_getInfo h, operandOf, usedOperandBits, toBits_ofBits, setWidth_selField]
  · rw [decode_of_op_reserved h, operandOf, usedOperandBits, BitVec.and_zero]

/-- Encoding what was decoded keeps the opcode and the operand bits the command reads, and clears the others. -/
theorem encode_decode (w : Cmd) : encode (decode w) = w &&& commandWord 0b11#2 (usedOperandBits (decode w)) := by
  rw [and_commandWord, encode, opcodeOf_decode, operandOf_decode]

/-- Words are one command exactly when they agree on the opcode and on the operand bits that opcode lets the command read. -/
theorem decode_eq_decode_iff (w w' : Cmd) :
    decode w = decode w' ↔ opField w = opField w' ∧ (opField w = 0b01#2 → operandField w = operandField w') ∧
      (opField w = 0b10#2 → selField w = selField w') := by
  by_cases hop : opField w = opField w'
  · rcases opField_cases w with h | h | h | h
    · simp [decode_of_op_getSample h, decode_of_op_getSample (hop ▸ h), ← hop, h]
    · simp [decode_of_op_setFrequency h, decode_of_op_setFrequency (hop ▸ h), ← hop, h]
    · simp [decode_of_op_getInfo h, decode_of_op_getInfo (hop ▸ h), ← hop, h, ofBits_inj]
    · simp [decode_of_op_reserved h, decode_of_op_reserved (hop ▸ h), ← hop, h]
  · have hne : decode w ≠ decode w' := fun h => hop (by rw [← opcodeOf_decode w, h, opcodeOf_decode])
    exact iff_of_false hne fun h => hop h.1

/-- Settles O3: the opcode decides which bits are read, and on those the two directions undo each other. -/
theorem decodeEncodeRoundTrip : Obligations.DecodeEncodeRoundTrip := by
  refine ⟨fun i _ => decode_encode i, fun w => ?_, decode_eq_decode_iff⟩
  rw [encode_decode]
  congr 1
  change _ = if opField w = 0b01#2 then _ else if opField w = 0b10#2 then _ else _
  rcases opField_cases w with h | h | h | h
  · rw [decode_of_op_getSample h, h, usedOperandBits]; decide
  · rw [decode_of_op_setFrequency h, h, usedOperandBits]; decide
  · rw [decode_of_op_getInfo h, h, usedOperandBits]; decide
  · rw [decode_of_op_reserved h, h, usedOperandBits]; decide

/-- Settles O1: the ten words, each decoded. -/
theorem writtenOutWordsDecode : Obligations.WrittenOutWordsDecode := by
  unfold Obligations.WrittenOutWordsDecode
  decide

/-- Settles O2, by the opcode and, for GET_INFO, the selector. -/
theorem decodeReadsOpAndOperand : Obligations.DecodeReadsOpAndOperand := by
  have hinfo {w : Cmd} {b : BitVec 2} (hop : opField w = 0b10#2) (hsel : selField w = b) :
      decode w = .getInfo (Selector.ofBits b) := hsel ▸ decode_of_op_getInfo hop
  exact fun w => ⟨decode_of_op_getSample, decode_of_op_setFrequency, hinfo, hinfo, hinfo, hinfo, decode_of_op_reserved⟩

end Sys2Proof.Machine
end

section
/-! PROOFS. The responses (R51, R66, R67): a command answers once, a queue of inputs runs to its end, and what each opcode can
answer. -/

namespace Sys2Proof.Machine

/-! ### One response per command word -/

/-- A command word on a state of R23: the step goes on, takes the word and appends one response (R66). -/
theorem step_command_of_inv {s : State} {w : Cmd} {rest : List HostInput} (hs : s.Inv) (hq : s.inbox = .command w :: rest) :
    ∃ (s' : State) (r : Response), step s = .next s' ∧ s'.cfg = s.cfg ∧ s'.inbox = rest ∧ s'.rsps = s.rsps ++ [r] := by
  have hl : (s.setInbox rest).legal = true := (legal_iff_inv s).mpr hs
  obtain ⟨s', hx⟩ := exec_next_of_legal hl (decode w)
  obtain ⟨hcfg, hinbox, r, hr⟩ := exec_frame hx
  exact ⟨s', r, (step_of_command hq).trans hx, hcfg, hinbox, hr⟩

/-- Settles O9: the response word is `{status, data}` as a command word is `{op, operand}`, so its fields read back alike. -/
theorem everyCommandAnswersExactlyOnce : Obligations.EveryCommandAnswersExactlyOnce := by
  refine ⟨fun s w rest hs hq => ?_, fun r => Laws.OpField.commandWord_fields r.status.code r.data⟩
  obtain ⟨s', r, hstep, -, hinbox, hr⟩ := step_command_of_inv hs hq
  exact ⟨s', r, hstep, hr, hinbox⟩

/-! ### A whole queue -/

/-- Any one input on a state of R23: the step goes on, takes the input, keeps the invariant, and answers a command word alone. -/
theorem step_input_of_inv {s : State} {h : HostInput} {rest : List HostInput} (hs : s.Inv) (hq : s.inbox = h :: rest) :
    ∃ s' : State, step s = .next s' ∧ s'.Inv ∧ s'.inbox = rest ∧ s'.cfg = s.cfg ∧
      ∃ rs : List Response, s'.rsps = s.rsps ++ rs ∧ rs.length = [h].countP (fun h => h != .reset) := by
  cases h with
  | command w =>
    obtain ⟨s', r, hstep, hcfg, hinbox, hr⟩ := step_command_of_inv hs hq
    exact ⟨s', hstep, everyStepKeepsTheInvariant.2 s s' hs hstep, hinbox, hcfg, [r], hr, by simp⟩
  | reset =>
    have hstep : step s = .next (s.setInbox rest).applyReset :=
      (step_of_reset hq).trans (execReset_of_wf (s := s.setInbox rest) hs.instanceOk)
    exact ⟨_, hstep, everyStepKeepsTheInvariant.2 s _ hs hstep, rfl, rfl, [], (List.append_nil _).symm, by simp⟩

theorem run_succ_of_next {s s' : State} (h : step s = .next s') (k : Nat) : core.run (k + 1) s = core.run k s' := by
  have hcore : core.step s = .next s' := h
  simp only [Host.Core.run, hcore]

/-- Settles O10, by induction on the host's queue. -/
theorem everyInputSequenceRunsToItsEnd : Obligations.EveryInputSequenceRunsToItsEnd := by
  intro s hs
  induction hq : s.inbox generalizing s with
  | nil => exact ⟨s, rfl, hs, hq, rfl, [], (List.append_nil _).symm, rfl⟩
  | cons h rest ih =>
    obtain ⟨s1, hstep, hs1, hq1, hcfg1, rs1, hrs1, hlen1⟩ := step_input_of_inv hs hq
    obtain ⟨s2, hrun, hs2, hq2, hcfg2, rs2, hrs2, hlen2⟩ := ih s1 hs1 hq1
    refine ⟨s2, (run_succ_of_next hstep _).trans hrun, hs2, hq2, hcfg2.trans hcfg1, rs1 ++ rs2, ?_, ?_⟩
    · rw [hrs2, hrs1, List.append_assoc]
    · rw [List.length_append, hlen1, hlen2, ← List.countP_append, List.singleton_append]

/-! ### What each opcode can answer -/

/-- GET_INFO answers OK or NONE (R140). -/
theorem infoResponse_status (c : Cfg) (sel : Selector) : (infoResponse c sel).status = .ok ∨ (infoResponse c sel).status = .none := by
  rw [infoResponse]
  cases streamProperty c sel with
  | some v => exact .inl rfl
  | none => exact .inr rfl

/-- What a command that goes on answers, by opcode: OK from the three commands that have it, NONE from GET_INFO, and the two
errors from the opcodes of R151, each with data 0 and no other change (R67, R152, R161). -/
theorem exec_next_status {i : Instr} {s s' : State} {r : Response} (h : exec i s = .next s') (hr : s'.rsps = s.rsps ++ [r]) :
    (opcodeOf i ≠ 0b11#2 ∧ r.status = .ok) ∨ (opcodeOf i = 0b10#2 ∧ r.status = .none) ∨
    (opcodeOf i = 0b01#2 ∧ r.status = .badFrequency ∧ r.data = 0x00000000#32 ∧ s' = s.respond .badFrequency 0x00000000#32) ∨
    (opcodeOf i = 0b11#2 ∧ r.status = .illegalCommand ∧ r.data = 0x00000000#32 ∧
      s' = s.respond .illegalCommand 0x00000000#32) := by
  have hl := legal_of_exec_next h
  have hlast {t : State} {st : Status} {d : Word} (ht : exec i s = .next (t.respond st d)) (hrs : t.rsps = s.rsps) :
      s' = t.respond st d ∧ r = { status := st, data := d } := by
    have hs : s' = t.respond st d := Host.Outcome.next.inj (h.symm.trans ht)
    rw [hs, State.respond_rsps, hrs] at hr
    exact ⟨hs, (List.singleton_inj.mp (List.append_cancel_left hr)).symm⟩
  cases i with
  | getSample =>
    obtain ⟨y, -, hy⟩ := execGetSample_of_legal hl
    obtain ⟨-, rfl⟩ := hlast hy rfl
    exact .inl ⟨by decide, rfl⟩
  | setFrequency f =>
    have hf := execSetFrequency_of_legal hl f
    split at hf
    · obtain ⟨-, rfl⟩ := hlast hf rfl
      exact .inl ⟨by simp [opcodeOf], rfl⟩
    · obtain ⟨hs, rfl⟩ := hlast hf rfl
      exact .inr (.inr (.inl ⟨rfl, rfl, rfl, hs⟩))
  | getInfo sel =>
    obtain ⟨-, rfl⟩ := hlast (execGetInfo_of_legal hl sel) rfl
    exact (infoResponse_status s.cfg sel).imp (⟨by simp [opcodeOf], ·⟩) (.inl ⟨rfl, ·⟩)
  | reserved =>
    obtain ⟨hs, rfl⟩ := hlast (execReserved_of_legal hl) rfl
    exact .inr (.inr (.inr ⟨rfl, rfl, rfl, hs⟩))

/-- Settles O15: the word's opcode field is its command's opcode, and an error only appends its response. -/
theorem statusesComeFromTheirOpcodes : Obligations.StatusesComeFromTheirOpcodes := by
  intro s s' w rest r hq hstep hr
  have hx : exec (decode w) (s.setInbox rest) = .next s' := (step_of_command hq).symm.trans hstep
  have hop : opcodeOf (decode w) = w.extractLsb' 32 2 := opcodeOf_decode w
  rw [← hop]
  rcases exec_next_status hx hr with ⟨h, hst⟩ | ⟨h, hst⟩ | ⟨h, hst, hd, rfl⟩ | ⟨h, hst, hd, rfl⟩
  · simp [h, hst, Status.isError]
  · simp [h, hst, Status.isError]
  · simp [h, hst, hd, Status.isError]
  · simp [h, hst, hd, Status.isError]

end Sys2Proof.Machine
end

section
/-! PROOFS. The assembler (R74, R75): the conversion of a decimal real, and what each line expands to. -/

namespace Sys2Proof.Machine

/-- Rounding a signed quotient of naturals other than 0 is `fl` of the rational it is (R83): the fraction need not be in lowest
terms. -/
theorem F32.round_eq_fl (neg : Bool) {n d : Nat} (hn : 0 < n) (hd : 0 < d) :
    F32.round neg (n * F32.scale) d = F32.fl ((if neg then -1 else 1) * (n : Rat) / d) := by
  have hpos : (0 : Rat) < n / d := div_pos (Nat.cast_pos.mpr hn) (Nat.cast_pos.mpr hd)
  set x : Rat := (if neg then -1 else 1) * (n : Rat) / d with hx
  have hsign : decide (x < 0) = neg := by
    cases neg with
    | true => simpa [hx, neg_div] using hpos
    | false => simpa [hx] using hpos.le
  have habs : |x| = n / d := by
    cases neg with
    | true => rw [hx, if_pos rfl, neg_one_mul, neg_div, abs_neg, abs_of_pos hpos]
    | false => rw [hx, if_neg Bool.false_ne_true, one_mul, abs_of_pos hpos]
  have hratio : n * x.den = x.num.natAbs * d := by
    have h : (x.num.natAbs : Rat) / x.den = n / d := by
      rw [← habs, Rat.abs_def, Rat.divInt_eq_div, Int.cast_natCast, Int.cast_natCast]
    rw [div_eq_div_iff (by exact_mod_cast x.den_ne_zero) (by exact_mod_cast hd.ne')] at h
    exact_mod_cast h.symm
  rw [F32.fl, F32.round, F32.round, hsign, F32.roundMag_congr hd x.den_pos]
  rw [Nat.mul_right_comm, hratio, Nat.mul_right_comm]

theorem decode_commandWord_getSample (x : Word) : decode (commandWord 0b00#2 x) = .getSample :=
  decode_of_op_getSample (opField_commandWord _ x)

theorem decode_commandWord_setFrequency (x : Word) : decode (commandWord 0b01#2 x) = .setFrequency x := by
  rw [decode_of_op_setFrequency (opField_commandWord _ x), operandField_commandWord]

/-- The word of a GET_INFO line with a numbered selector is `{0b10, n}` (R74). -/
theorem commandWord_getInfo_number {n : Nat} (h : n < 4) :
    commandWord 0b10#2 (BitVec.ofNat 32 n) = BitVec.ofNat 34 (2 * 2 ^ 32 + n) := by
  interval_cases n <;> decide

theorem assemble_of_wf {ls : List AsmLine} (h : ∀ l ∈ ls, l.wf = true) : assemble ls = some (ls.map AsmLine.expand).flatten := by
  rw [assemble, if_pos (List.all_eq_true.mpr h), List.flatMap_def]

theorem assemble_of_not_wf {ls : List AsmLine} (h : ∃ l ∈ ls, l.wf = false) : assemble ls = none := by
  rw [assemble, if_neg]
  obtain ⟨l, hl, hwf⟩ := h
  intro hall
  rw [List.all_eq_true.mp hall l hl] at hwf
  cases hwf

/-- Settles O4: a decimal real through `F32.round_eq_fl`, every line by its expansion. -/
theorem assemblerLinesMeanTheirCommands : Obligations.AssemblerLinesMeanTheirCommands := by
  refine ⟨fun neg d p hd => ?decimal, fun neg p => ?zero, fun w hw => Nat.mod_eq_of_lt hw,
    fun f => ⟨_, rfl, decode_commandWord_setFrequency _⟩, fun sel => ⟨_, rfl, decode_encode (.getInfo sel)⟩,
    fun n hn => ?number, ⟨rfl, decode_commandWord_getSample 0#32⟩, fun w hw => ⟨_, rfl, Nat.mod_eq_of_lt hw⟩,
    fun _ => rfl, rfl, rfl, fun _ => assemble_of_wf, fun _ => assemble_of_not_wf, fun _ => decide_eq_true_iff,
    fun _ => decide_eq_true_iff, fun _ => decide_eq_true_iff⟩
  case decimal =>
    rw [FreqArg.toWord, F32.round_eq_fl neg hd (Nat.pow_pos (by norm_num))]
    push_cast
    rfl
  case zero =>
    rw [FreqArg.toWord, Nat.zero_mul, F32.round_zero neg (Nat.pow_pos (by norm_num))]
    cases neg <;> rfl
  case number => rw [AsmLine.expand, InfoArg.toWord, commandWord_getInfo_number hn]

end Sys2Proof.Machine
end

section
/-! PROOFS. The clocked port (R71, R186): the edges at which nothing is accepted, what the port remembers of a host that waits,
and a command from its acceptance to the cycle after its response. -/

namespace Sys2Proof.Machine

/-! ### One edge -/

/-- The pins while a command is in progress (R71). -/
theorem out_of_busy {p : PortState} {b : InProgress} (hb : p.busy = some b) (hr : p.rspNow = none) :
    p.out = { cmdReady := false, rspValid := false, rsp := none } := by
  simp [PortState.out, ready_of_busy hb, hr]

/-- The pins while the block idles (R71, R170). -/
theorem out_of_idle {p : PortState} (hb : p.busy = none) (hr : p.rspNow = none) :
    p.out = { cmdReady := true, rspValid := false, rsp := none } := by
  simp [PortState.out, ready_of_idle hb hr, hr]

/-- A word presented and not accepted is the one to keep. -/
theorem heldWord_of_not_accepted {q : Pins} {p : PortState} (h : q.cmdValid = false ∨ p.ready = false) :
    heldWord q p = if q.cmdValid = true then some q.cmd else none := by
  rcases h with h | h <;> simp [heldWord, h]

/-- An edge of an idle block with `cmd_valid` or `cmd_ready` 0. -/
theorem tick_of_not_accepted {q : Pins} {p : PortState} (hw : p.core.cfg.wf = true) (hr : q.rst = false)
    (hs : breaksHandshake q p = false) (hb : p.busy = none) (h : q.cmdValid = false ∨ p.ready = false) :
    tick q p = .next { core := p.core, busy := none, rspNow := none,
                       waiting := if q.cmdValid = true then some q.cmd else none } := by
  have hna : ¬ (q.cmdValid && p.ready) = true := by rcases h with h | h <;> simp [h]
  simp only [tick_of_run hw hr hs, hb, idleEdge, if_neg hna, heldWord_of_not_accepted h]

/-- An edge of a command in progress before its last (R71). -/
theorem tick_of_busy {q : Pins} {p : PortState} {w : Cmd} {n : Nat} (hw : p.core.cfg.wf = true) (hr : q.rst = false)
    (hs : breaksHandshake q p = false) (hb : p.busy = some { word := w, left := n }) (hn : 1 < n) :
    tick q p = .next { core := p.core, busy := some { word := w, left := n - 1 }, rspNow := none,
                       waiting := if q.cmdValid = true then some q.cmd else none } := by
  simp only [tick_of_run hw hr hs, hb, advanceCommand, if_neg (not_le.mpr hn), heldWord_of_not_ready (ready_of_busy hb)]

/-- The last edge of a command in progress. -/
theorem tick_of_busy_last {q : Pins} {p : PortState} {w : Cmd} (hw : p.core.cfg.wf = true) (hr : q.rst = false)
    (hs : breaksHandshake q p = false) (hb : p.busy = some { word := w, left := 1 }) : tick q p = finishCommand q p w := by
  simp only [tick_of_run hw hr hs, hb, advanceCommand, le_refl, if_true]

/-- The edge that accepts a command, on a legal state (R71). -/
theorem tick_of_accepted {q : Pins} {p : PortState} (hl : p.core.legal = true) (hr : q.rst = false)
    (hs : breaksHandshake q p = false) (hb : p.busy = none) (hv : q.cmdValid = true) (hready : p.ready = true) :
    tick q p = advanceCommand q p q.cmd (latency p.core.cfg.timing (decode q.cmd)) := by
  have ha : (q.cmdValid && p.ready) = true := by simp [hv, hready]
  simp only [tick_of_run ((legal_iff _).mp hl).1 hr hs, hb, idleEdge, if_pos ha, onLegal_of_legal hl]

/-- Settles O54, by whether a command is in progress. -/
theorem portAcceptsOnlyWhenValidAndReady : Obligations.PortAcceptsOnlyWhenValidAndReady := by
  intro p q hw hr hkeep
  have hs : breaksHandshake q p = false := (breaksHandshake_eq_false_iff q p).mpr hkeep
  refine ⟨fun hb h => ⟨_, tick_of_not_accepted hw hr hs hb h, rfl, rfl, out_of_idle rfl rfl, rfl⟩, fun w n hn hb => ?_⟩
  exact ⟨_, tick_of_busy hw hr hs hb hn, rfl, rfl, out_of_busy rfl rfl, rfl⟩

/-! ### A host that changes its word -/

theorem wf_of_tick_next {q : Pins} {p p' : PortState} (h : tick q p = .next p') : p.core.cfg.wf = true := by
  by_contra hn
  rw [tick_of_not_wf (Bool.eq_false_iff.mpr hn)] at h
  cases h

theorem keeps_of_tick_next {q : Pins} {p p' : PortState} (h : tick q p = .next p') (hr : q.rst = false) :
    breaksHandshake q p = false := by
  by_contra hs
  rw [tick_of_broken (wf_of_tick_next h) hr (Bool.eq_true_of_not_eq_false hs)] at h
  cases h

theorem finishCommand_waiting {q : Pins} {p p' : PortState} {w : Cmd} (h : finishCommand q p w = .next p') :
    p'.waiting = heldWord q p := by
  unfold finishCommand at h
  split at h <;> cases h
  rfl

theorem advanceCommand_waiting {q : Pins} {p p' : PortState} {w : Cmd} {n : Nat} (h : advanceCommand q p w n = .next p') :
    p'.waiting = heldWord q p := by
  unfold advanceCommand at h
  split at h
  · exact finishCommand_waiting h
  · cases h
    rfl

theorem eq_next_of_onLegal {σ : Type} {s : State} {r : Host.Outcome σ Fault Refusal} {t : σ} (h : onLegal s r = .next t) :
    r = .next t := by
  cases hl : s.legal with
  | true => exact (onLegal_of_legal hl r).symm.trans h
  | false =>
    rw [onLegal_of_not_legal hl] at h
    cases h

theorem idleEdge_waiting {q : Pins} {p p' : PortState} (h : idleEdge q p = .next p') : p'.waiting = heldWord q p := by
  unfold idleEdge at h
  split at h
  · exact advanceCommand_waiting (eq_next_of_onLegal h)
  · cases h
    rfl

/-- Every edge without a reset remembers the word that was presented and not accepted, and no other (R71, R186). -/
theorem tick_waiting {q : Pins} {p p' : PortState} (h : tick q p = .next p') (hr : q.rst = false) :
    p'.waiting = heldWord q p := by
  rw [tick_of_run (wf_of_tick_next h) hr (keeps_of_tick_next h hr)] at h
  split at h
  · exact advanceCommand_waiting h
  · exact idleEdge_waiting h

/-- Settles O55: the edge before remembers the word, and the word at the next edge is another. -/
theorem changingAWaitingCommandIsRefused : Obligations.ChangingAWaitingCommandIsRefused := by
  intro p p' q q' hr hv hready h hr' hv' hne
  have hw' : p'.core.cfg.wf = true := tick_keeps_cfg h ▸ wf_of_tick_next h
  have hwait : p'.waiting = some q.cmd := by rw [tick_waiting h hr, heldWord_of_not_ready hready, if_pos hv]
  refine tick_of_broken hw' hr' ?_
  simp [breaksHandshake, hwait, hv', hne]

/-! ### A command from acceptance to its response -/

/-- At the edge after one that accepts nothing, the host presents the same word again or none (R71, R186). -/
def Pins.Follows (q q' : Pins) : Prop := q.cmdValid = true → q'.cmdValid = true → q'.cmd = q.cmd

/-- From `p` on, the host keeps its duties at the edges `ps`, none of which accepts: no reset, and a word it waits with is kept. -/
def KeepsDuties (p : PortState) (ps : List Pins) : Prop :=
  (∀ q ∈ ps, q.rst = false) ∧ (∀ q ∈ ps.head?, breaksHandshake q p = false) ∧ ps.IsChain Pins.Follows

theorem breaksHandshake_of_follows {q q' : Pins} {p : PortState} (h : q.Follows q')
    (hp : p.waiting = if q.cmdValid = true then some q.cmd else none) : breaksHandshake q' p = false := by
  rw [breaksHandshake_eq_false_iff, hp]
  intro w hw hv'
  split at hw
  · rename_i hv
    exact (h hv hv').trans (Option.some.inj hw)
  · cases hw

/-- The duties at the first edge, and at the later ones from the state it leaves. -/
theorem keepsDuties_cons {p : PortState} {q : Pins} {qs : List Pins} (h : KeepsDuties p (q :: qs)) :
    q.rst = false ∧ breaksHandshake q p = false ∧
      ∀ p' : PortState, (p'.waiting = if q.cmdValid = true then some q.cmd else none) → KeepsDuties p' qs := by
  obtain ⟨hrst, hhead, hchain⟩ := h
  obtain ⟨hfirst, hrest⟩ := List.isChain_cons.mp hchain
  refine ⟨hrst q List.mem_cons_self, hhead q rfl, fun p' hp' => ⟨fun q' hq' => hrst q' (List.mem_cons_of_mem _ hq'), ?_, hrest⟩⟩
  exact fun q' hq' => breaksHandshake_of_follows (hfirst q' hq') hp'

/-- A port that has no word to keep, and a host that keeps its word from one edge to the next. -/
theorem keepsDuties_of_waiting_none {p : PortState} {ps : List Pins} (hp : p.waiting = none) (hrst : ∀ q ∈ ps, q.rst = false)
    (hkeep : ∀ (k : Nat) (q q' : Pins), ps[k]? = some q → ps[k + 1]? = some q' → q.cmdValid = true → q'.cmdValid = true →
      q'.cmd = q.cmd) : KeepsDuties p ps := by
  refine ⟨hrst, fun q _ => (breaksHandshake_eq_false_iff q p).mpr (by simp [hp]), List.isChain_iff_getElem.mpr fun k hk => ?_⟩
  exact hkeep k _ _ (List.getElem?_eq_getElem (by omega)) (List.getElem?_eq_getElem hk)

theorem ticks_cons_of_next {q : Pins} {p p' : PortState} (h : tick q p = .next p') (qs : List Pins) :
    ticks (q :: qs) p = ticks qs p' := by
  rw [ticks, h]

/-- The block that has just accepted `w`, with `n` cycles left until its response cycle. -/
def PortState.startCommand (p : PortState) (w : Cmd) (n : Nat) : PortState :=
  { p with busy := some { word := w, left := n }, rspNow := none, waiting := none }

/-- The accepting edge of a command of more than one cycle. -/
theorem advanceCommand_of_ready {q : Pins} {p : PortState} (hready : p.ready = true) (w : Cmd) {n : Nat} (hn : 0 < n) :
    advanceCommand q p w (n + 1) = .next (p.startCommand w n) := by
  rw [advanceCommand, if_neg (by omega), heldWord_of_ready hready, Nat.add_sub_cancel, PortState.startCommand]

/-- Before its last edge a command in progress shows nothing and changes no register. -/
theorem ticks_take_of_busy {w : Cmd} {ps : List Pins} {p : PortState} {k : Nat} (hw : p.core.cfg.wf = true)
    (hb : p.busy = some { word := w, left := ps.length }) (hr : p.rspNow = none) (hd : KeepsDuties p ps) (hk : k < ps.length) :
    ∃ p' : PortState, ticks (ps.take k) p = .next p' ∧ p'.out = { cmdReady := false, rspValid := false, rsp := none } ∧
      p'.core = p.core := by
  induction ps generalizing p k with
  | nil => cases hk
  | cons q qs ih =>
    cases k with
    | zero => exact ⟨p, rfl, out_of_busy hb hr, rfl⟩
    | succ k =>
      have hk : k < qs.length := Nat.lt_of_succ_lt_succ hk
      obtain ⟨hrst, hs, hd'⟩ := keepsDuties_cons hd
      have htick := tick_of_busy hw hrst hs hb (by rw [List.length_cons]; omega)
      rw [List.take_succ_cons, ticks_cons_of_next htick]
      exact ih hw rfl rfl (hd' _ rfl) hk

/-- The command `w` executed on `s`, and its response shown. -/
def Answers (w : Cmd) (s : State) (p' : PortState) : Prop :=
  ∃ r : Response, exec (decode w) s = .next p'.core ∧ p'.core.rsps = s.rsps ++ [r] ∧ p'.busy = none ∧ p'.rspNow = some r

theorem finishCommand_answers {q : Pins} {p : PortState} (hl : p.core.legal = true) (w : Cmd) :
    ∃ p' : PortState, finishCommand q p w = .next p' ∧ Answers w p.core p' := by
  obtain ⟨s', r, hx, hrsps, hf⟩ := finishCommand_of_legal (q := q) hl w
  exact ⟨_, hf, r, hx, hrsps, rfl, rfl⟩

/-- At its last edge a command in progress is executed and answered. -/
theorem ticks_of_busy {w : Cmd} {ps : List Pins} {p : PortState} (hl : p.core.legal = true)
    (hb : p.busy = some { word := w, left := ps.length }) (hd : KeepsDuties p ps) (hne : ps ≠ []) :
    ∃ p' : PortState, ticks ps p = .next p' ∧ Answers w p.core p' := by
  have hw := ((legal_iff _).mp hl).1
  induction ps generalizing p with
  | nil => exact absurd rfl hne
  | cons q qs ih =>
    obtain ⟨hrst, hs, hd'⟩ := keepsDuties_cons hd
    cases qs with
    | nil =>
      obtain ⟨p', hf, ha⟩ := finishCommand_answers (q := q) hl w
      have htick : tick q p = .next p' := (tick_of_busy_last hw hrst hs hb).trans hf
      exact ⟨p', ticks_cons_of_next htick [], ha⟩
    | cons q2 qs =>
      have htick := tick_of_busy hw hrst hs hb (by simp)
      rw [ticks_cons_of_next htick]
      exact ih hl rfl (hd' _ rfl) (List.cons_ne_nil _ _) hw

/-- In the cycle after the response, unless a command is accepted in between, the block is ready and shows no response. -/
theorem tick_of_answers {w : Cmd} {s : State} {p' : PortState} {q : Pins} (ha : Answers w s p') (hr : q.rst = false)
    (hkeep : ∀ w', p'.waiting = some w' → q.cmdValid = true → q.cmd = w') (h : q.cmdValid = false ∨ p'.ready = false) :
    ∃ p'' : PortState, tick q p' = .next p'' ∧ p''.out = { cmdReady := true, rspValid := false, rsp := none } ∧
      p''.core = p'.core := by
  obtain ⟨r, hx, -, hb, -⟩ := ha
  have hw : p'.core.cfg.wf = true := (exec_keeps_inv hx).instanceOk
  have hs := (breaksHandshake_eq_false_iff q p').mpr hkeep
  exact ⟨_, tick_of_not_accepted hw hr hs hb h, out_of_idle rfl rfl, rfl⟩

/-- A port that accepts `w` at the edge `q` and, with the host's duties kept at the edges `ps` after it, has its last edge at the
end of them. -/
theorem ticks_of_accepted {q : Pins} {ps : List Pins} {p : PortState} (hl : p.core.legal = true)
    (htick : tick q p = advanceCommand q p q.cmd (ps.length + 1)) (hd : KeepsDuties (p.startCommand q.cmd ps.length) ps)
    (hready : p.ready = true) :
    (∀ k < ps.length, ∃ p' : PortState, ticks (q :: ps.take k) p = .next p' ∧
      p'.out = { cmdReady := false, rspValid := false, rsp := none } ∧ p'.core = p.core) ∧
    ∃ p' : PortState, ticks (q :: ps) p = .next p' ∧ Answers q.cmd p.core p' := by
  by_cases hps : ps = []
  · subst hps
    obtain ⟨p', hf, ha⟩ := finishCommand_answers (q := q) hl q.cmd
    have hlast : tick q p = .next p' := htick.trans hf
    exact ⟨fun k hk => absurd hk (Nat.not_lt_zero k), p', ticks_cons_of_next hlast [], ha⟩
  · have hstart : tick q p = .next (p.startCommand q.cmd ps.length) :=
      htick.trans (advanceCommand_of_ready hready q.cmd (List.length_pos_iff.mpr hps))
    simp only [ticks_cons_of_next hstart]
    exact ⟨fun k hk => ticks_take_of_busy (p := p.startCommand q.cmd ps.length) ((legal_iff _).mp hl).1 rfl rfl hd hk,
      ticks_of_busy (p := p.startCommand q.cmd ps.length) hl rfl hd hps⟩

/-- Settles O48: the accepting edge is followed by the edges the host waits, and the response is that of the last of them. -/
theorem portAnswersAfterItsLatency : Obligations.PortAnswersAfterItsLatency := by
  intro p w ps hinv hb hready hwait hrst hkeep hlen
  have hl : p.core.legal = true := (legal_iff_inv _).mpr hinv
  have hs : breaksHandshake { rst := false, cmdValid := true, cmd := w } p = false :=
    (breaksHandshake_eq_false_iff _ p).mpr fun w' hw' _ => (hwait w' hw').symm
  have htick : tick { rst := false, cmdValid := true, cmd := w } p = advanceCommand _ p w (ps.length + 1) :=
    hlen ▸ tick_of_accepted hl rfl hs hb rfl hready
  have hd : KeepsDuties (p.startCommand w ps.length) ps := keepsDuties_of_waiting_none rfl hrst hkeep
  obtain ⟨hbefore, p', hticks, ha⟩ := ticks_of_accepted hl htick hd hready
  have hafter (q : Pins) := tick_of_answers (q := q) ha
  obtain ⟨r, hx, hrsps, hb', hr⟩ := ha
  exact ⟨hbefore, p', r, hticks, hx, hrsps, hb', by simp [PortState.out, hr], by simp [PortState.out, hr, Response.word],
    hafter⟩

end Sys2Proof.Machine
end

section
/-! PROOFS. Rounding over the rationals (R83): what `fl` does to sign and magnitude, that it is nearest, ties to even and
monotone, its thresholds, and its error in units in the last place. -/

namespace Sys2Proof.Machine.F32

/-! ### Sign and magnitude of a value -/

theorem scale_pos_rat : (0 : Rat) < scale := by exact_mod_cast scale_pos

theorem val_mul_scale (w : Word) : val w * scale = scaled w := ((val_eq_iff w _).mp rfl).symm

theorem abs_val (w : Word) : |val w| = (magOf (low w) : Rat) / scale := by
  rw [val, abs_div, abs_of_pos scale_pos_rat, ← mag_eq_magOf, ← natAbs_scaled, Nat.cast_natAbs, Int.cast_abs]

theorem val_eq_zero_iff (w : Word) : val w = 0 ↔ isZero w = true := by
  rw [val_eq_iff, zero_mul, Int.cast_eq_zero, isZero_iff_scaled]

theorem abs_val_le_iff (v w : Word) : |val v| ≤ |val w| ↔ low v ≤ low w := by
  rw [abs_val, abs_val, div_le_div_iff_of_pos_right scale_pos_rat, Nat.cast_le, magOf_le_iff]

theorem val_of_signBit_false {w : Word} (h : signBit w = false) : val w = |val w| := by
  rw [eq_comm, abs_eq_self, val_nonneg_iff, scaled_nonneg_of_signBit h]
  exact Int.natCast_nonneg _

theorem val_of_signBit_true {w : Word} (h : signBit w = true) : val w = -|val w| := by
  have hs : scaled (neg w) = mag w := by rw [scaled_nonneg_of_signBit (by rw [signBit_neg, h]; rfl), mag_neg]
  have hv : val (neg w) = -val w := by rw [val, val, scaled_neg]; push_cast; ring
  have h0 : 0 ≤ val (neg w) := by rw [val_nonneg_iff, hs]; exact Int.natCast_nonneg _
  rw [abs_of_nonpos (by linarith), neg_neg]

/-! ### What `fl` answers -/

/-- The magnitude of a rational, in units of `2^-149`, is the fraction that `fl` rounds. -/
theorem abs_mul_scale (x : Rat) : |x| * scale * x.den = (x.num.natAbs * scale : Nat) := by
  have h : |x| * x.den = x.num.natAbs := by
    rw [← Nat.abs_cast x.den, ← abs_mul, Rat.mul_den_eq_num, Nat.cast_natAbs, Int.cast_abs]
  rw [Nat.cast_mul, ← h]; ring

theorem signBit_fl (x : Rat) : signBit (fl x) = decide (x < 0) := signBit_round _ x.den_pos

theorem low_fl (x : Rat) : low (fl x) = roundMag (x.num.natAbs * scale) x.den :=
  low_pack _ (roundMag_lt_pack _ _ x.den_pos)

/-- Every rounding of the model is `fl` of the rational whose magnitude, in units of `2^-149`, it is given (R83). -/
theorem round_eq_fl_of_abs {x : Rat} {n d : Nat} (hd : 0 < d) (h : |x| * scale * d = n) : round (decide (x < 0)) n d = fl x := by
  have key : n * x.den = x.num.natAbs * scale * d := by
    have := abs_mul_scale x
    have hc : ((n * x.den : Nat) : Rat) = ((x.num.natAbs * scale * d : Nat) : Rat) := by
      rw [Nat.cast_mul, Nat.cast_mul _ d, ← this, ← h]; ring
    exact_mod_cast hc
  rw [fl, round, round, roundMag_congr hd x.den_pos key]

theorem isFinite_fl_iff (x : Rat) : isFinite (fl x) = true ↔ |x| < 2 ^ 128 - 2 ^ 103 := by
  have hd : (0 : Rat) < x.den := by exact_mod_cast x.den_pos
  rw [fl, isFinite_round _ x.den_pos, ← Nat.cast_lt (α := Rat), ← abs_mul_scale, overflowAt, Nat.cast_mul, Nat.cast_mul,
    mul_lt_mul_iff_of_pos_right hd, mul_lt_mul_iff_of_pos_right scale_pos_rat]
  norm_num

/-- The larger magnitude rounds to the larger one. -/
theorem low_fl_mono {x y : Rat} (h : |x| ≤ |y|) : low (fl x) ≤ low (fl y) := by
  rw [low_fl, low_fl]
  refine roundMag_mono x.den_pos y.den_pos ?_
  have hc : ((x.num.natAbs * scale * y.den : Nat) : Rat) ≤ ((y.num.natAbs * scale * x.den : Nat) : Rat) := by
    rw [Nat.cast_mul _ y.den, Nat.cast_mul _ x.den, ← abs_mul_scale, ← abs_mul_scale, mul_right_comm _ _ (y.den : Rat),
      mul_right_comm _ _ (x.den : Rat), mul_right_comm _ _ (x.den : Rat)]
    have : |x| * scale ≤ |y| * scale := mul_le_mul_of_nonneg_right h scale_pos_rat.le
    nlinarith [mul_le_mul_of_nonneg_right this (mul_nonneg x.den.cast_nonneg y.den.cast_nonneg : (0 : Rat) ≤ x.den * y.den)]
  exact_mod_cast hc

/-- A finite word's value rounds to a word of its magnitude. -/
theorem low_fl_val {w : Word} (h : isFinite w = true) : low (fl (val w)) = low w := by
  have hn : |val w| * scale * (1 : Nat) = (magOf (low w) : Nat) := by
    rw [abs_val, div_mul_cancel₀ _ scale_ne_zero, Nat.cast_one, mul_one]
  rw [← round_eq_fl_of_abs Nat.one_pos hn, round, roundMag_magOf (low_lt_of_isFinite h).le, low_pack _ (low_lt w)]

theorem isZero_eq_false_iff (w : Word) : isZero w = false ↔ val w ≠ 0 := by
  rw [ne_eq, val_eq_zero_iff, Bool.not_eq_true]

/-- A value of the format is kept (R83(a)). -/
theorem fl_val {w : Word} (h : isFinite w = true) (h0 : isZero w = false) : fl (val w) = w := by
  have hs : signBit (fl (val w)) = signBit w := by
    have hv := (isZero_eq_false_iff w).mp h0
    rw [signBit_fl]
    cases hb : signBit w with
    | false => rw [val_of_signBit_false hb]; simp
    | true => rw [val_of_signBit_true hb]; simpa using hv
  rw [← pack_low (fl (val w)), low_fl_val h, hs, pack_low]

/-! ### Nearest, ties to even -/

/-- How far a rational's magnitude is from one of the format, in the units that `roundMag` rounds in. -/
theorem abs_sub_magOf (x : Rat) (b : Nat) :
    |(|x| - (magOf b : Rat) / scale)| =
      (|((x.num.natAbs * scale : Nat) : Int) - (magOf b * x.den : Nat)| : Int) / (x.den * scale : Rat) := by
  have hD : (0 : Rat) < x.den * scale := mul_pos (by exact_mod_cast x.den_pos) scale_pos_rat
  have hb : (magOf b : Rat) / scale * (x.den * scale) = (magOf b * x.den : Nat) := by
    rw [Nat.cast_mul, mul_comm (x.den : Rat), ← mul_assoc, div_mul_cancel₀ _ scale_ne_zero]
  have hx : |x| * (x.den * scale) = (x.num.natAbs * scale : Nat) := by rw [← abs_mul_scale]; ring
  rw [eq_div_iff hD.ne', Int.cast_abs, Int.cast_sub, Int.cast_natCast, Int.cast_natCast, ← hb, ← hx, ← sub_mul, abs_mul,
    abs_of_pos hD]

/-- `fl x` has the sign of `x`, so their distance is that of their magnitudes. -/
theorem abs_sub_val_fl (x : Rat) : |x - val (fl x)| = |(|x| - |val (fl x)|)| := by
  by_cases hx : x < 0
  · rw [val_of_signBit_true ((signBit_fl x).trans (decide_eq_true hx)), abs_neg, abs_abs, abs_of_neg hx, ← abs_neg]
    ring_nf
  · rw [val_of_signBit_false ((signBit_fl x).trans (decide_eq_false hx)), abs_abs, abs_of_nonneg (not_lt.mp hx)]

/-- Among magnitudes the rounded one is nearest, and it is even where another one is as near (R83(b)). -/
theorem fl_nearest_magnitude {x : Rat} (hf : isFinite (fl x) = true) (v : Word) :
    |(|x| - |val (fl x)|)| ≤ |(|x| - |val v|)| ∧
      (|(|x| - |val (fl x)|)| = |(|x| - |val v|)| → |val v| ≠ |val (fl x)| → fracField (fl x) % 2 = 0) := by
  have hlt : x.num.natAbs * scale < overflowAt * x.den := (isFinite_round _ x.den_pos).mp hf
  have hD : (0 : Rat) < x.den * scale := mul_pos (by exact_mod_cast x.den_pos) scale_pos_rat
  obtain ⟨hnear, htie⟩ := roundMag_nearest_of_lt x.den_pos hlt (low v)
  rw [← low_fl] at hnear htie
  rw [abs_val, abs_val, abs_sub_magOf, abs_sub_magOf, div_le_div_iff_of_pos_right hD, div_left_inj' hD.ne']
  refine ⟨by exact_mod_cast hnear, fun heq hne => ?_⟩
  have heven := htie (by exact_mod_cast heq) fun h => hne (by rw [h])
  rw [low] at heven
  omega

/-- R83(b): no finite word is nearer than a finite result. -/
theorem fl_nearest {x : Rat} (hf : isFinite (fl x) = true) (v : Word) : |x - val (fl x)| ≤ |x - val v| := by
  rw [abs_sub_val_fl]
  exact (fl_nearest_magnitude hf v).1.trans (abs_abs_sub_abs_le x (val v))

theorem val_fl_zero : val (fl 0) = 0 := (val_eq_zero_iff _).mpr (by decide)

/-- A word of the same magnitude and the other sign is farther away. -/
theorem abs_add_val_fl_ne (x : Rat) (h : val (fl x) ≠ 0) : |x - val (fl x)| ≠ |x + val (fl x)| := by
  intro heq
  have hsq := (sq_eq_sq_iff_abs_eq_abs _ _).mpr heq
  have hx : x ≠ 0 := by rintro rfl; exact h val_fl_zero
  exact mul_ne_zero hx h (by linarith)

/-- R83(b): where another value of the format is as near as the result, the result is even. -/
theorem fl_even_of_tie {x : Rat} (hf : isFinite (fl x) = true) {v : Word} (heq : |x - val (fl x)| = |x - val v|)
    (hne : val v ≠ val (fl x)) : fracField (fl x) % 2 = 0 := by
  obtain ⟨hnear, htie⟩ := fl_nearest_magnitude hf v
  refine htie (hnear.antisymm ?_) fun habs => ?_
  · rw [← abs_sub_val_fl, heq]; exact abs_abs_sub_abs_le x (val v)
  · have hv : val v = -val (fl x) := (abs_eq_abs.mp habs).resolve_left hne
    have h0 : val (fl x) ≠ 0 := by intro h; rw [h, neg_zero] at hv; exact hne (hv.trans h.symm)
    exact abs_add_val_fl_ne x h0 (by rw [heq, hv, sub_neg_eq_add])

/-! ### The thresholds, and monotony -/

theorem isFinite_fl_eq_false_iff (x : Rat) : isFinite (fl x) = false ↔ (2 : Rat) ^ 128 - 2 ^ 103 ≤ |x| := by
  rw [← Bool.not_eq_true, isFinite_fl_iff, not_lt]

/-- R83(c): from `2^128 - 2^103` on the result is the infinity of the sign of `x`. -/
theorem fl_of_overflow {x : Rat} (h : (2 : Rat) ^ 128 - 2 ^ 103 ≤ |x|) : fl x = infinity (decide (x < 0)) := by
  have hn : ¬ x.num.natAbs * scale < overflowAt * x.den := by
    rw [← isFinite_round (decide (x < 0)) x.den_pos, ← fl, (isFinite_fl_eq_false_iff x).mpr h]
    exact Bool.false_ne_true
  rw [fl, round, roundMag_of_overflow (not_lt.mp hn), infinity]

/-- R83(d): half the least positive value, a tie, and everything below it round to a zero. -/
theorem fl_of_underflow {x : Rat} (h : |x| ≤ 1 / 2 ^ 150) : fl x = zero (decide (x < 0)) := by
  have hhalf : low (fl (1 / 2 ^ 150)) = 0 := by decide +kernel
  have hlow : low (fl x) ≤ low (fl (1 / 2 ^ 150)) := low_fl_mono (by rwa [abs_of_nonneg (by positivity : (0 : Rat) ≤ 1 / 2 ^ 150)])
  rw [← signBit_fl]
  exact eq_zero_of_isZero ((isZero_iff_low _).mpr (by omega))

theorem abs_val_fl_mono {x y : Rat} (h : |x| ≤ |y|) : |val (fl x)| ≤ |val (fl y)| :=
  (abs_val_le_iff _ _).mpr (low_fl_mono h)

/-- Rounding is monotone (R83). -/
theorem val_fl_mono {x y : Rat} (h : x ≤ y) : val (fl x) ≤ val (fl y) := by
  have hneg {z : Rat} (hz : z < 0) : val (fl z) = -|val (fl z)| :=
    val_of_signBit_true ((signBit_fl z).trans (decide_eq_true hz))
  have hpos {z : Rat} (hz : ¬ z < 0) : val (fl z) = |val (fl z)| :=
    val_of_signBit_false ((signBit_fl z).trans (decide_eq_false hz))
  by_cases hx : x < 0
  · rw [hneg hx]
    by_cases hy : y < 0
    · rw [hneg hy, neg_le_neg_iff]
      exact abs_val_fl_mono (by rw [abs_of_neg hx, abs_of_neg hy]; linarith)
    · rw [hpos hy]
      exact (neg_nonpos.mpr (abs_nonneg _)).trans (abs_nonneg _)
  · have hy : ¬ y < 0 := fun hy => hx (h.trans_lt hy)
    rw [hpos hx, hpos hy]
    exact abs_val_fl_mono (by rwa [abs_of_nonneg (not_lt.mp hx), abs_of_nonneg (not_lt.mp hy)])

/-- Settles O31, clause by clause. -/
theorem roundingIsNearestTiesToEven : Obligations.RoundingIsNearestTiesToEven :=
  ⟨fun _ hf h0 => fl_val hf h0, by decide, fun _ v hf _ => ⟨fl_nearest hf v, fl_even_of_tie hf⟩,
    fun x => ⟨isFinite_fl_eq_false_iff x, fl_of_overflow⟩, fun _ _ h => fl_of_underflow h, fun _ _ h _ _ => val_fl_mono h⟩

end Sys2Proof.Machine.F32
end

section
/-! PROOFS. What follows from rounding (R83) for integers (R86) and for the error of a result in units in the last place (R97(e),
R101). -/

namespace Sys2Proof.Machine.F32

/-! ### Integers -/

/-- `of_nat` is exact on every number of at most 24 significant bits (R86). -/
theorem val_ofNat_mul_two_pow {m j : Nat} (hm : m ≤ 2 ^ 24) (h : m * 2 ^ j < 2 ^ 32) :
    val (ofNat (m * 2 ^ j)) = (m : Rat) * 2 ^ j := by
  have hlt : m * 2 ^ (j + 149) < 2 ^ 128 * scale := by
    rw [Nat.pow_add, ← Nat.mul_assoc]
    exact Nat.mul_lt_mul_of_pos_right (h.trans (by norm_num)) scale_pos
  obtain ⟨b, hb, hmag⟩ := exists_finite_magOf hm (j + 149) hlt
  have hn : magOf b * 1 = m * 2 ^ j * scale := by rw [hmag, Nat.pow_add, scale, Nat.mul_one, Nat.mul_assoc]
  rw [val_eq_iff, ofNat, scaled_round _ Nat.one_pos, roundMag_exact Nat.one_pos hb.le hn, ← Nat.mul_one (magOf b), hn]
  push_cast
  rfl

/-- Settles O34: `of_nat` is a rounding with sign `+`, and a number of at most 24 significant bits is a value of the format. -/
theorem ofNatIsTheRoundedInteger : Obligations.OfNatIsTheRoundedInteger :=
  ⟨fun n hn => ⟨ofNat_eq_fl n, signBit_round _ Nat.one_pos, isFinite_ofNat hn⟩, fun _ _ hm h => val_ofNat_mul_two_pow hm h,
    by decide, by decide, by decide, by decide, by decide, by decide⟩

/-! ### The error in units in the last place -/

/-- The exponent that a magnitude was rounded at is at most that of the result: a carry only raises it. -/
theorem roundExp_le_expField {neg : Bool} {n d : Nat} (hd : 0 < d) (h : n < overflowAt * d) :
    roundExp n d + 1 ≤ max 1 (expField (round neg n d)) := by
  have hsig := (roundSig_bounds (n := n) hd).2
  have hr : roundMag n d = roundExp n d * 2 ^ 23 + roundHalfEven n (d * 2 ^ roundExp n d) := by rw [roundMag, if_neg (by omega)]
  rw [round, expField_pack _ (roundMag_lt_pack n d hd), hr]
  omega

/-- The error of a rounded magnitude is at most half a unit in the last place of the result. -/
theorem two_mul_abs_sub_magOf_le {n d : Nat} (neg : Bool) (hd : 0 < d) (h : n < overflowAt * d) :
    2 * |(n : Int) - (magOf (roundMag n d) * d : Nat)| * 2 ≤ d * 2 ^ max 1 (expField (round neg n d)) := by
  have hmag : magOf (roundMag n d) * d = roundHalfEven n (d * 2 ^ roundExp n d) * (d * 2 ^ roundExp n d) := by
    rw [magOf_roundMag hd h]; ring
  have hpow : d * 2 ^ roundExp n d * 2 ≤ d * 2 ^ max 1 (expField (round neg n d)) := by
    rw [Nat.mul_assoc, ← Nat.pow_succ]
    exact Nat.mul_le_mul_left d (Nat.pow_le_pow_right Nat.two_pos (roundExp_le_expField hd h))
  obtain ⟨h1, h2⟩ := roundHalfEven_error (n := n) (Nat.mul_pos hd (Nat.two_pow_pos (roundExp n d)))
  rw [← hmag] at h1 h2
  have herr : 2 * |(n : Int) - (magOf (roundMag n d) * d : Nat)| ≤ (d * 2 ^ roundExp n d : Nat) := by
    rcases abs_cases ((n : Int) - (magOf (roundMag n d) * d : Nat)) with ⟨e, -⟩ | ⟨e, -⟩ <;> omega
  calc 2 * |(n : Int) - (magOf (roundMag n d) * d : Nat)| * 2 ≤ (d * 2 ^ roundExp n d * 2 : Nat) := by push_cast at herr ⊢; linarith
    _ ≤ d * 2 ^ max 1 (expField (round neg n d)) := by exact_mod_cast hpow

/-- A finite result is within half a unit in its last place (R83(b), R97(e)). -/
theorem two_mul_abs_sub_val_fl_le {x : Rat} (hf : isFinite (fl x) = true) :
    2 * |x - val (fl x)| ≤ 2 ^ max 1 (expField (fl x)) / 2 ^ 150 := by
  have hd : (0 : Rat) < x.den := by exact_mod_cast x.den_pos
  have h := two_mul_abs_sub_magOf_le (decide (x < 0)) x.den_pos ((isFinite_round _ x.den_pos).mp hf)
  rw [← fl, ← low_fl] at h
  have hq : ((2 * |((x.num.natAbs * scale : Nat) : Int) - (magOf (low (fl x)) * x.den : Nat)| * 2 : Int) : Rat) ≤
      x.den * 2 ^ max 1 (expField (fl x)) := by exact_mod_cast h
  have hs : (2 : Rat) ^ 150 = scale * 2 := by norm_num [scale]
  rw [abs_sub_val_fl, abs_val, abs_sub_magOf, hs, ← mul_div_assoc, div_le_div_iff₀ (mul_pos hd scale_pos_rat)
    (mul_pos scale_pos_rat two_pos)]
  push_cast at hq ⊢
  nlinarith [mul_le_mul_of_nonneg_right hq scale_pos_rat.le]

/-- The word of `2^k`, for `k` up to 127. -/
theorem low_fl_two_pow {k : Nat} (hk : k ≤ 127) : low (fl (2 ^ k)) = (k + 127) * 2 ^ 23 := by
  have hm : magOf ((k + 127) * 2 ^ 23) = 2 ^ k * scale := by
    rw [show (k + 127) * 2 ^ 23 = (k + 126) * 2 ^ 23 + 2 ^ 23 by ring, magOf_canonical (by norm_num) (.inr le_rfl), scale,
      ← Nat.pow_add, ← Nat.pow_add]
    congr 1; omega
  have hn : |(2 ^ k : Rat)| * scale * (1 : Nat) = (2 ^ k * scale : Nat) := by
    rw [abs_of_pos (by positivity)]; push_cast; ring
  rw [← round_eq_fl_of_abs Nat.one_pos hn, round, roundMag_exact Nat.one_pos (by omega) ((Nat.mul_one _).trans hm), low_pack _ (by omega)]

/-- Up to `2^k` a result is finite, not past `2^k`, and off by at most `2^(k-24)`. -/
theorem fl_of_abs_le_two_pow {k : Nat} (hk : k ≤ 127) {x : Rat} (h : |x| ≤ 2 ^ k) :
    isFinite (fl x) = true ∧ |val (fl x) - x| ≤ 2 ^ k / 2 ^ 24 := by
  have hlow : low (fl x) ≤ (k + 127) * 2 ^ 23 := by
    rw [← low_fl_two_pow hk]
    exact low_fl_mono (by rwa [abs_of_pos (by positivity : (0 : Rat) < 2 ^ k)])
  have hf : isFinite (fl x) = true := (isFinite_iff_low _).mpr (by omega)
  have hexp : max 1 (expField (fl x)) ≤ k + 127 := by rw [low] at hlow; omega
  refine ⟨hf, ?_⟩
  have hpow : (2 : Rat) ^ max 1 (expField (fl x)) ≤ 2 ^ (k + 127) := pow_le_pow_right₀ one_le_two hexp
  have hhalf := two_mul_abs_sub_val_fl_le hf
  rw [abs_sub_comm]
  have : (2 : Rat) ^ (k + 127) / 2 ^ 150 = 2 * (2 ^ k / 2 ^ 24) := by rw [pow_add]; norm_num; ring
  have hdiv := div_le_div_of_nonneg_right hpow (by positivity : (0 : Rat) ≤ 2 ^ 150)
  linarith

end Sys2Proof.Machine.F32
end

section
/-! PROOFS. The four operations (R84, R85): on finite operands the exact result rounded once, with the signs of zero results, and
what infinities and NaNs give. -/

namespace Sys2Proof.Machine.F32

/-! ### Signs -/

theorem decide_val_neg {w : Word} (h : val w ≠ 0) : decide (val w < 0) = signBit w := by
  cases hs : signBit w with
  | false => exact decide_eq_false (not_lt.mpr (val_of_signBit_false hs ▸ abs_nonneg _))
  | true => exact decide_eq_true (lt_of_le_of_ne (val_of_signBit_true hs ▸ neg_nonpos.mpr (abs_nonneg _)) h)

/-- The sign of a product is the exclusive or of the signs (R84). -/
theorem decide_mul_neg {x y : Rat} (hx : x ≠ 0) (hy : y ≠ 0) : decide (x * y < 0) = (decide (x < 0) != decide (y < 0)) := by
  rcases lt_or_gt_of_ne hx with h | h <;> rcases lt_or_gt_of_ne hy with h' | h'
  · simp [h, h', (mul_pos_of_neg_of_neg h h').le]
  · simp [h, not_lt.mpr h'.le, mul_neg_of_neg_of_pos h h']
  · simp [not_lt.mpr h.le, h', mul_neg_of_pos_of_neg h h']
  · simp [not_lt.mpr h.le, not_lt.mpr h'.le, (mul_pos h h').le]

theorem eq_negZero_iff (w : Word) : w = 0x80000000#32 ↔ isZero w = true ∧ signBit w = true := by
  refine ⟨fun h => h ▸ by decide, fun ⟨hz, hs⟩ => ?_⟩
  rw [eq_zero_of_isZero hz, hs]
  decide

theorem isFinite_of_isZero {w : Word} (h : isZero w = true) : isFinite w = true := by
  rw [eq_zero_of_isZero h]; exact isFinite_zero _

theorem isZero_zero (n : Bool) : isZero (zero n) = true := by cases n <;> decide

theorem signBit_zero (n : Bool) : signBit (zero n) = n := signBit_pack n (by norm_num)

/-- A rounded word that is a zero has the sign it was given (R84). -/
theorem round_eq_zero_of_isZero {s : Bool} {n d : Nat} (hd : 0 < d) (h : isZero (round s n d) = true) : round s n d = zero s := by
  rw [eq_zero_of_isZero h, signBit_round s hd]

/-! ### Sums -/

theorem val_neg (w : Word) : val (neg w) = -val w := by
  rw [val, val, scaled_neg]; push_cast; ring

theorem val_add_val (a b : Word) : val a + val b = ((scaled a + scaled b : Int) : Rat) / scale := by
  rw [val, val, ← add_div]; push_cast; rfl

theorem val_add_val_eq_zero_iff (a b : Word) : val a + val b = 0 ↔ scaled a + scaled b = 0 := by
  rw [val_add_val, div_eq_zero_iff, or_iff_left scale_ne_zero, Int.cast_eq_zero]

/-- A sum that is not 0 is rounded once (R84). -/
theorem fadd_eq_fl {a b : Word} (ha : isFinite a = true) (hb : isFinite b = true) (h : val a + val b ≠ 0) :
    fadd a b = fl (val a + val b) := by
  have hsign : decide (scaled a + scaled b < 0) = decide (val a + val b < 0) := by
    rw [decide_eq_decide, val_add_val, div_lt_iff₀ scale_pos_rat, zero_mul, Int.cast_lt_zero]
  have hmag : |val a + val b| * scale * (1 : Nat) = ((scaled a + scaled b).natAbs : Nat) := by
    rw [val_add_val, abs_div, abs_of_pos scale_pos_rat, div_mul_cancel₀ _ scale_ne_zero, Nat.cast_natAbs, Int.cast_abs, Nat.cast_one,
      mul_one]
  rw [fadd_of_finite ha hb, addFinite, if_neg ((val_add_val_eq_zero_iff a b).not.mp h), hsign, round_eq_fl_of_abs Nat.one_pos hmag]

/-- A sum of 0 is `-0` for two negative operands only, which are then both `-0` (R84). -/
theorem fadd_of_sum_zero {a b : Word} (ha : isFinite a = true) (hb : isFinite b = true) (h : val a + val b = 0) :
    fadd a b = zero (signBit a && signBit b) := by
  rw [fadd_of_finite ha hb, addFinite, if_pos ((val_add_val_eq_zero_iff a b).mp h)]

theorem negZeros_of_sum_zero {a b : Word} (h : val a + val b = 0) (hs : (signBit a && signBit b) = true) :
    a = 0x80000000#32 ∧ b = 0x80000000#32 := by
  obtain ⟨hsa, hsb⟩ := Bool.and_eq_true_iff.mp hs
  have ha := val_of_signBit_true hsa
  have hb := val_of_signBit_true hsb
  have h0 : |val a| = 0 ∧ |val b| = 0 := (add_eq_zero_iff_of_nonneg (abs_nonneg _) (abs_nonneg _)).mp (by linarith)
  exact ⟨(eq_negZero_iff a).mpr ⟨(val_eq_zero_iff a).mp (abs_eq_zero.mp h0.1), hsa⟩,
    (eq_negZero_iff b).mpr ⟨(val_eq_zero_iff b).mp (abs_eq_zero.mp h0.2), hsb⟩⟩

theorem fadd_of_sum_zero_eq {a b : Word} (ha : isFinite a = true) (hb : isFinite b = true) (h : val a + val b = 0) :
    fadd a b = if a = 0x80000000#32 ∧ b = 0x80000000#32 then 0x80000000#32 else 0x00000000#32 := by
  rw [fadd_of_sum_zero ha hb h]
  cases hs : signBit a && signBit b with
  | true => rw [if_pos (negZeros_of_sum_zero h hs)]; decide
  | false =>
    rw [if_neg]
    · decide
    · rintro ⟨rfl, rfl⟩; exact absurd hs (by decide)

/-- `fsub(x, x) = +0` (R84). -/
theorem fsub_self {a : Word} (ha : isFinite a = true) : fsub a a = 0x00000000#32 := by
  have h0 : val a + val (neg a) = 0 := by rw [val_neg, add_neg_cancel]
  rw [fsub, fadd_of_sum_zero ha ((isFinite_neg a).trans ha) h0, signBit_neg, Bool.and_not_self]
  decide

/-- The exact sum is a whole number of least positive values, so one that is not 0 does not underflow (R84). -/
theorem sum_ne_zero_bounds {a b : Word} (ha : isFinite a = true) (hb : isFinite b = true) (h : val a + val b ≠ 0) :
    1 / 2 ^ 149 ≤ |val a + val b| ∧ isZero (fadd a b) = false := by
  have hn : scaled a + scaled b ≠ 0 := (val_add_val_eq_zero_iff a b).not.mp h
  have hle : (1 : Rat) / 2 ^ 149 ≤ |val a + val b| := by
    have h1 : (1 : Rat) ≤ |((scaled a + scaled b : Int) : Rat)| := by exact_mod_cast Int.one_le_abs hn
    have hs : (2 : Rat) ^ 149 = scale := by norm_num [scale]
    rw [val_add_val, abs_div, abs_of_pos scale_pos_rat, hs]
    exact div_le_div_of_nonneg_right h1 scale_pos_rat.le
  refine ⟨hle, ?_⟩
  have hleast : low (fl (1 / 2 ^ 149)) = 1 := by decide +kernel
  have hlow : low (fl (1 / 2 ^ 149)) ≤ low (fl (val a + val b)) :=
    low_fl_mono (by rwa [abs_of_nonneg (by positivity : (0 : Rat) ≤ 1 / 2 ^ 149)])
  rw [fadd_eq_fl ha hb h, ← Bool.not_eq_true, isZero_iff_low]
  omega

/-! ### Products and quotients -/

/-- A product that is not 0 is rounded once (R84). -/
theorem fmul_eq_fl {a b : Word} (ha : isFinite a = true) (hb : isFinite b = true) (h : val a * val b ≠ 0) :
    fmul a b = fl (val a * val b) := by
  obtain ⟨h0a, h0b⟩ := mul_ne_zero_iff.mp h
  have hmag : |val a * val b| * scale * scale = (mag a * mag b : Nat) := by
    rw [abs_mul, abs_val, abs_val, ← mag_eq_magOf, ← mag_eq_magOf, Nat.cast_mul, mul_assoc, mul_mul_mul_comm,
      div_mul_cancel₀ _ scale_ne_zero, div_mul_cancel₀ _ scale_ne_zero]
  rw [fmul_of_finite ha hb, ← round_eq_fl_of_abs scale_pos hmag, decide_mul_neg h0a h0b, decide_val_neg h0a, decide_val_neg h0b]

/-- A product of 0 has the exclusive or of the signs (R84). -/
theorem fmul_of_product_zero {a b : Word} (ha : isFinite a = true) (hb : isFinite b = true) (h : val a * val b = 0) :
    fmul a b = zero (signBit a != signBit b) := by
  have hm : mag a * mag b = 0 := by
    rcases mul_eq_zero.mp h with h0 | h0
    · rw [(isZero_iff_mag a).mp ((val_eq_zero_iff a).mp h0), Nat.zero_mul]
    · rw [(isZero_iff_mag b).mp ((val_eq_zero_iff b).mp h0), Nat.mul_zero]
  rw [fmul_of_finite ha hb, hm, round_zero _ scale_pos]

theorem mag_pos {w : Word} (h : val w ≠ 0) : 0 < mag w := by
  have h0 : mag w ≠ 0 := by rwa [ne_eq, ← isZero_iff_mag, ← val_eq_zero_iff]
  exact Nat.pos_of_ne_zero h0

/-- A quotient that is not 0 is rounded once (R84). -/
theorem fdiv_eq_fl {a b : Word} (ha : isFinite a = true) (hb : isFinite b = true) (h0a : val a ≠ 0) (h0b : val b ≠ 0) :
    fdiv a b = fl (val a / val b) := by
  have hmb : (mag b : Rat) ≠ 0 := by exact_mod_cast (mag_pos h0b).ne'
  have hmag : |val a / val b| * scale * mag b = (mag a * scale : Nat) := by
    rw [abs_div, abs_val, abs_val, ← mag_eq_magOf, ← mag_eq_magOf, Nat.cast_mul, div_div_div_cancel_right₀ scale_ne_zero,
      mul_right_comm, div_mul_cancel₀ _ hmb]
  have hsign : decide (val a / val b < 0) = (signBit a != signBit b) := by
    rw [div_eq_mul_inv, decide_mul_neg h0a (inv_ne_zero h0b), decide_val_neg h0a, ← decide_val_neg h0b]
    simp only [inv_lt_zero]
  rw [fdiv_of_finite ha hb ((isZero_eq_false_iff b).mpr h0b), ← round_eq_fl_of_abs (mag_pos h0b) hmag, hsign]

/-- A zero divided by another number is a zero of the exclusive-or sign (R84). -/
theorem fdiv_of_zero_left {a b : Word} (ha : isFinite a = true) (hb : isFinite b = true) (h0a : val a = 0) (h0b : val b ≠ 0) :
    fdiv a b = zero (signBit a != signBit b) := by
  have hm : mag a = 0 := (isZero_iff_mag a).mp ((val_eq_zero_iff a).mp h0a)
  rw [fdiv_of_finite ha hb ((isZero_eq_false_iff b).mpr h0b), hm, Nat.zero_mul, round_zero _ (mag_pos h0b)]

/-- A division by zero (R84): the NaN for zero by zero, else the infinity of the exclusive-or sign. -/
theorem fdiv_of_zero_right {a b : Word} (ha : isFinite a = true) (hb : isFinite b = true) (h0b : val b = 0) :
    fdiv a b = if isZero a then nan else infinity (signBit a != signBit b) := by
  simp [fdiv, not_isNaN_of_isFinite ha, not_isNaN_of_isFinite hb, not_isInf_of_isFinite ha, not_isInf_of_isFinite hb,
    (val_eq_zero_iff b).mp h0b]

theorem isZero_infinity (n : Bool) : isZero (infinity n) = false := by cases n <;> decide

/-- A quotient that is a zero has the exclusive or of the signs, an underflow included (R84). -/
theorem fdiv_eq_zero_of_isZero {a b : Word} (ha : isFinite a = true) (hb : isFinite b = true) (h : isZero (fdiv a b) = true) :
    fdiv a b = zero (signBit a != signBit b) := by
  by_cases h0b : val b = 0
  · rw [fdiv_of_zero_right ha hb h0b] at h
    split at h
    · exact absurd h (by decide)
    · rw [isZero_infinity] at h; cases h
  · rw [fdiv_of_finite ha hb ((isZero_eq_false_iff b).mpr h0b)] at h ⊢
    exact round_eq_zero_of_isZero (mag_pos h0b) h

/-- An exact sum that is a value of the format is the result. -/
theorem val_fadd_of_isValue {a b c : Word} (ha : isFinite a = true) (hb : isFinite b = true) (hc : isFinite c = true)
    (h : val c = val a + val b) : val (fadd a b) = val c :=
  (denotes_fadd ⟨ha, rfl⟩ ⟨hb, rfl⟩ ⟨c, hc, h⟩).2.trans h.symm

/-- Settles O32, by the lemma of each operation. -/
theorem arithmeticRoundsTheExactResultOnce : Obligations.ArithmeticRoundsTheExactResultOnce := by
  intro a b ha hb
  have hnb : isFinite (neg b) = true := (isFinite_neg b).trans hb
  have hza (h : val a ≠ 0) : isZero a = false := (isZero_eq_false_iff a).mpr h
  refine ⟨fadd_eq_fl ha hb, fadd_of_sum_zero_eq ha hb, rfl, hnb, val_neg b, signBit_neg b, fmul_eq_fl ha hb,
    fmul_of_product_zero ha hb, fdiv_eq_fl ha hb, fdiv_of_zero_left ha hb, fun h0a h0b => ?_, fun h0a h0b => ?_, fsub_self ha,
    fun hz h0 => fadd_zero_left hz hb h0, fun c => val_fadd_of_isValue ha hb, fun c hc h => ?_, sum_ne_zero_bounds ha hb,
    fun h => ?_, fdiv_eq_zero_of_isZero ha hb⟩
  · rw [fdiv_of_zero_right ha hb h0b, hza h0a]; rfl
  · rw [fdiv_of_zero_right ha hb h0b, (val_eq_zero_iff a).mp h0a]; rfl
  · exact val_fadd_of_isValue ha hnb hc (by rw [val_neg, h, sub_eq_add_neg])
  · rw [fmul_of_finite ha hb] at h ⊢
    exact round_eq_zero_of_isZero scale_pos h

/-! ### Infinities and NaNs -/

theorem isInf_infinity (n : Bool) : isInf (infinity n) = true := by cases n <;> decide
theorem isNaN_infinity (n : Bool) : isNaN (infinity n) = false := by cases n <;> decide
theorem signBit_infinity (n : Bool) : signBit (infinity n) = n := by cases n <;> decide
theorem isNaN_neg (w : Word) : isNaN (neg w) = isNaN w := by simp [isNaN]

/-- A NaN operand gives the NaN in every operation (R85(a)). -/
theorem nan_of_isNaN {a b : Word} (h : isNaN a = true ∨ isNaN b = true) :
    fadd a b = nan ∧ fsub a b = nan ∧ fmul a b = nan ∧ fdiv a b = nan := by
  rcases h with h | h <;> simp [fadd, fsub, fmul, fdiv, isNaN_neg, h]

/-- An infinity takes a finite operand to itself or to a zero (R85(c)). -/
theorem infinity_with_finite (n : Bool) {x : Word} (hx : isFinite x = true) :
    fadd (infinity n) x = infinity n ∧ fadd x (infinity n) = infinity n ∧
    fdiv (infinity n) x = infinity (n != signBit x) ∧ fdiv x (infinity n) = zero (signBit x != n) := by
  simp [fadd, fdiv, isNaN_infinity, isInf_infinity, signBit_infinity, not_isNaN_of_isFinite hx, not_isInf_of_isFinite hx]

/-- The product of an infinity and a non-zero number is the infinity of the exclusive-or sign (R85(c)). -/
theorem fmul_infinity (n : Bool) {x : Word} (hn : isNaN x = false) (h0 : isZero x = false) :
    fmul (infinity n) x = infinity (n != signBit x) ∧ fmul x (infinity n) = infinity (signBit x != n) := by
  simp [fmul, isNaN_infinity, isInf_infinity, isZero_infinity, signBit_infinity, hn, h0]

theorem isNaN_round (s : Bool) {n d : Nat} (hd : 0 < d) : isNaN (round s n d) = false := by
  have hle := roundMag_le n d hd
  rw [isNaN, round, expField_pack _ (roundMag_lt_pack n d hd), fracField_pack _ (roundMag_lt_pack n d hd)]
  simp only [Bool.and_eq_false_iff, beq_eq_false_iff_ne, bne_eq_false_iff_eq]
  omega

theorem isNaN_of_isInf {w : Word} (h : isInf w = true) : isNaN w = false := by
  simp only [isInf, isNaN, Bool.and_eq_true, beq_iff_eq] at h ⊢
  simp [h]

theorem isNaN_zero (n : Bool) : isNaN (zero n) = false := not_isNaN_of_isFinite (isFinite_zero n)

/-- What is no NaN is no other NaN than `nan` either. -/
theorem eq_nan_of_not_isNaN {w : Word} (h : isNaN w = false) : isNaN w = true → w = nan :=
  fun hn => absurd (h.symm.trans hn) Bool.false_ne_true

/-- A NaN that a sum produces is the NaN (R85(d)). -/
theorem fadd_eq_nan_of_isNaN (a b : Word) : isNaN (fadd a b) = true → fadd a b = nan := by
  unfold fadd
  split_ifs with _ ha _ hb
  · exact fun _ => rfl
  · exact fun _ => rfl
  · exact eq_nan_of_not_isNaN (isNaN_of_isInf ha)
  · exact eq_nan_of_not_isNaN (isNaN_of_isInf hb)
  · refine eq_nan_of_not_isNaN ?_
    unfold addFinite
    split_ifs
    · exact isNaN_zero _
    · exact isNaN_round _ Nat.one_pos

/-- A NaN that a product produces is the NaN (R85(d)). -/
theorem fmul_eq_nan_of_isNaN (a b : Word) : isNaN (fmul a b) = true → fmul a b = nan := by
  unfold fmul
  split_ifs
  · exact fun _ => rfl
  · exact fun _ => rfl
  · exact eq_nan_of_not_isNaN (isNaN_infinity _)
  · exact eq_nan_of_not_isNaN (isNaN_round _ scale_pos)

/-- A NaN that a quotient produces is the NaN (R85(d)). -/
theorem fdiv_eq_nan_of_isNaN (a b : Word) : isNaN (fdiv a b) = true → fdiv a b = nan := by
  unfold fdiv
  split_ifs with _ _ _ _ hb
  · exact fun _ => rfl
  · exact fun _ => rfl
  · exact eq_nan_of_not_isNaN (isNaN_infinity _)
  · exact eq_nan_of_not_isNaN (isNaN_zero _)
  · exact fun _ => rfl
  · exact eq_nan_of_not_isNaN (isNaN_infinity _)
  · exact eq_nan_of_not_isNaN (isNaN_round _ (Nat.pos_of_ne_zero fun h0 => hb ((isZero_iff_mag b).mpr h0)))

/-- Settles O33: clause (b) is about finitely many words, (a), (c) and (d) go by the lemmas above. -/
theorem infinitiesAndNaNsAsTheRulesSay : Obligations.InfinitiesAndNaNsAsTheRulesSay := by
  refine ⟨fun a b h => nan_of_isNaN h, by decide, fun n x hx => infinity_with_finite n hx, by decide,
    fun n x hn h0 => fmul_infinity n hn h0, ?_⟩
  rintro a b r (rfl | rfl | rfl | rfl)
  · exact fadd_eq_nan_of_isNaN a b
  · exact fadd_eq_nan_of_isNaN a (neg b)
  · exact fmul_eq_nan_of_isNaN a b
  · exact fdiv_eq_nan_of_isNaN a b

end Sys2Proof.Machine.F32
end

section
/-! PROOFS. The integer part of a value (R87), SPLIT (R91) and the index arithmetic (R90). -/

namespace Sys2Proof.Machine.F32

/-- The infinities and NaNs are the words whose fields would stand for `2^128` and more. -/
theorem isFinite_iff_abs_val_lt (w : Word) : isFinite w = true ↔ |val w| < 2 ^ 128 := by
  rw [isFinite_iff_low, ← magOf_strictMono.lt_iff_lt, magOf_infinity, abs_val, div_lt_iff₀ scale_pos_rat]
  exact_mod_cast Iff.rfl

/-! ### The floor -/

theorem floor_val (w : Word) : ⌊val w⌋ = scaled w / (scale : Int) := Rat.floor_intCast_div_natCast _ _

/-- The floor of a value of the format is a value of the format: from `2^23` on the values are integers (R87). -/
theorem exists_magOf_floor {a : Word} (ha : isFinite a = true) :
    ∃ n, n < 255 * 2 ^ 23 ∧ magOf n = (scaled a / (scale : Int)).natAbs * scale := by
  obtain ⟨e, q, hm, hq⟩ := exists_sig a
  by_cases he : 149 ≤ e
  · have hdvd : scale ∣ (scaled a).natAbs := by
      rw [natAbs_scaled, hm]
      exact Dvd.dvd.mul_left (Nat.pow_dvd_pow 2 he) q
    refine ⟨low a, low_lt_of_isFinite ha, ?_⟩
    rw [Int.natAbs_ediv_of_dvd (Int.natCast_dvd.mpr hdvd), Int.natAbs_natCast, Nat.div_mul_cancel hdvd, natAbs_scaled,
      mag_eq_magOf]
  · have hlt : (scaled a).natAbs < 2 ^ 23 * scale := by
      rw [natAbs_scaled, hm]
      calc q * 2 ^ e < 2 ^ 24 * 2 ^ e := Nat.mul_lt_mul_of_pos_right hq (Nat.two_pow_pos e)
        _ ≤ 2 ^ 24 * 2 ^ 148 := Nat.mul_le_mul_left _ (Nat.pow_le_pow_right Nat.two_pos (by omega))
        _ = 2 ^ 23 * scale := by rw [scale, ← Nat.pow_add, ← Nat.pow_add]
    have hs : (0 : Int) < scale := by exact_mod_cast scale_pos
    have h1 : -2 ^ 23 ≤ scaled a / (scale : Int) := Int.le_ediv_of_mul_le hs (by omega)
    have h2 : scaled a / (scale : Int) < 2 ^ 23 := Int.ediv_lt_of_lt_mul hs (by omega)
    exact exists_magOf_mul_scale (by omega)

/-- `ffloor` is exact: the bits of the floor, with the sign of the operand (R87). -/
theorem ffloor_eq_pack {a : Word} (ha : isFinite a = true) :
    ∃ n, n < 255 * 2 ^ 23 ∧ magOf n = (scaled a / (scale : Int)).natAbs * scale ∧ ffloor a = pack (signBit a) n := by
  obtain ⟨n, hn, h⟩ := exists_magOf_floor ha
  refine ⟨n, hn, h, ?_⟩
  simp only [ffloor, not_isNaN_of_isFinite ha, not_isInf_of_isFinite ha, Bool.false_eq_true, if_false]
  rw [round, ← h, roundMag_magOf hn.le]

theorem isFinite_ffloor_of_isFinite {a : Word} (ha : isFinite a = true) : isFinite (ffloor a) = true := by
  obtain ⟨n, hn, -, hp⟩ := ffloor_eq_pack ha
  rw [hp]
  exact (isFinite_pack _ (by omega)).mpr hn

theorem signBit_ffloor {a : Word} (ha : isFinite a = true) : signBit (ffloor a) = signBit a := by
  obtain ⟨n, hn, -, hp⟩ := ffloor_eq_pack ha
  rw [hp, signBit_pack _ (by omega)]

/-- The floor has the sign of its operand, or is 0. -/
theorem scaled_ffloor_eq {a : Word} (ha : isFinite a = true) : scaled (ffloor a) = ⌊val a⌋ * (scale : Int) := by
  obtain ⟨n, hn, h, hp⟩ := ffloor_eq_pack ha
  rw [hp, scaled_pack _ (by omega), h, floor_val, Nat.cast_mul]
  cases hb : signBit a with
  | false =>
    have h0 : 0 ≤ scaled a / (scale : Int) := by
      rw [scaled_nonneg_of_signBit hb]
      exact Int.ediv_nonneg (Int.natCast_nonneg _) (Int.natCast_nonneg _)
    rw [if_neg Bool.false_ne_true, Int.natAbs_of_nonneg h0]
  | true =>
    have h0 : scaled a / (scale : Int) ≤ 0 := by
      have hneg : scaled a = -(mag a : Int) := by simp [scaled, hb]
      exact Int.ediv_nonpos_of_nonpos_of_neg (by omega) (by exact_mod_cast scale_pos)
    rw [if_pos rfl, Int.ofNat_natAbs_of_nonpos h0, neg_mul, neg_neg]

theorem val_ffloor {a : Word} (ha : isFinite a = true) : val (ffloor a) = (⌊val a⌋ : Rat) := by
  rw [val_eq_iff, scaled_ffloor_eq ha]; push_cast; rfl

/-- `to_index` is the integer part (R87). -/
theorem toIndex_eq_floor (a : Word) : toIndex a = ⌊val a⌋.toNat := by rw [toIndex, floor_val]

theorem toIndex_ffloor_eq {a : Word} (ha : isFinite a = true) : toIndex (ffloor a) = ⌊val a⌋.toNat := by
  rw [toIndex_eq_floor, val_ffloor ha, Int.floor_intCast]

end Sys2Proof.Machine.F32

namespace Sys2Proof.Machine

open F32

/-- The index of a phase within R23 lies below the table length. -/
theorem toIndex_ffloor_lt {s : State} (h : s.Inv) : toIndex (ffloor s.phase) < s.cfg.table.length := by
  have hfloor : ⌊val s.phase⌋ < (s.cfg.table.length : Int) := Int.floor_lt.mpr (by exact_mod_cast h.phaseBelow)
  have h0 := Int.floor_nonneg.mpr h.phaseNonneg
  rw [toIndex_ffloor_eq h.phaseFinite]
  omega

/-- Settles O35: `ffloor` packs the floor exactly, `to_index` is the integer part. -/
theorem floorIsExact : Obligations.FloorIsExact := by
  refine ⟨fun a ha => ⟨isFinite_ffloor_of_isFinite ha, val_ffloor ha, signBit_ffloor ha⟩, by decide, fun a k _ hk _ => ?_,
    fun s hs => Nat.le_sub_one_of_lt (toIndex_ffloor_lt hs)⟩
  rw [toIndex_eq_floor, hk, Int.floor_natCast, Int.toNat_natCast]

/-! ### SPLIT -/

theorem splitIndex_cast {p : Word} (hp : isFinite p = true) (h0 : 0 ≤ val p) : (splitIndex binary32 p : Int) = ⌊val p⌋ := by
  have h : splitIndex binary32 p = ⌊val p⌋.toNat := toIndex_ffloor_eq hp
  rw [h, Int.toNat_of_nonneg (Int.floor_nonneg.mpr h0)]

/-- The fraction of a phase is exact (R91): the subtraction rounds nothing. -/
theorem denotes_splitFrac {s : State} (h : s.Inv) : Denotes (splitFrac binary32 s.phase) (Int.fract (val s.phase)) := by
  have hfrac : splitFrac binary32 s.phase = fsub s.phase (ffloor s.phase) := rfl
  have h0 : 0 ≤ scaled s.phase := (val_nonneg_iff _).mp h.phaseNonneg
  have hlt : scaled s.phase < ((2 ^ 24 * scale : Nat) : Int) := by
    refine ((val_lt_nat_iff _ _).mp h.phaseBelow).trans_le ?_
    exact_mod_cast Nat.mul_le_mul_right scale (cfg_bounds h.instanceOk).2
  have hs : scaled (splitFrac binary32 s.phase) = scaled s.phase % (scale : Int) := scaled_fsub_ffloor h.phaseFinite h0 hlt
  have hval : val (splitFrac binary32 s.phase) = Int.fract (val s.phase) := by
    rw [val_eq_iff, hs, Int.emod_def, ← floor_val, Int.fract, sub_mul, val_mul_scale]
    push_cast
    ring
  refine ⟨(isFinite_iff_abs_val_lt _).mpr ?_, hval⟩
  rw [hval, Int.abs_fract]
  exact (Int.fract_lt_one _).trans (by norm_num)

/-- A sum that is not negative has sign bit 0, but for two `-0` (R84). -/
theorem signBit_fadd_of_nonneg {a b : Word} (ha : isFinite a = true) (hb : isFinite b = true) (h : 0 ≤ val a + val b)
    (hs : (signBit a && signBit b) = false) : signBit (fadd a b) = false := by
  by_cases h0 : val a + val b = 0
  · rw [fadd_of_sum_zero ha hb h0, signBit_zero, hs]
  · rw [fadd_eq_fl ha hb h0, signBit_fl, decide_eq_false (not_lt.mpr h)]

/-- The fraction has sign bit 0, since the phase has (R91). -/
theorem signBit_splitFrac {s : State} (h : s.Inv) : signBit (splitFrac binary32 s.phase) = false := by
  have hp : signBit s.phase = false := signBit_of_phaseOk ((legal_iff s).mp ((legal_iff_inv s).mpr h)).2.1
  have hfl := isFinite_ffloor_of_isFinite h.phaseFinite
  refine signBit_fadd_of_nonneg h.phaseFinite ((isFinite_neg _).trans hfl) ?_ (by rw [hp, Bool.false_and])
  rw [val_neg, show val (binary32.ffloor s.phase) = _ from val_ffloor h.phaseFinite, ← sub_eq_add_neg]
  exact Int.fract_nonneg _

theorem val_splitFrac_lt_one {s : State} (h : s.Inv) : val (splitFrac binary32 s.phase) < 1 := by
  rw [(denotes_splitFrac h).2]
  exact Int.fract_lt_one _

/-- A word that denotes 0 with sign bit 0 is `+0`. -/
theorem eq_posZero {w : Word} (hv : val w = 0) (hs : signBit w = false) : w = 0x00000000#32 := by
  rw [eq_zero_of_isZero ((val_eq_zero_iff w).mp hv), hs]
  decide

/-- Settles O36: the integer part is `floor`, and the fraction is `Int.fract` of the phase with sign bit 0. -/
theorem splitIsExact : Obligations.SplitIsExact := by
  intro s h
  have hindex := splitIndex_cast h.phaseFinite h.phaseNonneg
  obtain ⟨hfin, hval⟩ := denotes_splitFrac h
  have hsign := signBit_splitFrac h
  refine ⟨hindex, Nat.le_sub_one_of_lt (toIndex_ffloor_lt h), rfl, hfin, ?_, ?_, val_splitFrac_lt_one h,
    ne_negZero_of_signBit hsign, fun k hk => eq_posZero ?_ hsign⟩
  · rw [hval, Int.fract, ← hindex, Int.cast_natCast]
  · rw [hval]; exact Int.fract_nonneg _
  · rw [hval, hk, Int.fract_natCast]

/-! ### The index arithmetic -/

/-- Settles O38: within one `L` of the range the modulo adds or takes away `L` at most once. -/
theorem indexArithmeticNeedsOneCorrection : Obligations.IndexArithmeticNeedsOneCorrection := by
  intro L k d hL hk hd
  rw [natCast_tapIndex (by omega)]
  split_ifs with hneg hge
  · rw [← Int.add_emod_right, Int.emod_eq_of_lt (by omega) (by omega)]
  · rw [← Int.sub_emod_right, Int.emod_eq_of_lt (by omega) (by omega)]
  · exact Int.emod_eq_of_lt (by omega) (by omega)

end Sys2Proof.Machine
end

section
/-! PROOFS. WRAP (R96, R97): the exact modulo rounded once, and what follows for its range, its exactness and its error. -/

namespace Sys2Proof.Machine.F32

/-- The exact modulo of R96 as a rational. -/
def exactMod (L : Nat) (x : Rat) : Rat := x - (L : Rat) * (⌊x / (L : Rat)⌋ : Rat)

theorem exactMod_eq {L : Nat} (hL : 0 < L) (x : Rat) : exactMod L x = L * Int.fract (x / L) := by
  have h : (L : Rat) ≠ 0 := by exact_mod_cast hL.ne'
  rw [exactMod, Int.fract, mul_sub, mul_div_cancel₀ _ h]

theorem exactMod_range {L : Nat} (hL : 0 < L) (x : Rat) : 0 ≤ exactMod L x ∧ exactMod L x < L := by
  have h : (0 : Rat) < L := by exact_mod_cast hL
  rw [exactMod_eq hL]
  exact ⟨mul_nonneg h.le (Int.fract_nonneg _), mul_lt_of_lt_one_right h (Int.fract_lt_one _)⟩

/-- What the model rounds is the exact modulo, in units of `2^-149`. -/
theorem exactMod_val {L : Nat} (hL : 0 < L) (s : Word) : exactMod L (val s) * scale = wrapExact L s := by
  have hfloor : ⌊val s / (L : Rat)⌋ = scaled s / ((L * scale : Nat) : Int) := by
    rw [val, div_div, ← Nat.cast_mul, Nat.mul_comm, Rat.floor_intCast_div_natCast]
  have hw : ((wrapExact L s : Int) : Rat) = ((scaled s % ((L * scale : Nat) : Int) : Int) : Rat) := by rw [wrapExact_cast L s hL]
  rw [Int.cast_natCast] at hw
  rw [hw, Int.emod_def, exactMod, hfloor, sub_mul, val_mul_scale]
  push_cast
  ring

theorem round_wrapExact {L : Nat} (hL : 0 < L) (s : Word) : round false (wrapExact L s) 1 = fl (exactMod L (val s)) := by
  have h0 := (exactMod_range hL (val s)).1
  have hn : |exactMod L (val s)| * scale * (1 : Nat) = (wrapExact L s : Nat) := by
    rw [abs_of_nonneg h0, exactMod_val hL, Nat.cast_one, mul_one]
  rw [← round_eq_fl_of_abs Nat.one_pos hn, decide_eq_false (not_lt.mpr h0)]

theorem val_fl_of_nonneg {x : Rat} (h : 0 ≤ x) : val (fl x) = |val (fl x)| :=
  val_of_signBit_false ((signBit_fl x).trans (decide_eq_false (not_lt.mpr h)))

/-- R96: the exact modulo rounded once, a result of `L` becoming `+0`. -/
theorem wrap_eq_fl {L : Nat} (hL : 0 < L) {s : Word} (hs : isFinite s = true) :
    wrap L s = if val (fl (exactMod L (val s))) = (L : Rat) then 0x00000000#32 else fl (exactMod L (val s)) := by
  have hL' : mag (fl (exactMod L (val s))) = L * scale ↔ val (fl (exactMod L (val s))) = (L : Rat) := by
    rw [val_fl_of_nonneg (exactMod_range hL _).1, abs_val, ← mag_eq_magOf, div_eq_iff scale_ne_zero]
    exact_mod_cast Iff.rfl
  rw [wrap, if_pos hs, round_wrapExact hL]
  simp only [hL']
  rfl

/-- Settles O41. -/
theorem wrapRoundsTheExactModuloOnce : Obligations.WrapRoundsTheExactModuloOnce := by
  rintro L s m hL - hs rfl
  have hL0 : 0 < L := by omega
  exact ⟨(exactMod_range hL0 _).1, (exactMod_range hL0 _).2, wrap_eq_fl hL0 hs⟩

/-! ### The properties of WRAP -/

section
variable {L : Nat} {s : Word} (hL : 4 ≤ L) (hL2 : L ≤ 2 ^ 24) (hs : isFinite s = true)
include hL hL2 hs

/-- R97(a). -/
theorem wrap_range : isFinite (wrap L s) = true ∧ 0 ≤ val (wrap L s) ∧ val (wrap L s) < (L : Rat) ∧ wrap L s ≠ 0x80000000#32 := by
  obtain ⟨hf, hsign, hmag⟩ := wrap_spec (by omega) hL2 hs
  have hn := scaled_nonneg_of_signBit hsign
  refine ⟨hf, (val_nonneg_iff _).mpr (by omega), (val_lt_nat_iff _ _).mpr ?_, ne_negZero_of_signBit hsign⟩
  rw [hn]
  exact_mod_cast hmag

/-- R97(c): on a value that is not negative the modulo is a value of the format. -/
theorem val_wrap_of_nonneg (h0 : 0 ≤ val s) : val (wrap L s) = exactMod L (val s) := by
  have hL0 : 0 < L := by omega
  rw [val_eq_iff, scaled_wrap_of_nonneg hL0 hL2 hs ((val_nonneg_iff s).mp h0), exactMod_val hL0, ← wrapExact_cast L s hL0,
    Int.cast_natCast]

/-- R97(b). -/
theorem val_wrap_of_lt (h0 : 0 ≤ val s) (hlt : val s < L) : val (wrap L s) = val s := by
  have hL0 : (0 : Rat) < L := by exact_mod_cast (by omega : 0 < L)
  have hfloor : ⌊val s / (L : Rat)⌋ = 0 := Int.floor_eq_zero_iff.mpr ⟨div_nonneg h0 hL0.le, (div_lt_one hL0).mpr hlt⟩
  rw [val_wrap_of_nonneg hL hL2 hs h0, exactMod, hfloor, Int.cast_zero, mul_zero, sub_zero]

end

theorem fl_zero : fl 0 = 0x00000000#32 := by decide

/-- R97(d): a multiple of `L` goes to `+0`. -/
theorem wrap_of_multiple {L : Nat} (hL : 0 < L) {s : Word} (hs : isFinite s = true) (h : exactMod L (val s) = 0) :
    wrap L s = 0x00000000#32 := by
  rw [wrap_eq_fl hL hs, h, fl_zero, ite_self]

theorem exactMod_neg_mul {L : Nat} (hL : 0 < L) (n : Nat) : exactMod L (-((n : Rat) * L)) = 0 := by
  have h : (L : Rat) ≠ 0 := by exact_mod_cast hL.ne'
  rw [exactMod_eq hL, ← neg_mul, mul_div_cancel_right₀ _ h, ← Int.cast_natCast n, ← Int.cast_neg, Int.fract_intCast, mul_zero]

/-- The modulo of a negative number that is no multiple of `L`, from the modulo of its magnitude (R97(e)). -/
theorem exactMod_of_neg {L : Nat} (hL : 0 < L) {x : Rat} (hx : x < 0) (h : exactMod L x ≠ 0) : exactMod L x = L - exactMod L |x| := by
  have hfract : Int.fract (x / L) ≠ 0 := by
    intro h0; rw [exactMod_eq hL, h0, mul_zero] at h; exact h rfl
  rw [exactMod_eq hL, exactMod_eq hL, abs_of_neg hx, neg_div, Int.fract_neg hfract]
  ring

/-- R97(e): where the rounded modulo is not `L` the result is within half a unit in its last place. -/
theorem wrap_error {L : Nat} (hL : 4 ≤ L) (hL2 : L ≤ 2 ^ 24) {s : Word} (hs : isFinite s = true)
    (h : val (fl (exactMod L (val s))) ≠ (L : Rat)) :
    2 * |val (wrap L s) - exactMod L (val s)| ≤ 2 ^ max 1 (expField (wrap L s)) / 2 ^ 150 := by
  have hwrap : wrap L s = fl (exactMod L (val s)) := (wrap_eq_fl (by omega) hs).trans (if_neg h)
  rw [hwrap, abs_sub_comm]
  exact two_mul_abs_sub_val_fl_le (hwrap ▸ (wrap_range hL hL2 hs).1)

/-- Settles O42, clause by clause; the worked values are computed. -/
theorem wrapHasTheListedProperties : Obligations.WrapHasTheListedProperties := by
  refine ⟨fun L s hL hL2 hs => ?_, by decide, by decide, by decide, by decide, by decide⟩
  have hL0 : 0 < L := by omega
  refine ⟨wrap_range hL hL2 hs, val_wrap_of_lt hL hL2 hs, ?_, val_wrap_of_nonneg hL hL2 hs, fun n _ hn => ?_, ?_⟩
  · have h0 : val 0x80000000#32 = -(((0 : Nat) : Rat) * L) := by
      rw [Nat.cast_zero, zero_mul, neg_zero, val_eq_zero_iff]; decide
    exact wrap_of_multiple hL0 (by decide) (by rw [h0, exactMod_neg_mul hL0])
  · exact wrap_of_multiple hL0 hs (by rw [hn, exactMod_neg_mul hL0])
  · rintro m hneg rfl hm
    exact ⟨exactMod_of_neg hL0 hneg hm, fun h => (wrap_eq_fl hL0 hs).trans (if_pos h), wrap_error hL hL2 hs⟩

end Sys2Proof.Machine.F32
end

section
/-! PROOFS. The interpolation: its evaluation order (R93, R94), its exactness at a knot (R95), and the ideal weights (R92). -/

namespace Sys2Proof.Machine

open F32

/-- Settles O39: `weights` and `interp` over the binary32 operations, with the words of the constants. -/
theorem interpolationFollowsTheEvaluationOrder : Obligations.InterpolationFollowsTheEvaluationOrder := by
  rintro t t2 t3 y0 y1 y2 y3 rfl rfl
  exact ⟨rfl, rfl⟩

/-! ### Knots -/

theorem weights_posZero :
    weights binary32 0x00000000#32 = { a0 := 0x00000000#32, a1 := 0x3F800000#32, a2 := 0x00000000#32, a3 := 0x00000000#32 } := by
  decide

theorem fmul_posZero {y : Word} (hy : isFinite y = true) : fmul 0x00000000#32 y = zero (signBit y) := by
  have h0 : val 0x00000000#32 = 0 := (val_eq_zero_iff _).mpr (by decide)
  rw [fmul_of_product_zero (by decide) hy (by rw [h0, zero_mul])]
  exact congrArg zero (Bool.false_bne _)

theorem fmul_one {y : Word} (hy : isFinite y = true) : fmul 0x3F800000#32 y = y := by
  have hmag : mag 0x3F800000#32 = scale := by decide
  have hsign : (signBit 0x3F800000#32 != signBit y) = signBit y := Bool.false_bne _
  have hround : roundMag (scale * mag y) scale = roundMag (mag y) 1 :=
    roundMag_congr scale_pos Nat.one_pos (by rw [Nat.mul_one, Nat.mul_comm])
  calc fmul 0x3F800000#32 y = round (signBit y) (scale * mag y) scale := by rw [fmul_of_finite (by decide) hy, hsign, hmag]
    _ = round (signBit y) (mag y) 1 := congrArg (pack (signBit y)) hround
    _ = y := round_self hy

/-- At `t = +0` the sum is the second tap between three zeros with the signs of the other taps. -/
theorem interp_posZero {y : Taps Word} (h0 : isFinite y.y0 = true) (h1 : isFinite y.y1 = true) (h2 : isFinite y.y2 = true)
    (h3 : isFinite y.y3 = true) :
    interp binary32 y 0x00000000#32 =
      fadd (fadd (fadd (zero (signBit y.y0)) y.y1) (zero (signBit y.y2))) (zero (signBit y.y3)) := by
  rw [interp, weights_posZero, ← fmul_posZero h0, ← fmul_posZero h2, ← fmul_posZero h3]
  conv_rhs => rw [← fmul_one h1]
  rfl

/-- Adding zeros to a number that is not a zero leaves it bit for bit. -/
theorem fadd_zeros_of_not_isZero {y : Word} (hy : isFinite y = true) (h0 : isZero y = false) (a b c : Bool) :
    fadd (fadd (fadd (zero a) y) (zero b)) (zero c) = y := by
  rw [fadd_zero_left (isZero_zero a) hy h0, fadd_zero_right (isZero_zero b) hy h0, fadd_zero_right (isZero_zero c) hy h0]

/-- A sum of four zeros is `-0` only where all four are (R84). -/
theorem fadd_zeros_of_isZero {y : Word} (hy : isZero y = true) (a b c : Bool) :
    fadd (fadd (fadd (zero a) y) (zero b)) (zero c) = zero (a && signBit y && b && c) := by
  rw [fadd_zeros (isZero_zero a) hy, fadd_zeros (isZero_zero _) (isZero_zero b), fadd_zeros (isZero_zero _) (isZero_zero c)]
  simp only [signBit_zero]

theorem zero_eq_ite (n : Bool) : zero n = if n = true then 0x80000000#32 else 0x00000000#32 := by cases n <;> decide

/-- Settles O40: the taps that are not the second one contribute zeros, of which only the signs matter. -/
theorem interpolationIsExactAtKnots : Obligations.InterpolationIsExactAtKnots := by
  refine ⟨weights_posZero, ?_, fun s h => val_splitFrac_lt_one h⟩
  rintro y out h0 h1 h2 h3 rfl
  rw [interp_posZero h0 h1 h2 h3]
  cases hz : isZero y.y1 with
  | false =>
    rw [fadd_zeros_of_not_isZero h1 hz]
    exact ⟨h1, rfl, fun _ => rfl, fun h => absurd h Bool.false_ne_true⟩
  | true =>
    rw [fadd_zeros_of_isZero hz, (val_eq_zero_iff y.y1).mpr hz]
    refine ⟨isFinite_zero _, (val_eq_zero_iff _).mpr (isZero_zero _), fun h => absurd h.symm Bool.false_ne_true, fun _ => ?_⟩
    rw [zero_eq_ite]
    simp only [eq_negZero_iff, hz, true_and, Bool.and_eq_true, and_assoc, and_left_comm]

/-! ### The ideal weights -/

/-- With no rounding the evaluation order of R93 gives the polynomials of R92. -/
theorem ideal_weights (t : Rat) :
    weights exactNum t =
      { a0 := -(1 / 2) * t ^ 3 + t ^ 2 - 1 / 2 * t, a1 := 3 / 2 * t ^ 3 - 5 / 2 * t ^ 2 + 1
        a2 := -(3 / 2) * t ^ 3 + 2 * t ^ 2 + 1 / 2 * t, a3 := 1 / 2 * t ^ 3 - 1 / 2 * t ^ 2 } := by
  simp only [weights, square, cube, exactNum, Weights.mk.injEq]
  exact ⟨by ring, by ring, by ring, by ring⟩

theorem ideal_a0 (t : Rat) : (weights exactNum t).a0 = -(1 / 2) * t ^ 3 + t ^ 2 - 1 / 2 * t :=
  congrArg Weights.a0 (ideal_weights t)

theorem ideal_a1 (t : Rat) : (weights exactNum t).a1 = 3 / 2 * t ^ 3 - 5 / 2 * t ^ 2 + 1 :=
  congrArg Weights.a1 (ideal_weights t)

theorem ideal_a2 (t : Rat) : (weights exactNum t).a2 = -(3 / 2) * t ^ 3 + 2 * t ^ 2 + 1 / 2 * t :=
  congrArg Weights.a2 (ideal_weights t)

theorem ideal_a3 (t : Rat) : (weights exactNum t).a3 = 1 / 2 * t ^ 3 - 1 / 2 * t ^ 2 :=
  congrArg Weights.a3 (ideal_weights t)

/-- The weights sum to 1 (R92). -/
theorem ideal_sum (t : Rat) :
    (weights exactNum t).a0 + (weights exactNum t).a1 + (weights exactNum t).a2 + (weights exactNum t).a3 = 1 := by
  rw [ideal_a0, ideal_a1, ideal_a2, ideal_a3]; ring

/-- The outer weights mirror each other (R92). -/
theorem ideal_a3_eq (t : Rat) : (weights exactNum t).a3 = (weights exactNum (1 - t)).a0 := by rw [ideal_a3, ideal_a0]; ring

/-- The inner weights mirror each other (R92). -/
theorem ideal_a2_eq (t : Rat) : (weights exactNum t).a2 = (weights exactNum (1 - t)).a1 := by rw [ideal_a2, ideal_a1]; ring

/-- An outer weight is `-t (1-t)^2 / 2`, which is least at `t = 1/3` (R92). -/
theorem ideal_a0_bounds {t : Rat} (h0 : 0 ≤ t) (h1 : t ≤ 1) :
    -(2 / 27) ≤ (weights exactNum t).a0 ∧ (weights exactNum t).a0 ≤ 0 := by
  have hfac : (weights exactNum t).a0 = -(t * (1 - t) ^ 2 / 2) := by rw [ideal_a0]; ring
  have hleast : (weights exactNum t).a0 + 2 / 27 = (t - 1 / 3) ^ 2 * (4 / 3 - t) / 2 := by rw [ideal_a0]; ring
  have hpos : 0 ≤ (t - 1 / 3) ^ 2 * (4 / 3 - t) := mul_nonneg (sq_nonneg _) (by linarith)
  have hneg : 0 ≤ t * (1 - t) ^ 2 := mul_nonneg h0 (sq_nonneg _)
  exact ⟨by linarith, by linarith⟩

/-- An inner weight is `(1-t) (1 + t - 3 t^2 / 2)`, and 1 less `t^2 (5 - 3 t) / 2` (R92). -/
theorem ideal_a1_bounds {t : Rat} (h0 : 0 ≤ t) (h1 : t ≤ 1) : 0 ≤ (weights exactNum t).a1 ∧ (weights exactNum t).a1 ≤ 1 := by
  have hfac : (weights exactNum t).a1 = (1 - t) * (1 + t - 3 / 2 * t ^ 2) := by rw [ideal_a1]; ring
  have htop : (weights exactNum t).a1 = 1 - t ^ 2 * (5 - 3 * t) / 2 := by rw [ideal_a1]; ring
  have hsq : t ^ 2 ≤ t := pow_le_of_le_one h0 h1 two_ne_zero
  have hpos : 0 ≤ (1 - t) * (1 + t - 3 / 2 * t ^ 2) := mul_nonneg (by linarith) (by linarith)
  have hneg : 0 ≤ t ^ 2 * (5 - 3 * t) := mul_nonneg (sq_nonneg _) (by linarith)
  exact ⟨by linarith, by linarith⟩

/-- The magnitudes of the weights, at any phase between two knots (R92). -/
theorem ideal_bounds {t : Rat} {a : Weights Rat} (ha : a = weights exactNum t) (h0 : 0 ≤ t) (h1 : t ≤ 1) :
    (-(2 / 27) ≤ a.a0 ∧ a.a0 ≤ 0) ∧ (-(2 / 27) ≤ a.a3 ∧ a.a3 ≤ 0) ∧ (0 ≤ a.a1 ∧ a.a1 ≤ 1) ∧ (0 ≤ a.a2 ∧ a.a2 ≤ 1) := by
  have h0' : 0 ≤ 1 - t := by linarith
  have h1' : 1 - t ≤ 1 := by linarith
  subst ha
  rw [ideal_a3_eq, ideal_a2_eq]
  exact ⟨ideal_a0_bounds h0 h1, ideal_a0_bounds h0' h1', ideal_a1_bounds h0 h1, ideal_a1_bounds h0' h1'⟩

/-- The magnitudes sum to `1 + t (1-t)` (R92). -/
theorem ideal_abs_sum {t : Rat} {a : Weights Rat} (ha : a = weights exactNum t) (h0 : 0 ≤ t) (h1 : t ≤ 1) :
    |a.a0| + |a.a1| + |a.a2| + |a.a3| = 5 / 4 - (t - 1 / 2) ^ 2 := by
  obtain ⟨⟨-, ha0⟩, ⟨-, ha3⟩, ⟨ha1, -⟩, ⟨ha2, -⟩⟩ := ideal_bounds ha h0 h1
  rw [abs_of_nonpos ha0, abs_of_nonpos ha3, abs_of_nonneg ha1, abs_of_nonneg ha2, ha, ideal_a0, ideal_a1, ideal_a2, ideal_a3]
  ring

theorem ideal_abs_sum_le {t : Rat} {a : Weights Rat} (ha : a = weights exactNum t) (h0 : 0 ≤ t) (h1 : t ≤ 1) :
    |a.a0| + |a.a1| + |a.a2| + |a.a3| ≤ 5 / 4 := by
  rw [ideal_abs_sum ha h0 h1]
  exact sub_le_self _ (sq_nonneg _)

/-- Settles O45: the polynomials, then identities and bounds between them. -/
theorem idealWeightsFormTheSpline : Obligations.IdealWeightsFormTheSpline := by
  refine ⟨by rw [ideal_weights]; norm_num, by rw [ideal_weights]; norm_num, ?_, by rw [ideal_a0]; norm_num,
    by rw [ideal_a3]; norm_num, fun a ha => ?_, ?_⟩
  · rintro t a b rfl rfl
    refine ⟨ideal_a0 t, ideal_a1 t, ideal_a2 t, ideal_a3 t, ideal_sum t, ?_, ?_, fun h0 h1 => ?_⟩
    · rw [ideal_a3_eq, sub_sub_cancel]
    · rw [ideal_a2_eq, sub_sub_cancel]
    · obtain ⟨⟨h, h'⟩, ⟨h2, h2'⟩, ⟨h3, h3'⟩, ⟨h4, h4'⟩⟩ := ideal_bounds rfl h0 h1
      exact ⟨h, h', h2, h2', h3, h3', h4, h4', ideal_abs_sum_le rfl h0 h1⟩
  · rw [ideal_abs_sum ha (by norm_num) (by norm_num)]; norm_num
  · rintro t y0 y1 y2 y3 a rfl
    rfl

end Sys2Proof.Machine
end

section
/-! PROOFS. A bounded table gives finite samples (R101(a)): how far the computed weights and their sum can be from the ideal ones.
Every operation here stays within a power of two, so its error is one constant. -/

namespace Sys2Proof.Machine

open F32

/-! ### One operation -/

namespace F32

theorem fadd_error {k : Nat} (hk : k ≤ 127) {a b : Word} (ha : isFinite a = true) (hb : isFinite b = true)
    (h : |val a + val b| ≤ 2 ^ k) : isFinite (fadd a b) = true ∧ |val (fadd a b) - (val a + val b)| ≤ 2 ^ k / 2 ^ 24 := by
  by_cases h0 : val a + val b = 0
  · rw [fadd_of_sum_zero ha hb h0, h0, (val_eq_zero_iff _).mpr (isZero_zero _), sub_zero, abs_zero]
    exact ⟨isFinite_zero _, by positivity⟩
  · rw [fadd_eq_fl ha hb h0]
    exact fl_of_abs_le_two_pow hk h

theorem fmul_error {k : Nat} (hk : k ≤ 127) {a b : Word} (ha : isFinite a = true) (hb : isFinite b = true)
    (h : |val a * val b| ≤ 2 ^ k) : isFinite (fmul a b) = true ∧ |val (fmul a b) - val a * val b| ≤ 2 ^ k / 2 ^ 24 := by
  by_cases h0 : val a * val b = 0
  · rw [fmul_of_product_zero ha hb h0, h0, (val_eq_zero_iff _).mpr (isZero_zero _), sub_zero, abs_zero]
    exact ⟨isFinite_zero _, by positivity⟩
  · rw [fmul_eq_fl ha hb h0]
    exact fl_of_abs_le_two_pow hk h

/-! ### Errors that add up -/

/-- `w` is finite and within `e` of `x`, whose magnitude is at most `B`. -/
structure Near (w : Word) (x e B : Rat) : Prop where
  finite : isFinite w = true
  close : |val w - x| ≤ e
  bound : |x| ≤ B

theorem Near.of_denotes {w : Word} {x B : Rat} (h : Denotes w x) (hB : |x| ≤ B) : Near w x 0 B :=
  ⟨h.1, by rw [h.2, sub_self, abs_zero], hB⟩

/-- The error may be given more coarsely, and the bound by the magnitude itself. -/
theorem Near.coarsen {w : Word} {x e B e' : Rat} (h : Near w x e B) (he : e ≤ e') : Near w x e' |x| :=
  ⟨h.finite, h.close.trans he, le_rfl⟩

theorem Near.abs_val_le {w : Word} {x e B : Rat} (h : Near w x e B) : |val w| ≤ B + e := by
  calc |val w| = |x + (val w - x)| := by rw [add_sub_cancel]
    _ ≤ |x| + |val w - x| := abs_add_le _ _
    _ ≤ B + e := add_le_add h.bound h.close

theorem Near.neg {w : Word} {x e B : Rat} (h : Near w x e B) : Near (neg w) (-x) e B := by
  refine ⟨(isFinite_neg w).trans h.finite, ?_, by rw [abs_neg]; exact h.bound⟩
  rw [val_neg, neg_sub_neg, abs_sub_comm]
  exact h.close

section
variable {k : Nat} {a b : Word} {x y e f A B : Rat} (hk : k ≤ 127) (ha : Near a x e A) (hb : Near b y f B)
include hk ha hb

theorem Near.fadd (h : (A + e) + (B + f) ≤ 2 ^ k) : Near (fadd a b) (x + y) (e + f + 2 ^ k / 2 ^ 24) (A + B) := by
  have hsum : |val a + val b| ≤ 2 ^ k := (abs_add_le _ _).trans ((add_le_add ha.abs_val_le hb.abs_val_le).trans h)
  obtain ⟨hfin, hround⟩ := fadd_error hk ha.finite hb.finite hsum
  refine ⟨hfin, ?_, (abs_add_le x y).trans (add_le_add ha.bound hb.bound)⟩
  have hsplit : val (F32.fadd a b) - (x + y) = (val a - x) + (val b - y) + (val (F32.fadd a b) - (val a + val b)) := by ring
  rw [hsplit]
  exact (abs_add_three _ _ _).trans (add_le_add (add_le_add ha.close hb.close) hround)

theorem Near.fsub (h : (A + e) + (B + f) ≤ 2 ^ k) : Near (fsub a b) (x - y) (e + f + 2 ^ k / 2 ^ 24) (A + B) := by
  rw [sub_eq_add_neg]
  exact Near.fadd hk ha hb.neg h

theorem Near.fmul (h : (A + e) * (B + f) ≤ 2 ^ k) :
    Near (fmul a b) (x * y) (A * f + e * (B + f) + 2 ^ k / 2 ^ 24) (A * B) := by
  have hA : 0 ≤ A := (abs_nonneg x).trans ha.bound
  have he : 0 ≤ e := (abs_nonneg _).trans ha.close
  have hprod : |val a * val b| ≤ 2 ^ k := by
    rw [abs_mul]
    exact (mul_le_mul ha.abs_val_le hb.abs_val_le (abs_nonneg _) (add_nonneg hA he)).trans h
  obtain ⟨hfin, hround⟩ := fmul_error hk ha.finite hb.finite hprod
  refine ⟨hfin, ?_, by rw [abs_mul]; exact mul_le_mul ha.bound hb.bound (abs_nonneg _) hA⟩
  have hsplit : val (F32.fmul a b) - x * y =
      x * (val b - y) + (val a - x) * val b + (val (F32.fmul a b) - val a * val b) := by ring
  have h1 : |x * (val b - y)| ≤ A * f := by
    rw [abs_mul]; exact mul_le_mul ha.bound hb.close (abs_nonneg _) hA
  have h2 : |(val a - x) * val b| ≤ e * (B + f) := by
    rw [abs_mul]; exact mul_le_mul ha.close hb.abs_val_le (abs_nonneg _) he
  rw [hsplit]
  exact (abs_add_three _ _ _).trans (add_le_add (add_le_add h1 h2) hround)

end

theorem near_lit (l : Lit) : Near (binary32.lit l) (exactNum.lit l) 0 (5 / 2) :=
  .of_denotes (denotes_lit l) (by cases l <;> norm_num [exactNum, abs_le])

end F32

/-! ### The weights and their sum -/

/-- Each computed weight is within `2^-17` of the ideal one. -/
structure NearWeights (w : Weights Word) (a : Weights Rat) : Prop where
  a0 : Near w.a0 a.a0 (1 / 2 ^ 17) |a.a0|
  a1 : Near w.a1 a.a1 (1 / 2 ^ 17) |a.a1|
  a2 : Near w.a2 a.a2 (1 / 2 ^ 17) |a.a2|
  a3 : Near w.a3 a.a3 (1 / 2 ^ 17) |a.a3|

/-- No number on the way to a weight passes 8, so each rounding is off by at most `2^-21`; there are few enough of them. -/
theorem nearWeights {t : Word} {u : Rat} (ht : Denotes t u) (hu : |u| ≤ 1) :
    NearWeights (weights binary32 t) (weights exactNum u) := by
  have h3 : 3 ≤ 127 := by norm_num
  have h1 := Near.of_denotes ht hu
  have t2 : Near (square binary32 t) (square exactNum u) _ _ := h1.fmul h3 h1 (by norm_num)
  have t3 : Near (cube binary32 t) (cube exactNum u) _ _ := t2.fmul h3 h1 (by norm_num)
  have half1 := (near_lit .half).fmul h3 h1 (by norm_num)
  have half2 := (near_lit .half).fmul h3 t2 (by norm_num)
  have half3 := (near_lit .half).fmul h3 t3 (by norm_num)
  have neg3 := (near_lit .negHalf).fmul h3 t3 (by norm_num)
  have five2 := (near_lit .fiveHalves).fmul h3 t2 (by norm_num)
  have three3 := (near_lit .threeHalves).fmul h3 t3 (by norm_num)
  have two2 := (near_lit .two).fmul h3 t2 (by norm_num)
  have negThree3 := (near_lit .negThreeHalves).fmul h3 t3 (by norm_num)
  have a0 := (neg3.fadd h3 t2 (by norm_num)).fsub h3 half1 (by norm_num)
  have a1 := (three3.fsub h3 five2 (by norm_num)).fadd h3 (near_lit .one) (by norm_num)
  have a2 := (negThree3.fadd h3 two2 (by norm_num)).fadd h3 half1 (by norm_num)
  have a3 := half3.fsub h3 half2 (by norm_num)
  exact ⟨a0.coarsen (by norm_num), a1.coarsen (by norm_num), a2.coarsen (by norm_num), a3.coarsen (by norm_num)⟩

/-- The ideal weights' magnitudes sum to at most 5/4, so the sum of products of a table bounded by `2^126` stays within `2^127`,
the errors included. -/
theorem isFinite_weightedSum {w : Weights Word} {a : Weights Rat} {y : Taps Word} (hw : NearWeights w a)
    (ha : |a.a0| + |a.a1| + |a.a2| + |a.a3| ≤ 5 / 4) (h0 : Near y.y0 (val y.y0) 0 (2 ^ 126)) (h1 : Near y.y1 (val y.y1) 0 (2 ^ 126))
    (h2 : Near y.y2 (val y.y2) 0 (2 ^ 126)) (h3 : Near y.y3 (val y.y3) 0 (2 ^ 126)) :
    isFinite (weightedSum binary32 w y) = true := by
  have hk : 127 ≤ 127 := le_rfl
  have e0 := abs_nonneg a.a0
  have e1 := abs_nonneg a.a1
  have e2 := abs_nonneg a.a2
  have e3 := abs_nonneg a.a3
  have p0 := hw.a0.fmul hk h0 (by linarith)
  have p1 := hw.a1.fmul hk h1 (by linarith)
  have p2 := hw.a2.fmul hk h2 (by linarith)
  have p3 := hw.a3.fmul hk h3 (by linarith)
  have s1 := p0.fadd hk p1 (by linarith)
  have s2 := s1.fadd hk p2 (by linarith)
  exact (s2.fadd hk p3 (by linarith)).finite

/-! ### Tables -/

theorem getElem?_of_gather {α : Type} {t : List α} (ht : 0 < t.length) {k : Nat} {y : Taps α} (h : gather t k = some y) :
    t[tapIndex t.length k (-1)]? = some y.y0 ∧ t[tapIndex t.length k 0]? = some y.y1 ∧
      t[tapIndex t.length k 1]? = some y.y2 ∧ t[tapIndex t.length k 2]? = some y.y3 := by
  obtain ⟨z, hz, hreads⟩ := gather_eq_some ht k
  rwa [Option.some.inj (h.symm.trans hz)]

/-- A tap of a table of an instance whose entries have magnitude at most `2^126`. -/
theorem near_tap {s : State} (hw : s.cfg.wf = true) (hb : ∀ w ∈ s.cfg.table, |val w| ≤ 2 ^ 126) {i : Nat} {w : Word}
    (h : s.cfg.table[i]? = some w) : Near w (val w) 0 (2 ^ 126) := by
  have hmem := List.mem_of_getElem? h
  exact .of_denotes ⟨((Memory.wf_iff _).mp (Cfg.memory_wf hw)).2.2 w hmem, rfl⟩ (hb w hmem)

/-- Settles O44: near the ideal weights, over taps bounded by `2^126`. -/
theorem boundedTableGivesFiniteSamples : Obligations.BoundedTableGivesFiniteSamples := by
  intro s t hs hb ht
  obtain ⟨y, hy, hx⟩ := execGetSample_of_legal ((legal_iff_inv s).mpr hs)
  obtain rfl := Host.Outcome.next.inj (hx.symm.trans ht)
  refine ⟨_, rfl, ?_⟩
  obtain ⟨h0, h1, h2, h3⟩ := getElem?_of_gather (by have := (cfg_bounds hs.instanceOk).1; omega) hy
  have htap {i : Nat} {w : Word} (h : s.cfg.table[i]? = some w) := near_tap hs.instanceOk hb h
  have hu0 := Int.fract_nonneg (val s.phase)
  have hu1 := (Int.fract_lt_one (val s.phase)).le
  have hw := nearWeights (denotes_splitFrac hs) (by rwa [abs_of_nonneg hu0])
  exact isFinite_weightedSum hw (ideal_abs_sum_le rfl hu0 hu1) (htap h0) (htap h1) (htap h2) (htap h3)

end Sys2Proof.Machine
end

section
/-! PROOFS. The increment of a zero frequency (R99, R112), and the exact instance (R89): its commands by their formulas, and its
agreement with the binary32 one where nothing rounds. -/

namespace Sys2Proof.Machine

open F32

/-! ### A zero frequency -/

theorem rate_pos {c : Cfg} (h : c.wf = true) : 0 < Cfg.rate c := by
  have hsr := ((Cfg.wf_iff c).mp h).2.1
  exact Nat.pos_of_ne_zero fun h0 => hsr (BitVec.eq_of_toNat_eq h0)

theorem signBit_ofNat (n : Nat) : signBit (ofNat n) = false := signBit_round _ Nat.one_pos

/-- Rounding keeps a positive integer at 1 or more (R86). -/
theorem one_le_val_ofNat {n : Nat} (h : 0 < n) : 1 ≤ val (ofNat n) := by
  have h1 : val (fl ((1 : Nat) : Rat)) = 1 := by rw [← ofNat_eq_fl, val_ofNat (by norm_num), Nat.cast_one]
  rw [ofNat_eq_fl, ← h1]
  exact val_fl_mono (by exact_mod_cast h)

/-- A zero times the table length, divided by the rate, is that zero: both constants have sign `+` (R84, R99). -/
theorem increment_of_isZero {L SR : Nat} (hL : L < 2 ^ 32) (hSR : 0 < SR) (hSR2 : SR < 2 ^ 32) {f : Word} (h : isZero f = true) :
    increment binary32 L SR f = f := by
  have hv : val f = 0 := (val_eq_zero_iff f).mpr h
  have hf : isFinite f = true := isFinite_of_isZero h
  have hself (n : Nat) : zero (signBit f != signBit (ofNat n)) = f := by
    rw [signBit_ofNat, Bool.bne_false, ← eq_zero_of_isZero h]
  have hmul : fmul f (ofNat L) = f := by rw [fmul_of_product_zero hf (isFinite_ofNat hL) (by rw [hv, zero_mul]), hself]
  have hne : val (ofNat SR) ≠ 0 := (zero_lt_one.trans_le (one_le_val_ofNat hSR)).ne'
  calc increment binary32 L SR f = fdiv (fmul f (ofNat L)) (ofNat SR) := rfl
    _ = f := by rw [hmul, fdiv_of_zero_left hf (isFinite_ofNat hSR2) hv hne, hself]

/-- Settles O28: the increment of a zero is that zero, which is finite. -/
theorem zeroFrequencyKeepsItsSign : Obligations.ZeroFrequencyKeepsItsSign := by
  intro s f hs hz
  have hL := (cfg_bounds hs.instanceOk).2
  have hinc : increment binary32 s.cfg.table.length (Cfg.rate s.cfg) f = f :=
    increment_of_isZero (by omega) (rate_pos hs.instanceOk) s.cfg.sr.isLt hz
  have hf : isFinite f = true := isFinite_of_isZero hz
  have hx := execSetFrequency_of_legal ((legal_iff_inv s).mpr hs) f
  rw [hinc, if_pos hf] at hx
  exact hx

/-! ### The commands of the exact instance -/

/-- What four taps denote. -/
def Taps.vals (y : Taps Word) : Taps Rat := { y0 := val y.y0, y1 := val y.y1, y2 := val y.y2, y3 := val y.y3 }

/-- The exact instance gathers what the words of the table denote. -/
theorem gather_exactTable {c : Cfg} (h : 0 < c.table.length) {k : Nat} {y : Taps Word} (hy : gather c.table k = some y) :
    gather (exactTable c) k = some y.vals := by
  obtain ⟨h0, h1, h2, h3⟩ := getElem?_of_gather h hy
  simp only [gather, memRead_eq, exactTable, List.length_map, List.getElem?_map, h0, h1, h2, h3, Option.map_some]
  rfl

/-- The index of a tap, from the integer that the exact instance splits off (R43, R91). -/
theorem tapIndex_splitIndex {p : Rat} (h : 0 ≤ p) (L : Nat) (d : Int) :
    tapIndex L (splitIndex exactNum p) d = ((⌊p⌋ + d) % (L : Int)).toNat := by
  rw [tapIndex, exact_splitIndex, Int.toNat_of_nonneg (Int.floor_nonneg.mpr h)]

theorem exactState_advance_inv {s : ExactState} (h : s.Inv) :
    ({ s with phase := advance exactNum s.cfg.table.length s.phase s.inc } : ExactState).Inv := by
  obtain ⟨hL, -⟩ := cfg_bounds h.instanceOk
  obtain ⟨h0, hlt⟩ := exact_advance_range (L := s.cfg.table.length) (by omega) s.phase s.inc
  exact ⟨h.instanceOk, h0, hlt⟩

/-- GET_SAMPLE in the exact instance, with the words its taps come from. -/
theorem exactGetSample_eq {s : ExactState} (h : s.Inv) {y : Taps Word} (hy : gather s.cfg.table (splitIndex exactNum s.phase) = some y) :
    exactGetSample s = .next ({ s with phase := advance exactNum s.cfg.table.length s.phase s.inc },
      .sample (interp exactNum y.vals (splitFrac exactNum s.phase))) := by
  obtain ⟨hL, -⟩ := cfg_bounds h.instanceOk
  obtain ⟨z, hz, hx⟩ := exactGetSample_of_inv h
  rw [hx, Option.some.inj ((gather_exactTable (by omega) hy).symm.trans hz)]

theorem exactSetFrequency_of_finite {s : ExactState} (h : s.Inv) {f : Word} (hf : isFinite f = true) :
    exactSetFrequency f s = .next ({ s with inc := val f * (s.cfg.table.length : Rat) / (Cfg.rate s.cfg : Rat) },
      .word { status := .ok, data := 0x00000000#32 }) := by
  rw [exactSetFrequency, onExactLegal_of_inv h, exactOperand, if_pos hf]
  rfl

theorem exactSetFrequency_of_not_finite {s : ExactState} (h : s.Inv) {f : Word} (hf : isFinite f = false) :
    exactSetFrequency f s = .next (s, .word { status := .badFrequency, data := 0x00000000#32 }) := by
  rw [exactSetFrequency, onExactLegal_of_inv h, exactOperand, hf]
  rfl

/-- Settles O51: each command by its formula, on a state whose guard passes. -/
theorem exactInstanceFollowsTheFormulas : Obligations.ExactInstanceFollowsTheFormulas := by
  intro s h
  obtain ⟨hL, -⟩ := cfg_bounds h.instanceOk
  refine ⟨?_, fun f hf => exactSetFrequency_of_finite h hf, fun f hf => exactSetFrequency_of_not_finite h hf,
    onExactLegal_of_inv h _, onExactLegal_of_inv h _, onExactLegal_of_inv h _, onExactLegal_of_inv h _, onExactLegal_of_inv h _⟩
  obtain ⟨y, hy, h0, h1, h2, h3⟩ := gather_eq_some (t := s.cfg.table) (by omega) (splitIndex exactNum s.phase)
  simp only [tapIndex_splitIndex h.phaseNonneg, add_zero] at h0 h1 h2 h3
  exact ⟨y.y0, y.y1, y.y2, y.y3, _, _, h0, h1, h2, h3, rfl, exactGetSample_eq h hy, rfl, rfl, exactState_advance_inv h, rfl⟩

/-! ### Agreement -/

/-- What is a value of the format rounds to a word that denotes it (R83(a)). -/
theorem denotes_fl {q : Rat} (h : IsValue q) : Denotes (fl q) q := by
  obtain ⟨w, hw, rfl⟩ := h
  cases hz : isZero w with
  | false => rw [fl_val hw hz]; exact ⟨hw, rfl⟩
  | true =>
    rw [(val_eq_zero_iff w).mpr hz, fl_zero]
    exact ⟨by decide, (val_eq_zero_iff _).mpr (by decide)⟩

theorem denotes_ofNat {n : Nat} (h : IsValue n) : Denotes (ofNat n) n := by
  rw [ofNat_eq_fl]; exact denotes_fl h

/-- INCREMENT rounds nothing where its product and its quotient are values of the format (R89, R99). -/
theorem denotes_increment {L SR : Nat} {f : Word} {x : Rat} (hf : Denotes f x) (hL : L ≤ 2 ^ 24) (hSR : 0 < SR)
    (hSRv : IsValue SR) (hu : IsValue (x * L)) (hv : IsValue (x * L / SR)) :
    Denotes (increment binary32 L SR f) (x * L / SR) := by
  have hl : Denotes (ofNat L) L := ⟨isFinite_ofNat (by omega), val_ofNat hL⟩
  exact denotes_fdiv (denotes_fmul hf hl hu) (denotes_ofNat hSRv) (by exact_mod_cast hSR.ne') hv

/-- ADVANCE rounds nothing where the sum and its modulo are values of the format (R89, R98). -/
theorem denotes_advance {L : Nat} (hL : 0 < L) {p i : Word} {x y : Rat} (hp : Denotes p x) (hi : Denotes i y)
    (hu : IsValue (x + y)) (hv : IsValue (exactMod L (x + y))) :
    Denotes (advance binary32 L p i) (exactMod L (x + y)) := by
  obtain ⟨hf, hs⟩ := denotes_fadd hp hi hu
  have hm := denotes_fl hv
  have hne : val (fl (exactMod L (x + y))) ≠ L := by
    rw [hm.2]; exact (exactMod_range hL _).2.ne
  have hw : advance binary32 L p i = fl (exactMod L (x + y)) := by
    have hwrap := wrap_eq_fl hL hf
    rw [hs, if_neg hne] at hwrap
    exact hwrap
  rw [hw]
  exact hm

/-- A state of the exact instance that denotes a legal one is legal. -/
theorem exactState_inv_of_denotes {s : State} {e : ExactState} (hs : s.Inv) (hcfg : e.cfg = s.cfg) (hphase : e.phase = val s.phase) :
    e.Inv :=
  ⟨hcfg ▸ hs.instanceOk, hphase ▸ hs.phaseNonneg, by rw [hcfg, hphase]; exact hs.phaseBelow⟩

/-- Both instances read the same four words, since `ffloor` is exact (R87, R91). -/
theorem splitIndex_eq_exact {p : Word} (hp : isFinite p = true) : splitIndex binary32 p = splitIndex exactNum (val p) := by
  rw [exact_splitIndex]
  exact toIndex_ffloor_eq hp

/-- The taps of an instance denote their values. -/
theorem denotes_taps {c : Cfg} (h : c.wf = true) {k : Nat} {y : Taps Word} (hy : gather c.table k = some y) :
    Denotes y.y0 (val y.y0) ∧ Denotes y.y1 (val y.y1) ∧ Denotes y.y2 (val y.y2) ∧ Denotes y.y3 (val y.y3) := by
  obtain ⟨hL, -⟩ := cfg_bounds h
  obtain ⟨h0, h1, h2, h3⟩ := getElem?_of_gather (by omega) hy
  have hfin {i : Nat} {w : Word} (hi : c.table[i]? = some w) : Denotes w (val w) :=
    ⟨((Memory.wf_iff _).mp (Cfg.memory_wf h)).2.2 w (List.mem_of_getElem? hi), rfl⟩
  exact ⟨hfin h0, hfin h1, hfin h2, hfin h3⟩

/-- SET_FREQUENCY agrees where the increment rounds nothing. -/
theorem setFrequency_agrees {s : State} {e : ExactState} (hs : s.Inv) (he : e.Inv) (hcfg : e.cfg = s.cfg) {f : Word}
    (hf : isFinite f = true) (hu : IsValue (val f * s.cfg.table.length)) (hSR : IsValue (Cfg.rate s.cfg))
    (hv : IsValue (val f * s.cfg.table.length / Cfg.rate s.cfg)) :
    ∃ (t : State) (d : ExactState), exec (.setFrequency f) s = .next t ∧
      exactExec (.setFrequency f) e = .next (d, .word { status := .ok, data := 0x00000000#32 }) ∧ val t.inc = d.inc := by
  obtain ⟨hfin, hinc⟩ := denotes_increment ⟨hf, rfl⟩ (cfg_bounds hs.instanceOk).2 (rate_pos hs.instanceOk) hSR hu hv
  have hx := execSetFrequency_of_legal ((legal_iff_inv s).mpr hs) f
  rw [if_pos hfin] at hx
  refine ⟨_, _, hx, exactSetFrequency_of_finite he hf, ?_⟩
  rw [hcfg]
  exact hinc

/-- GET_SAMPLE on a state and on an exact state that denotes it: the taps are the same words, and each advances its phase. -/
theorem getSample_both {s : State} {e : ExactState} (hs : s.Inv) (hcfg : e.cfg = s.cfg) (hphase : e.phase = val s.phase) :
    ∃ y : Taps Word, gather s.cfg.table (splitIndex binary32 s.phase) = some y ∧
      exec .getSample s = .next ((s.setPhase (advance binary32 s.cfg.table.length s.phase s.inc)).respond .ok
        (interp binary32 y (splitFrac binary32 s.phase))) ∧
      exactExec .getSample e = .next ({ e with phase := advance exactNum s.cfg.table.length e.phase e.inc },
        .sample (interp exactNum y.vals (splitFrac exactNum e.phase))) := by
  obtain ⟨y, hy, hx⟩ := execGetSample_of_legal ((legal_iff_inv s).mpr hs)
  have hy' : gather e.cfg.table (splitIndex exactNum e.phase) = some y := by
    rw [hcfg, hphase, ← splitIndex_eq_exact hs.phaseFinite, hy]
  exact ⟨y, hy, hx, by rw [← hcfg]; exact exactGetSample_eq (exactState_inv_of_denotes hs hcfg hphase) hy'⟩

/-- Settles O53: the increment, the new phase and the sample, each through the lemma that its operation rounds nothing. -/
theorem exactAgreesWhereNothingRounds : Obligations.ExactAgreesWhereNothingRounds := by
  intro s e hs hcfg hphase hinc
  obtain ⟨hL, -⟩ := cfg_bounds hs.instanceOk
  obtain ⟨y, hy, hx, hx'⟩ := getSample_both hs hcfg hphase
  refine ⟨fun f u v hf hu hv hvu hSR hvv => ?_, fun u v hu hv hvu hvv => ?_, fun z hz hsteps => ?_⟩
  · exact setFrequency_agrees hs (exactState_inv_of_denotes hs hcfg hphase) hcfg hf ⟨u, hu, hvu⟩ hSR ⟨v, hv, hvv⟩
  · rw [hvu] at hvv
    have hadv := denotes_advance (by omega) ⟨hs.phaseFinite, rfl⟩ ⟨hs.incFinite, rfl⟩ ⟨u, hu, hvu⟩ ⟨v, hv, hvv⟩
    refine ⟨_, _, _, hx, hx', ?_⟩
    rw [hphase, hinc]
    exact hadv.2
  · have hzy : z = y.vals := by
      rw [hphase, ← splitIndex_eq_exact hs.phaseFinite, gather_exactTable (by omega) hy] at hz
      exact (Option.some.inj hz).symm
    obtain ⟨h0, h1, h2, h3⟩ := denotes_taps hs.instanceOk hy
    have ht : Denotes (splitFrac binary32 s.phase) (splitFrac exactNum e.phase) := hphase ▸ denotes_splitFrac hs
    subst hzy
    exact ⟨_, _, _, _, hx, rfl, hx', denotes_interp h0 h1 h2 h3 ht hsteps⟩

end Sys2Proof.Machine
end

section
/-! PROOFS. SET_FREQUENCY (R110 to R116): what it leaves when it is accepted and when it is refused, exactly which operands it
refuses, that the phase goes on unbroken, and that the last accepted frequency alone counts. -/

namespace Sys2Proof.Machine

open F32

/-! ### Where products and quotients are finite -/

namespace F32

theorem isFinite_infinity (n : Bool) : isFinite (infinity n) = false := by cases n <;> decide

theorem eq_infinity_of_isInf {w : Word} (h : isInf w = true) : w = infinity (signBit w) := by
  simp only [isInf, Bool.and_eq_true, beq_iff_eq] at h
  obtain ⟨hexp, hfrac⟩ := h
  conv_lhs => rw [← pack_low w, low, hexp, hfrac]
  rfl

theorem isFinite_eq_false_iff (w : Word) : isFinite w = false ↔ isNaN w = true ∨ isInf w = true := by
  constructor
  · intro h
    rcases class_cases w with hf | hi | hn
    · exact absurd (h.symm.trans hf) Bool.false_ne_true
    · exact .inr hi
    · exact .inl hn
  · rintro (hn | hi)
    · exact Bool.eq_false_iff.mpr fun hf => absurd (hn.symm.trans (not_isNaN_of_isFinite hf)) (by decide)
    · rw [eq_infinity_of_isInf hi, isFinite_infinity]

/-- A finite word lies below the overflow threshold, since it is what its own value rounds to (R83). -/
theorem abs_val_lt_threshold {w : Word} (h : isFinite w = true) : |val w| < 2 ^ 128 - 2 ^ 103 := by
  cases hz : isZero w with
  | true => rw [(val_eq_zero_iff w).mpr hz, abs_zero]; norm_num
  | false => rw [← isFinite_fl_iff, fl_val h hz, h]

/-- A product by a finite number other than 0 is finite exactly when the other operand is and the exact product does not
overflow (R83(c), R84, R85). -/
theorem isFinite_fmul_iff {a b : Word} (hb : isFinite b = true) (h0 : isZero b = false) :
    isFinite (fmul a b) = true ↔ isFinite a = true ∧ |val a * val b| < 2 ^ 128 - 2 ^ 103 := by
  cases ha : isFinite a with
  | true =>
    by_cases hp : val a * val b = 0
    · rw [fmul_of_product_zero ha hb hp, isFinite_zero, hp]; norm_num
    · rw [fmul_eq_fl ha hb hp, isFinite_fl_iff]; simp
  | false =>
    have hx : isFinite (fmul a b) = false := by
      rcases (isFinite_eq_false_iff a).mp ha with hn | hi
      · rw [(nan_of_isNaN (.inl hn)).2.2.1]; decide
      · rw [eq_infinity_of_isInf hi, (fmul_infinity _ (not_isNaN_of_isFinite hb) h0).1, isFinite_infinity]
    simp [hx]

/-- A quotient by a finite number of magnitude 1 or more is finite exactly when the dividend is: it does not grow (R84, R85). -/
theorem isFinite_fdiv_iff {a b : Word} (hb : isFinite b = true) (h1 : 1 ≤ |val b|) :
    isFinite (fdiv a b) = true ↔ isFinite a = true := by
  have hb0 : val b ≠ 0 := abs_pos.mp (zero_lt_one.trans_le h1)
  cases ha : isFinite a with
  | true =>
    by_cases ha0 : val a = 0
    · rw [fdiv_of_zero_left ha hb ha0 hb0, isFinite_zero]
    · have hle : |val a / val b| ≤ |val a| := by rw [abs_div]; exact div_le_self (abs_nonneg _) h1
      rw [fdiv_eq_fl ha hb ha0 hb0, isFinite_fl_iff]
      exact iff_of_true (hle.trans_lt (abs_val_lt_threshold ha)) rfl
  | false =>
    rcases (isFinite_eq_false_iff a).mp ha with hn | hi
    · rw [(nan_of_isNaN (.inl hn)).2.2.2]; decide
    · rw [eq_infinity_of_isInf hi, (infinity_with_finite _ hb).2.2.1, isFinite_infinity]

end F32

/-- R113: the increment is finite exactly for a finite frequency whose product with the table length does not overflow. -/
theorem isFinite_increment_iff {L SR : Nat} (hL : 0 < L) (hL2 : L ≤ 2 ^ 24) (hSR : 0 < SR) (hSR2 : SR < 2 ^ 32) (f : Word) :
    isFinite (increment binary32 L SR f) = true ↔ isFinite f = true ∧ |val f| * (L : Rat) < 2 ^ 128 - 2 ^ 103 := by
  have hLf : isFinite (ofNat L) = true := isFinite_ofNat (by omega)
  have hL0 : isZero (ofNat L) = false := by
    rw [isZero_eq_false_iff, val_ofNat hL2]; exact_mod_cast hL.ne'
  have hSRv : 1 ≤ |val (ofNat SR)| := (one_le_val_ofNat hSR).trans (le_abs_self _)
  calc isFinite (increment binary32 L SR f) = true
      ↔ isFinite (fmul f (ofNat L)) = true := isFinite_fdiv_iff (isFinite_ofNat hSR2) hSRv
    _ ↔ _ := by rw [isFinite_fmul_iff hLf hL0, val_ofNat hL2, abs_mul, Nat.abs_cast]

/-! ### Accepted and refused -/

/-- The increment that an instance computes for a frequency (R111). -/
def Cfg.incrementOf (c : Cfg) (f : Word) : Word := increment binary32 c.table.length (Cfg.rate c) f

theorem exec_setFrequency_accepted {s : State} (h : s.Inv) {f : Word} (hf : isFinite (Cfg.incrementOf s.cfg f) = true) :
    exec (.setFrequency f) s = .next ((s.setInc (Cfg.incrementOf s.cfg f)).respond .ok 0x00000000#32) :=
  (execSetFrequency_of_legal ((legal_iff_inv s).mpr h) f).trans (if_pos hf)

theorem exec_setFrequency_refused {s : State} (h : s.Inv) {f : Word} (hf : isFinite (Cfg.incrementOf s.cfg f) = false) :
    exec (.setFrequency f) s = .next (s.respond .badFrequency 0x00000000#32) :=
  (execSetFrequency_of_legal ((legal_iff_inv s).mpr h) f).trans (if_neg (Bool.eq_false_iff.mp hf))

/-- Settles O24: the operand's increment by definition, accepted or refused. -/
theorem setFrequencyStoresTheIncrement : Obligations.SetFrequencyStoresTheIncrement := by
  rintro s f v hs rfl
  exact ⟨exec_setFrequency_accepted hs, exec_setFrequency_refused hs⟩

/-- R113 on an instance. -/
theorem isFinite_incrementOf_iff {c : Cfg} (h : c.wf = true) (f : Word) :
    isFinite (Cfg.incrementOf c f) = true ↔ isFinite f = true ∧ |val f| * (c.table.length : Rat) < 2 ^ 128 - 2 ^ 103 := by
  obtain ⟨hL, hL2⟩ := cfg_bounds h
  exact isFinite_increment_iff (by omega) hL2 (rate_pos h) c.sr.isLt f

/-- Settles O25: the increment of an operand is finite exactly when the operand is and its product with `L` does not overflow. -/
theorem badFrequencyExactlyOnOverflow : Obligations.BadFrequencyExactlyOnOverflow := by
  intro s f hs
  have hiff := isFinite_incrementOf_iff hs.instanceOk f
  refine ⟨fun hbad => exec_setFrequency_refused hs (Bool.eq_false_iff.mpr fun hv => ?_), fun hgood =>
    ⟨_, hiff.mpr hgood, exec_setFrequency_accepted hs (hiff.mpr hgood)⟩⟩
  obtain ⟨hf, hlt⟩ := hiff.mp hv
  rcases hbad with hn | hi | ⟨-, hge⟩
  · exact absurd (hf.symm.trans ((isFinite_eq_false_iff f).mpr (.inl hn))) (by decide)
  · exact absurd (hf.symm.trans ((isFinite_eq_false_iff f).mpr (.inr hi))) (by decide)
  · exact absurd hlt (not_lt.mpr hge)

/-! ### The phase goes on -/

/-- GET_SAMPLE answers the sample at the phase it found, which depends on the phase and the table alone, and advances by the
increment in force (R120, R124). -/
theorem exec_getSample_of_inv {s : State} (h : s.Inv) :
    ∃ out, sampleAt binary32 s.cfg.table s.phase = some out ∧
      exec .getSample s = .next ((s.setPhase (wrap s.cfg.table.length (fadd s.phase s.inc))).respond .ok out) := by
  obtain ⟨y, hy, hx⟩ := execGetSample_of_legal ((legal_iff_inv s).mpr h)
  exact ⟨_, by rw [sampleAt, hy], hx⟩

/-- SET_FREQUENCY, accepted or refused, leaves the constants and the phase (R110, R114). -/
theorem setFrequency_frame {s t : State} {f : Word} (h : exec (.setFrequency f) s = .next t) : t.cfg = s.cfg ∧ t.phase = s.phase :=
  ⟨(exec_frame h).1, by_contra fun hp => Instr.noConfusion (getSample_of_phase_ne h hp)⟩

/-- Settles O26: SET_FREQUENCY keeps the phase and the table, and so the sample. -/
theorem frequencyChangeIsPhaseContinuous : Obligations.FrequencyChangeIsPhaseContinuous := by
  intro s s1 f h
  obtain ⟨hcfg, hphase⟩ := setFrequency_frame h
  obtain ⟨out, hout, hx⟩ := exec_getSample_of_inv ((exec_next_iff_inv _ s).mp ⟨s1, h⟩)
  obtain ⟨out1, hout1, hx1⟩ := exec_getSample_of_inv (exec_keeps_inv h)
  rw [hcfg, hphase] at hout1 hx1
  obtain rfl : out1 = out := Option.some.inj (hout1.symm.trans hout)
  exact ⟨hphase, out1, _, _, hx, hx1, rfl, rfl, rfl⟩

/-! ### Two in a row -/

/-- What a SET_FREQUENCY that goes on leaves: the increment of its operand, or what it found (R110). -/
theorem exec_setFrequency_next_cases {s t : State} {f : Word} (h : exec (.setFrequency f) s = .next t) :
    (isFinite (Cfg.incrementOf s.cfg f) = true ∧ t = (s.setInc (Cfg.incrementOf s.cfg f)).respond .ok 0x00000000#32) ∨
    (isFinite (Cfg.incrementOf s.cfg f) = false ∧ t = s.respond .badFrequency 0x00000000#32) := by
  have hs : s.Inv := (exec_next_iff_inv _ s).mp ⟨t, h⟩
  cases hf : isFinite (Cfg.incrementOf s.cfg f) with
  | true => exact .inl ⟨rfl, Host.Outcome.next.inj (h.symm.trans (exec_setFrequency_accepted hs hf))⟩
  | false => exact .inr ⟨rfl, Host.Outcome.next.inj (h.symm.trans (exec_setFrequency_refused hs hf))⟩

/-- Settles O27: the second command computes its increment from the operand and the configuration, which the first left as
they were. -/
theorem lastGoodFrequencyCounts : Obligations.LastGoodFrequencyCounts := by
  intro s s1 s2 f g h1 h2
  have hs : s.Inv := (exec_next_iff_inv _ s).mp ⟨s1, h1⟩
  obtain ⟨hcfg, hphase⟩ := setFrequency_frame h1
  rcases exec_setFrequency_next_cases h2 with ⟨hg, rfl⟩ | ⟨hg, rfl⟩
  · rw [hcfg] at hg ⊢
    refine ⟨?_, fun _ => ⟨_, exec_setFrequency_accepted hs hg, hphase, rfl, hcfg⟩⟩
    rintro rfl
    rcases exec_setFrequency_next_cases h1 with ⟨-, rfl⟩ | ⟨hf, -⟩
    · exact ⟨rfl, rfl, rfl⟩
    · exact absurd (hg.symm.trans hf) (by decide)
  · exact ⟨fun _ => ⟨rfl, rfl, rfl⟩, fun hr => by simp at hr⟩

end Sys2Proof.Machine
end

section
/-! PROOFS. GET_SAMPLE (R120 to R136): the four reads and the advance, what the sample depends on, the sample at a knot, the
held phase, and how the phase goes forward and backward around the table. -/

namespace Sys2Proof.Machine

open F32

/-! ### The reads and the advance -/

theorem table_length_pos {c : Cfg} (h : c.wf = true) : 0 < c.table.length :=
  zero_lt_four.trans_le (cfg_bounds h).1

/-- The index of a tap, from the floor of the phase (R43, R91). -/
theorem tapIndex_splitIndex_of_inv {s : State} (h : s.Inv) (d : Int) :
    tapIndex s.cfg.table.length (splitIndex binary32 s.phase) d =
      ((⌊val s.phase⌋ + d) % (s.cfg.table.length : Int)).toNat := by
  rw [splitIndex_eq_exact h.phaseFinite, tapIndex_splitIndex h.phaseNonneg]

/-- Settles O17: the meaning of GET_SAMPLE on a legal state, with its reads at the floor of the phase. -/
theorem getSampleInterpolatesThenAdvances : Obligations.GetSampleInterpolatesThenAdvances := by
  intro s h
  obtain ⟨y, hy, hx⟩ := execGetSample_of_legal ((legal_iff_inv s).mpr h)
  obtain ⟨h0, h1, h2, h3⟩ := getElem?_of_gather (table_length_pos h.instanceOk) hy
  simp only [tapIndex_splitIndex_of_inv h, add_zero] at h0 h1 h2 h3
  exact ⟨y.y0, y.y1, y.y2, y.y3, h0, h1, h2, h3, hx⟩

/-- Settles O18: both samples are `sampleAt` of the one phase and the one table. -/
theorem sampleDependsOnPhaseAndTableOnly : Obligations.SampleDependsOnPhaseAndTableOnly := by
  intro s1 s2 h1 h2 hphase htable
  obtain ⟨out1, hout1, hx1⟩ := exec_getSample_of_inv h1
  obtain ⟨out2, hout2, hx2⟩ := exec_getSample_of_inv h2
  rw [hphase, htable] at hout1
  obtain rfl : out1 = out2 := Option.some.inj (hout1.symm.trans hout2)
  exact ⟨out1, _, _, hx1, hx2, rfl, rfl⟩

/-! ### Knots -/

theorem tapIndex_zero {L k : Nat} (h : k < L) : tapIndex L k 0 = k := by
  rw [tapIndex, add_zero, Int.emod_eq_of_lt (Int.natCast_nonneg k) (by exact_mod_cast h), Int.toNat_natCast]

/-- At an integer phase the fraction is `+0`, so the sample is the second tap, the table entry at that integer (R95, R132). -/
theorem sampleAt_knot {s : State} {k : Nat} (h : s.Inv) (hk : val s.phase = k) :
    ∃ y out, s.cfg.table[k]? = some y ∧ sampleAt binary32 s.cfg.table s.phase = some out ∧ isFinite out = true ∧
      val out = val y ∧ (isZero y = false → out = y) := by
  have hL := table_length_pos h.instanceOk
  have hlt : k < s.cfg.table.length := by have hb := h.phaseBelow; rw [hk] at hb; exact_mod_cast hb
  have hindex : splitIndex binary32 s.phase = k := by
    rw [splitIndex_eq_exact h.phaseFinite, exact_splitIndex, hk, Int.floor_natCast, Int.toNat_natCast]
  have hfrac : splitFrac binary32 s.phase = 0x00000000#32 :=
    eq_posZero (by rw [(denotes_splitFrac h).2, hk, Int.fract_natCast]) (signBit_splitFrac h)
  obtain ⟨y, hy, hs⟩ := sampleAt_eq_some binary32 hL s.phase
  rw [hindex] at hy
  rw [hfrac] at hs
  obtain ⟨-, hread, -⟩ := getElem?_of_gather hL hy
  rw [tapIndex_zero hlt] at hread
  obtain ⟨d0, d1, d2, d3⟩ := denotes_taps h.instanceOk hy
  obtain ⟨-, hknot, -⟩ := interpolationIsExactAtKnots
  obtain ⟨hfin, hval, hword, -⟩ := hknot y _ d0.1 d1.1 d2.1 d3.1 rfl
  exact ⟨y.y1, _, hread, hs, hfin, hval, hword⟩

theorem val_posZero : val 0x00000000#32 = 0 := (val_eq_zero_iff _).mpr (by decide)

/-- GET_SAMPLE at an integer phase answers the table entry there (R132). -/
theorem exec_getSample_knot {s : State} {k : Nat} (h : s.Inv) (hk : val s.phase = k) :
    ∃ (y out : Word) (t : State), s.cfg.table[k]? = some y ∧ exec .getSample s = .next t ∧
      t.rsps = s.rsps ++ [{ status := .ok, data := out }] ∧ isFinite out = true ∧ val out = val y ∧
      (isZero y = false → out = y) := by
  obtain ⟨y, out, hread, hout, hentry⟩ := sampleAt_knot h hk
  obtain ⟨out', hout', hx⟩ := exec_getSample_of_inv h
  obtain rfl : out' = out := Option.some.inj (hout'.symm.trans hout)
  exact ⟨y, out', _, hread, hx, rfl, hentry⟩

/-- Settles O19: a phase at a knot, of which the phase after reset is one. -/
theorem knotSampleIsTheTableEntry : Obligations.KnotSampleIsTheTableEntry := by
  refine ⟨fun s k => exec_getSample_knot, fun c h => ?_⟩
  have hzero : val (State.resetOf c h).phase = ((0 : Nat) : Rat) := val_posZero.trans Nat.cast_zero.symm
  obtain ⟨y, out, t, hread, hx, hrsps, -, hval, -⟩ := exec_getSample_knot (resetOf_inv c h) hzero
  exact ⟨y, out, t, hread, hx, hrsps, hval⟩

/-! ### The held phase -/

theorem signBit_phase {s : State} (h : s.Inv) : signBit s.phase = false := by
  obtain ⟨-, hphase, -⟩ := (legal_iff s).mp ((legal_iff_inv s).mpr h)
  exact signBit_of_phaseOk hphase

/-- WRAP keeps a phase within R23 (R97(b)). -/
theorem wrap_phase {s : State} (h : s.Inv) : wrap s.cfg.table.length s.phase = s.phase :=
  wrap_of_inRange (table_length_pos h.instanceOk) (cfg_bounds h.instanceOk).2 h.phaseFinite (signBit_phase h)
    ((val_lt_nat_iff _ _).mp h.phaseBelow)

/-- Adding a zero of either sign keeps the phase, since a phase of 0 is `+0` (R23(a), R84). -/
theorem fadd_phase_of_isZero {s : State} (h : s.Inv) {z : Word} (hz : isZero z = true) : fadd s.phase z = s.phase := by
  cases hp : isZero s.phase with
  | false => exact fadd_zero_right hz h.phaseFinite hp
  | true => rw [fadd_zeros hp hz, signBit_phase h, Bool.false_and, ← signBit_phase h, ← eq_zero_of_isZero hp]

/-- A GET_SAMPLE whose increment the phase absorbs changes nothing but the record of responses (R131). -/
theorem exec_getSample_of_hold {s : State} (h : s.Inv) (hsum : fadd s.phase s.inc = s.phase) {out : Word}
    (hout : sampleAt binary32 s.cfg.table s.phase = some out) :
    exec .getSample s = .next { s with rsps := s.rsps ++ [{ status := .ok, data := out }] } := by
  obtain ⟨out', hout', hx⟩ := exec_getSample_of_inv h
  obtain rfl : out' = out := Option.some.inj (hout'.symm.trans hout)
  rw [hx, hsum, wrap_phase h]
  rfl

/-- The record of responses is no part of the invariant. -/
theorem inv_of_rsps {s : State} (h : s.Inv) (rs : List Response) : ({ s with rsps := rs } : State).Inv :=
  ⟨h.instanceOk, h.phaseFinite, h.phaseNonneg, h.phaseBelow, h.phaseNotNegZero, h.incFinite⟩

/-- Settles O21: the sum is the phase, WRAP keeps it, and the sample is that of the one phase. -/
theorem zeroIncrementHoldsTheSample : Obligations.ZeroIncrementHoldsTheSample := by
  intro s h hinc
  have hsum : fadd s.phase s.inc = s.phase := hinc.elim (fadd_phase_of_isZero h) id
  obtain ⟨out, hout, -⟩ := exec_getSample_of_inv h
  exact ⟨by rw [hsum, wrap_phase h], out, hout, fun rs => exec_getSample_of_hold (inv_of_rsps h rs) hsum hout⟩

/-- Settles O20: the phase `+0` is the knot 0 and the increment `+0` holds it; of the commands only an accepted SET_FREQUENCY
changes the increment. -/
theorem staticUntilAFrequencyIsSet : Obligations.StaticUntilAFrequencyIsSet := by
  refine ⟨fun c h => ⟨rfl, rfl⟩, fun s h hphase hinc => ?_, fun i s t hphase hinc hx hnotOk => ?_⟩
  · have hzero : val s.phase = ((0 : Nat) : Rat) := by rw [hphase, val_posZero, Nat.cast_zero]
    have hsum : fadd s.phase s.inc = s.phase := fadd_phase_of_isZero h (hinc ▸ by decide)
    obtain ⟨y, out, hread, hout, -, hval, hword⟩ := sampleAt_knot h hzero
    exact ⟨y, out, hread, hval, hword, exec_getSample_of_hold h hsum hout⟩
  · have h : s.Inv := (exec_next_iff_inv i s).mp ⟨t, hx⟩
    rcases exec_next_cases hx with ⟨-, out, rfl⟩ | ⟨f, v, hi, -, rfl⟩ | ⟨-, st, d, rfl⟩
    · have hsum : fadd s.phase s.inc = s.phase := fadd_phase_of_isZero h (hinc ▸ by decide)
      have hadv : advance binary32 s.cfg.table.length s.phase s.inc = s.phase :=
        (congrArg (wrap s.cfg.table.length) hsum).trans (wrap_phase h)
      exact ⟨hadv.trans hphase, hinc⟩
    · exact absurd rfl (hnotOk f hi)
    · exact ⟨hphase, hinc⟩

end Sys2Proof.Machine
end

section
/-! PROOFS. Playback (R135, R136): a rounded sum keeps the order of the values of the format, a forward sum passes the old phase
by no more than `L`, and WRAP then takes `L` away or adds it once. -/

namespace Sys2Proof.Machine.F32

/-! ### The rounded sum and the order of the values -/

theorem val_fl_val {w : Word} (h : isFinite w = true) : val (fl (val w)) = val w := (denotes_fl ⟨w, h, rfl⟩).2

section
variable {a b c : Word} (ha : isFinite a = true) (hb : isFinite b = true) (hc : isFinite c = true)
include ha hb

/-- As a number the sum is the exact sum rounded, a sum of 0 included (R84). -/
theorem val_fadd : val (fadd a b) = val (fl (val a + val b)) := by
  by_cases h0 : val a + val b = 0
  · rw [fadd_of_sum_zero ha hb h0, h0, val_fl_zero, val_eq_zero_iff]; exact isZero_zero _
  · rw [fadd_eq_fl ha hb h0]

/-- A sum whose value is not negative has sign bit 0, if its first operand has: no negative sum rounds to a zero (R84). -/
theorem signBit_fadd_of_val_nonneg (hs : signBit a = false) (h : 0 ≤ val (fadd a b)) : signBit (fadd a b) = false := by
  rcases le_or_gt 0 (val a + val b) with h0 | h0
  · exact signBit_fadd_of_nonneg ha hb h0 (by rw [hs, Bool.false_and])
  · have hle : val (fadd a b) ≤ 0 := by rw [val_fadd ha hb, ← val_fl_zero]; exact val_fl_mono h0.le
    have hne := (isZero_eq_false_iff _).mp (sum_ne_zero_bounds ha hb h0.ne).2
    exact absurd (le_antisymm hle h) hne

include hc

theorem le_val_fadd (h : val c ≤ val a + val b) : val c ≤ val (fadd a b) := by
  rw [val_fadd ha hb, ← val_fl_val hc]; exact val_fl_mono h

theorem val_fadd_le (h : val a + val b ≤ val c) : val (fadd a b) ≤ val c := by
  rw [val_fadd ha hb, ← val_fl_val hc]; exact val_fl_mono h

end

/-! ### The spacing of the format below a value -/

/-- Below a positive value there is a spacing `2^e` by which every smaller one stays away from it, and which the value exceeds
at most `2^24` times (R81). -/
theorem exists_spacing_below {w : Word} (hw : 0 < val w) :
    ∃ e : Nat, val w ≤ 2 ^ 24 * (2 ^ e / scale) ∧ ∀ v : Word, 0 ≤ val v → val v < val w → val v + 2 ^ e / scale ≤ val w := by
  have hval {v : Word} (h : 0 ≤ val v) : val v = (magOf (low v) : Rat) / scale := by rw [← abs_val, abs_of_nonneg h]
  have hpos : 0 < low w := by
    rw [← magOf_strictMono.lt_iff_lt, magOf_zero]
    rw [hval hw.le] at hw
    exact_mod_cast (div_pos_iff_of_pos_right scale_pos_rat).mp hw
  obtain ⟨e, q, hlow, hq, he⟩ := exists_canonical (low w - 1)
  have hpred : magOf (low w - 1) = q * 2 ^ e := by rw [hlow, magOf_canonical hq.le he]
  have hself : magOf (low w) = (q + 1) * 2 ^ e := by
    rw [show low w = e * 2 ^ 23 + (q + 1) by omega, magOf_canonical hq (by omega)]
  refine ⟨e, ?_, fun v hv hlt => ?_⟩
  · rw [hval hw.le, hself, ← mul_div_assoc, div_le_div_iff_of_pos_right scale_pos_rat]
    exact_mod_cast Nat.mul_le_mul_right _ hq
  · rw [hval hv, hval hw.le, div_lt_div_iff_of_pos_right scale_pos_rat, Nat.cast_lt, magOf_strictMono.lt_iff_lt] at hlt
    have hle : magOf (low v) ≤ q * 2 ^ e := hpred ▸ magOf_le_iff.mpr (by omega)
    rw [hval hv, hval hw.le, hself, ← add_div, div_le_div_iff_of_pos_right scale_pos_rat]
    exact_mod_cast (Nat.add_le_add_right hle _).trans_eq (Nat.succ_mul q _).symm

/-- Up to `2^24` spacings a number lies less than one spacing above a value of the format. -/
theorem exists_val_just_below {x : Rat} {e : Nat} (h0 : 0 ≤ x) (hx : x ≤ 2 ^ 24 * (2 ^ e / scale)) (hfin : x < 2 ^ 128) :
    ∃ v : Word, val v ≤ x ∧ x < val v + 2 ^ e / scale := by
  have hg : (0 : Rat) < 2 ^ e / scale := div_pos (by positivity) scale_pos_rat
  have hle : (⌊x / (2 ^ e / scale)⌋₊ : Rat) * (2 ^ e / scale) ≤ x := by
    rw [← le_div_iff₀ hg]; exact Nat.floor_le (div_nonneg h0 hg.le)
  have hlt : x < (⌊x / (2 ^ e / scale)⌋₊ + 1 : Rat) * (2 ^ e / scale) := by
    rw [← div_lt_iff₀ hg]; exact Nat.lt_floor_add_one _
  have hq : ⌊x / (2 ^ e / scale)⌋₊ ≤ 2 ^ 24 := Nat.floor_le_of_le (by rw [div_le_iff₀ hg]; exact_mod_cast hx)
  generalize ⌊x / (2 ^ e / scale)⌋₊ = q at hle hlt hq
  have hbound : q * 2 ^ e < 2 ^ 128 * scale := by
    have h := hle.trans_lt hfin
    rw [← mul_div_assoc, div_lt_iff₀ scale_pos_rat] at h
    exact_mod_cast h
  obtain ⟨n, hn, hmag⟩ := exists_finite_magOf hq e hbound
  have hval : val (pack false n) = q * (2 ^ e / scale) := by
    rw [val, scaled_pack false (by omega), hmag, if_neg Bool.false_ne_true]; push_cast; rw [mul_div_assoc]
  exact ⟨pack false n, hval ▸ hle, by rw [hval, ← add_one_mul]; exact hlt⟩

/-- A positive increment below `L` moves a phase by at most `L`, rounded as the sum is: some value of the format lies as near to
the exact sum as `p + L` does and not above it (R135). -/
theorem val_fadd_le_add_length {L : Nat} (hL2 : L ≤ 2 ^ 24) {p i : Word} (hp : isFinite p = true) (hi : isFinite i = true)
    (hp0 : 0 ≤ val p) (hpL : val p < L) (hi0 : 0 < val i) (hiL : val i < L) : val (fadd p i) ≤ val p + L := by
  have hLv : val (ofNat L) = L := val_ofNat hL2
  have hfit : 2 * (L : Rat) < 2 ^ 128 - 2 ^ 103 := by
    have hL24 : (L : Rat) ≤ 2 ^ 24 := by exact_mod_cast hL2
    exact (mul_le_mul_of_nonneg_left hL24 zero_le_two).trans_lt (by norm_num)
  obtain ⟨e, hspan, hgap⟩ := exists_spacing_below (w := ofNat L) (by rw [hLv]; exact hi0.trans hiL)
  rw [hLv] at hspan
  have hi' := hgap i hi0.le (by rw [hLv]; exact hiL)
  rw [hLv] at hi'
  have hdouble : (2 : Rat) ^ (e + 1) / scale = 2 * (2 ^ e / scale) := by rw [pow_succ]; ring
  obtain ⟨v, hv1, hv2⟩ := exists_val_just_below (x := val p + L) (e := e + 1) (by linarith) (by rw [hdouble]; linarith)
    (by linarith)
  rw [hdouble] at hv2
  have hfin : isFinite (fl (val p + val i)) = true := by
    rw [isFinite_fl_iff, abs_of_nonneg (by linarith)]; linarith
  have hnear : |val p + val i - val (fl (val p + val i))| ≤ L - val i :=
    (fl_nearest hfin v).trans (abs_le.mpr ⟨by linarith, by linarith⟩)
  rw [val_fadd hp hi]
  linarith [(abs_le.mp hnear).1]

/-! ### The modulo one turn away -/

/-- The exact modulo of a number in the `n`-th turn of the table. -/
theorem exactMod_eq_sub {L : Nat} (hL : 0 < L) {x : Rat} (n : Int) (h1 : n * (L : Rat) ≤ x) (h2 : x < (n + 1) * (L : Rat)) :
    exactMod L x = x - n * L := by
  have hL0 : (0 : Rat) < L := by exact_mod_cast hL
  have hfloor : ⌊x / (L : Rat)⌋ = n := Int.floor_eq_iff.mpr ⟨(le_div_iff₀ hL0).mpr h1, (div_lt_iff₀ hL0).mpr h2⟩
  rw [exactMod, hfloor, mul_comm]

end Sys2Proof.Machine.F32

namespace Sys2Proof.Machine

open F32

section
variable {s : State} (h : s.Inv)
include h

theorem isFinite_sum : isFinite (fadd s.phase s.inc) = true := by
  have hlt : mag s.phase < 2 ^ 24 * scale := by
    have hb := (val_lt_nat_iff _ _).mp h.phaseBelow
    rw [scaled_nonneg_of_signBit (signBit_phase h)] at hb
    exact (by exact_mod_cast hb : mag s.phase < _).trans_le (Nat.mul_le_mul_right _ (cfg_bounds h.instanceOk).2)
  exact isFinite_fadd_phase h.phaseFinite hlt h.incFinite

/-- WRAP keeps a sum in `[0, L)` bit for bit (R97(b)). -/
theorem wrap_sum_of_inRange (h0 : 0 ≤ val (fadd s.phase s.inc)) (hlt : val (fadd s.phase s.inc) < s.cfg.table.length) :
    wrap s.cfg.table.length (fadd s.phase s.inc) = fadd s.phase s.inc :=
  wrap_of_inRange (table_length_pos h.instanceOk) (cfg_bounds h.instanceOk).2 (isFinite_sum h)
    (signBit_fadd_of_val_nonneg h.phaseFinite h.incFinite (signBit_phase h) h0) ((val_lt_nat_iff _ _).mp hlt)

end

/-- Settles O22: the sum is not below the old phase, and not above the old phase plus `L`. -/
theorem forwardPlaybackAdvancesOrWraps : Obligations.ForwardPlaybackAdvancesOrWraps := by
  intro s h hi0 hiL
  obtain ⟨hL, hL2⟩ := cfg_bounds h.instanceOk
  obtain ⟨out, -, hx⟩ := exec_getSample_of_inv h
  have hlow : val s.phase ≤ val (fadd s.phase s.inc) := le_val_fadd h.phaseFinite h.incFinite h.phaseFinite (by linarith)
  have hhigh : val (fadd s.phase s.inc) ≤ val s.phase + s.cfg.table.length :=
    val_fadd_le_add_length hL2 h.phaseFinite h.incFinite h.phaseNonneg h.phaseBelow hi0 hiL
  have h0 := h.phaseNonneg.trans hlow
  refine ⟨_, hx, fun hlt => ?_, fun hge => ?_⟩ <;> rw [State.respond_phase, State.setPhase_phase]
  · rw [wrap_sum_of_inRange h h0 hlt]
    exact ⟨rfl, hlow⟩
  · have hbelow := h.phaseBelow
    have hmod := exactMod_eq_sub (L := s.cfg.table.length) (by omega) 1 (by push_cast; linarith)
      (by push_cast; linarith : val (fadd s.phase s.inc) < _)
    rw [val_wrap_of_nonneg hL hL2 (isFinite_sum h) h0, hmod, Int.cast_one, one_mul]
    exact ⟨rfl, by linarith⟩

/-- Settles O23: the sum lies between the increment and the old phase, so below 0 it is in the turn just before the table. -/
theorem reversePlaybackWrapsBelowZero : Obligations.ReversePlaybackWrapsBelowZero := by
  intro s h hiL hi0
  obtain ⟨hL, hL2⟩ := cfg_bounds h.instanceOk
  obtain ⟨out, -, hx⟩ := exec_getSample_of_inv h
  have hp0 := h.phaseNonneg
  have hlow : val s.inc ≤ val (fadd s.phase s.inc) := le_val_fadd h.phaseFinite h.incFinite h.incFinite (by linarith)
  have hhigh : val (fadd s.phase s.inc) ≤ val s.phase := val_fadd_le h.phaseFinite h.incFinite h.phaseFinite (by linarith)
  obtain ⟨-, hnonneg, -⟩ := wrap_range hL hL2 (isFinite_sum h)
  refine ⟨_, hx, hnonneg, fun h0 => wrap_sum_of_inRange h h0 (hhigh.trans_lt h.phaseBelow), fun hneg => ?_⟩
  have hmod := exactMod_eq_sub (L := s.cfg.table.length) (by omega) (-1) (by push_cast; linarith)
    (by push_cast; linarith : val (fadd s.phase s.inc) < _)
  have hadd : exactMod s.cfg.table.length (val (fadd s.phase s.inc)) = s.cfg.table.length + val (fadd s.phase s.inc) := by
    rw [hmod]; push_cast; ring
  rw [State.respond_phase, State.setPhase_phase, wrap_eq_fl (by omega) (isFinite_sum h), hadd]

end Sys2Proof.Machine
end

section
/-! PROOFS. The exact instance over many pulls (R134) and across the seam (R132, R133). -/

namespace Sys2Proof.Machine

open F32

/-! ### The phase after many pulls -/

/-- Whole turns of the table do not change the modulo. -/
theorem exactMod_add_mul {L : Nat} (hL : 0 < L) (x : Rat) (m : Int) : exactMod L (x + m * L) = exactMod L x := by
  have h : (L : Rat) ≠ 0 := by exact_mod_cast hL.ne'
  rw [exactMod_eq hL, exactMod_eq hL, add_div, mul_div_cancel_right₀ _ h, Int.fract_add_intCast]

theorem exactMod_of_inRange {L : Nat} (hL : 0 < L) {x : Rat} (h0 : 0 ≤ x) (hlt : x < L) : exactMod L x = x := by
  rw [exactMod_eq_sub hL 0 (by simpa using h0) (by simpa using hlt), Int.cast_zero, zero_mul, sub_zero]

/-- A modulo taken in the middle of a sum does not change the modulo at its end. -/
theorem exactMod_exactMod_add {L : Nat} (hL : 0 < L) (x y : Rat) : exactMod L (exactMod L x + y) = exactMod L (x + y) := by
  rw [← exactMod_add_mul hL (exactMod L x + y) ⌊x / (L : Rat)⌋]
  congr 1
  rw [exactMod]
  ring

/-- The phase after `n` pulls (R126, R134). -/
theorem exactPhaseAfter_eq {L : Nat} (hL : 0 < L) (inc : Rat) (n : Nat) {p : Rat} (h0 : 0 ≤ p) (hlt : p < L) :
    exactPhaseAfter L inc n p = exactMod L (p + n * inc) := by
  induction n generalizing p with
  | zero => rw [exactPhaseAfter, Nat.cast_zero, zero_mul, add_zero, exactMod_of_inRange hL h0 hlt]
  | succ n ih =>
    obtain ⟨h0', hlt'⟩ := exact_advance_range hL p inc
    calc exactPhaseAfter L inc (n + 1) p = exactMod L (exactMod L (p + inc) + n * inc) := ih h0' hlt'
      _ = exactMod L (p + (n + 1 : Nat) * inc) := by rw [exactMod_exactMod_add hL]; push_cast; ring_nf

/-- Pulls that go a whole number of times around the table come back to the phase (R134). -/
theorem exactPhaseAfter_period {L : Nat} (hL : 0 < L) {inc p : Rat} (h0 : 0 ≤ p) (hlt : p < L) {n : Nat} {m : Int}
    (hm : (n : Rat) * inc = m * L) : exactPhaseAfter L inc n p = p := by
  rw [exactPhaseAfter_eq hL inc n h0 hlt, hm, exactMod_add_mul hL, exactMod_of_inRange hL h0 hlt]

theorem exactPhaseAfter_add (L : Nat) (inc : Rat) (n j : Nat) (p : Rat) :
    exactPhaseAfter L inc (n + j) p = exactPhaseAfter L inc j (exactPhaseAfter L inc n p) := by
  induction n generalizing p with
  | zero => rw [Nat.zero_add]; rfl
  | succ n ih => rw [Nat.succ_add]; exact ih _

/-- Settles O46: the closed form of the phase, and its period. -/
theorem exactPhaseIsPeriodic : Obligations.ExactPhaseIsPeriodic := by
  intro L inc p hL h0 hlt
  refine ⟨fun n => ?_, fun n m hm => ?_⟩
  · have hn := exactPhaseAfter_eq hL inc n h0 hlt
    exact ⟨hn, hn ▸ exactMod_range hL _⟩
  · have hback := exactPhaseAfter_period hL h0 hlt hm
    exact ⟨hback, fun j => by rw [exactPhaseAfter_add, hback]⟩

/-! ### The samples of many pulls -/

/-- One run after another: the answers stand one after another (R51). -/
theorem exactRun_append {xs ys : List Instr} {s t u : ExactState} {as bs : List ExactAnswer}
    (hx : exactRun xs s = .next (t, as)) (hy : exactRun ys t = .next (u, bs)) :
    exactRun (xs ++ ys) s = .next (u, as ++ bs) := by
  induction xs generalizing s as with
  | nil => cases hx; exact hy
  | cons i xs ih =>
    cases hi : exactExec i s with
    | next ta =>
      cases hr : exactRun xs ta.1 with
      | next uas =>
        simp only [exactRun, hi, hr] at hx
        cases hx
        simp only [List.cons_append, exactRun, hi, ih hr]
      | fault e => simp [exactRun, hi, hr] at hx
      | refused e => simp [exactRun, hi, hr] at hx
    | fault e => simp [exactRun, hi] at hx
    | refused e => simp [exactRun, hi] at hx

/-- Pulls all complete, one answer each, and move the phase alone (R129). -/
theorem exactRun_pulls (n : Nat) {s : ExactState} (h : s.Inv) :
    ∃ as : List ExactAnswer, as.length = n ∧ exactRun (List.replicate n .getSample) s =
      .next ({ s with phase := exactPhaseAfter s.cfg.table.length s.inc n s.phase }, as) := by
  induction n generalizing s with
  | zero => exact ⟨[], rfl, rfl⟩
  | succ n ih =>
    obtain ⟨y, -, hx⟩ := exactGetSample_of_inv h
    obtain ⟨as, hlen, hrun⟩ := ih (exactState_advance_inv h)
    have hone : exactRun [.getSample] s = .next ({ s with phase := advance exactNum s.cfg.table.length s.phase s.inc },
        [.sample (interp exactNum y (splitFrac exactNum s.phase))]) := by
      simp only [exactRun, exactExec, hx]
    exact ⟨_ :: as, congrArg (· + 1) hlen, exactRun_append hone hrun⟩

/-- Settles O52: pulls that come back to the phase come back to the state, and a longer run starts afresh from there. -/
theorem exactSamplesRepeat : Obligations.ExactSamplesRepeat := by
  intro s n h
  obtain ⟨as, hlen, hrun⟩ := exactRun_pulls n h
  refine ⟨⟨as, hlen, hrun⟩, fun m hm => ⟨as, hlen, ?_⟩⟩
  rw [exactPhaseAfter_period (table_length_pos h.instanceOk) h.phaseNonneg h.phaseBelow hm] at hrun
  exact ⟨hrun, fun j t bs hj => by rw [List.replicate_add]; exact exactRun_append hrun hj⟩

/-! ### The seam -/

theorem weights_exact_zero : weights exactNum 0 = { a0 := 0, a1 := 1, a2 := 0, a3 := 0 } := idealWeightsFormTheSpline.1

theorem interp_exact_zero (y : Taps Rat) : interp exactNum y 0 = y.y1 := by
  rw [interp, weights_exact_zero]
  show 0 * y.y0 + 1 * y.y1 + 0 * y.y2 + 0 * y.y3 = y.y1
  ring

/-- A tap of a table is the same tap one length further on. -/
theorem tapIndex_add_length (L k : Nat) (d : Int) : tapIndex L (k + L) d = tapIndex L k d := by
  rw [tapIndex, Nat.cast_add, add_right_comm, Int.add_emod_right, tapIndex]

/-- Two copies of a table end to end hold the entry of the one at every index, modulo its length. -/
theorem getElem?_append_self {α : Type} (t : List α) {j : Nat} (hj : j < t.length + t.length) :
    (t ++ t)[j]? = t[j % t.length]? := by
  rcases Nat.lt_or_ge j t.length with h | h
  · rw [List.getElem?_append_left h, Nat.mod_eq_of_lt h]
  · rw [List.getElem?_append_right h, Nat.mod_eq_sub_mod h, Nat.mod_eq_of_lt (by omega)]

/-- A tap of two copies of a table is the tap of the one. -/
theorem getElem?_tapIndex_append_self {α : Type} {t : List α} (ht : 0 < t.length) (k : Nat) (d : Int) :
    (t ++ t)[tapIndex (t ++ t).length k d]? = t[tapIndex t.length k d]? := by
  have hmod : tapIndex (t.length + t.length) k d % t.length = tapIndex t.length k d := by
    have hdvd : (t.length : Int) ∣ ((t.length + t.length : Nat) : Int) := ⟨2, by push_cast; ring⟩
    zify
    rw [natCast_tapIndex (by omega), natCast_tapIndex ht, Int.emod_emod_of_dvd _ hdvd]
  rw [List.length_append, getElem?_append_self t (tapIndex_lt (by omega) k d), hmod]

theorem gather_append_self {α : Type} {t : List α} (ht : 0 < t.length) (k : Nat) : gather (t ++ t) k = gather t k := by
  simp only [gather, memRead_eq, getElem?_tapIndex_append_self ht]

theorem gather_add_length {α : Type} (t : List α) (k : Nat) : gather t (k + t.length) = gather t k := by
  simp only [gather, tapIndex_add_length]

/-- SPLIT one table length further on: the index moves by the length, the fraction stays. -/
theorem exact_split_add_nat {p : Rat} (h : 0 ≤ p) (L : Nat) :
    splitIndex exactNum (p + L) = splitIndex exactNum p + L ∧ splitFrac exactNum (p + L) = splitFrac exactNum p := by
  have h0 := Int.floor_nonneg.mpr h
  rw [exact_splitIndex, exact_splitIndex, exact_splitFrac, exact_splitFrac, Int.floor_add_natCast]
  exact ⟨by omega, by push_cast; ring⟩

/-- In the exact instance an integer phase gives the table entry there (R132). -/
theorem sampleAt_exact_natCast {t : List Rat} {k : Nat} (hk : k < t.length) : sampleAt exactNum t (k : Rat) = t[k]? := by
  have hindex : splitIndex exactNum (k : Rat) = k := by rw [exact_splitIndex, Int.floor_natCast, Int.toNat_natCast]
  have hfrac : splitFrac exactNum (k : Rat) = 0 := by rw [exact_splitFrac, Int.floor_natCast, Int.cast_natCast, sub_self]
  obtain ⟨y, hy, hs⟩ := sampleAt_eq_some exactNum (Nat.zero_lt_of_lt hk) (k : Rat)
  obtain ⟨-, hread, -⟩ := getElem?_of_gather (Nat.zero_lt_of_lt hk) hy
  rw [hindex, tapIndex_zero hk] at hread
  rw [hs, hfrac, interp_exact_zero, hread]

/-- Settles O47: the fraction at an integer is 0, and the taps are the same words in one copy of the table and in two. -/
theorem exactSampleCrossesTheSeam : Obligations.ExactSampleCrossesTheSeam := by
  intro t ht
  have htpos : 0 < t.length := by omega
  have hcopies (p : Rat) : sampleAt exactNum (t ++ t) p = sampleAt exactNum t p := by
    simp only [sampleAt, gather_append_self htpos]
  refine ⟨fun k hk => sampleAt_exact_natCast hk, fun p h0 _ => ⟨?_, hcopies p⟩⟩
  obtain ⟨hindex, hfrac⟩ := exact_split_add_nat h0 t.length
  rw [hcopies]
  simp only [sampleAt, hindex, hfrac, gather_add_length]

end Sys2Proof.Machine
end

section
/-! PROOFS. GET_INFO and what writes nothing (R140, R141, R144, R152): the four stream properties, the reserved opcode, and that
a command after a query or an error does what it would have done without it. -/

namespace Sys2Proof.Machine

open F32

/-! ### GET_INFO and the reserved opcode -/

/-- GET_INFO answers from the constants and writes nothing (R140). -/
theorem exec_getInfo_of_inv {s : State} (h : s.Inv) (sel : Selector) :
    exec (.getInfo sel) s = .next (s.respond (infoResponse s.cfg sel).status (infoResponse s.cfg sel).data) :=
  execGetInfo_of_legal ((legal_iff_inv s).mpr h) sel

theorem exec_reserved_of_inv {s : State} (h : s.Inv) : exec .reserved s = .next (s.respond .illegalCommand 0x00000000#32) :=
  execReserved_of_legal ((legal_iff_inv s).mpr h)

/-- Settles O29: GET_INFO at each selector, with the property's response read off its definition. -/
theorem getInfoAnswersTheFourProperties : Obligations.GetInfoAnswersTheFourProperties :=
  fun _ h => ⟨exec_getInfo_of_inv h .channels, exec_getInfo_of_inv h .sampleRate, exec_getInfo_of_inv h .frameLength,
    exec_getInfo_of_inv h .totalDuration⟩

/-! ### No command reads the record of responses -/

/-- A command on a state of R23 writes the same registers and gives the same answer whatever was answered before: no command
reads the record of responses. -/
theorem exec_uniform_in_rsps {s : State} (h : s.Inv) (i : Instr) : ∃ (p v : Word) (r : Response), ∀ rs : List Response,
    exec i { s with rsps := rs } = .next { s with phase := p, inc := v, rsps := rs ++ [r] } := by
  cases i with
  | getSample =>
    obtain ⟨out, hout, -⟩ := exec_getSample_of_inv h
    refine ⟨wrap s.cfg.table.length (fadd s.phase s.inc), s.inc, ⟨.ok, out⟩, fun rs => ?_⟩
    obtain ⟨out', hout', hx⟩ := exec_getSample_of_inv (inv_of_rsps h rs)
    obtain rfl : out' = out := Option.some.inj (hout'.symm.trans hout)
    exact hx
  | setFrequency f =>
    cases hf : isFinite (Cfg.incrementOf s.cfg f) with
    | true =>
      exact ⟨s.phase, Cfg.incrementOf s.cfg f, ⟨.ok, 0x00000000#32⟩,
        fun rs => exec_setFrequency_accepted (inv_of_rsps h rs) hf⟩
    | false =>
      exact ⟨s.phase, s.inc, ⟨.badFrequency, 0x00000000#32⟩, fun rs => exec_setFrequency_refused (inv_of_rsps h rs) hf⟩
  | getInfo sel => exact ⟨s.phase, s.inc, infoResponse s.cfg sel, fun rs => exec_getInfo_of_inv (inv_of_rsps h rs) sel⟩
  | reserved => exact ⟨s.phase, s.inc, ⟨.illegalCommand, 0x00000000#32⟩, fun rs => exec_reserved_of_inv (inv_of_rsps h rs)⟩

/-- The same command after another record of responses: the same answer, at the end of that record, and the same state apart
from it. -/
theorem exec_next_of_rsps {i : Instr} {s s' : State} {r : Response} (h : exec i s = .next s') (hr : s'.rsps = s.rsps ++ [r])
    (rs : List Response) : exec i { s with rsps := rs } = .next { s' with rsps := rs ++ [r] } := by
  obtain ⟨p, v, r', hx⟩ := exec_uniform_in_rsps ((exec_next_iff_inv i s).mp ⟨s', h⟩) i
  obtain rfl : s' = { s with phase := p, inc := v, rsps := s.rsps ++ [r'] } := Host.Outcome.next.inj (h.symm.trans (hx s.rsps))
  obtain rfl : r' = r := List.singleton_inj.mp (List.append_cancel_left hr)
  exact hx rs

/-! ### Queries and errors -/

/-- A SET_FREQUENCY answered BAD_FREQUENCY only appends that answer (R152): an accepted one answers OK. -/
theorem eq_respond_of_badFrequency {s s' : State} {f : Word} (h : exec (.setFrequency f) s = .next s')
    (hr : s'.rsps = s.rsps ++ [{ status := .badFrequency, data := 0x00000000#32 }]) :
    s' = s.respond .badFrequency 0x00000000#32 := by
  rcases exec_setFrequency_next_cases h with ⟨-, rfl⟩ | ⟨-, hs'⟩
  · simp at hr
  · exact hs'

/-- Settles O16: each of the three only appends its answer, and no command reads the record of responses. -/
theorem queriesAndErrorsLeaveNoTrace : Obligations.QueriesAndErrorsLeaveNoTrace := by
  intro q i s s1 s2 hq h1 h2
  obtain ⟨-, -, r, hr⟩ := exec_frame h2
  have hs : s.Inv := (exec_next_iff_inv i s).mp ⟨s2, h2⟩
  obtain ⟨st, d, rfl⟩ : ∃ st d, s1 = s.respond st d := by
    rcases hq with rfl | ⟨sel, rfl⟩ | ⟨f, rfl, hbad⟩
    · exact ⟨_, _, Host.Outcome.next.inj (h1.symm.trans (exec_reserved_of_inv hs))⟩
    · exact ⟨_, _, Host.Outcome.next.inj (h1.symm.trans (exec_getInfo_of_inv hs sel))⟩
    · exact ⟨_, _, eq_respond_of_badFrequency h1 hbad⟩
  exact ⟨r, hr, exec_next_of_rsps h2 hr _⟩

theorem decode_commandWord_reserved (x : Word) : decode (commandWord 0b11#2 x) = .reserved :=
  decode_of_op_reserved (opField_commandWord _ x)

/-- Settles O30: the word decodes to the reserved command, and GET_SAMPLE does not read the answer it left. -/
theorem reservedOpcodeIsIllegalAndHarmless : Obligations.ReservedOpcodeIsIllegalAndHarmless := by
  intro s x h
  obtain ⟨out, -, hx⟩ := exec_getSample_of_inv h
  refine ⟨?_, _, out, hx, exec_next_of_rsps hx rfl _⟩
  calc exec (decode (commandWord 0b11#2 x)) s = exec .reserved s := by rw [decode_commandWord_reserved]
    _ = .next (s.respond .illegalCommand 0x00000000#32) := exec_reserved_of_inv h

end Sys2Proof.Machine
end

section
/-! PROOFS. Reset at the port (R180, R182): what is abandoned at the edge with `rst` high, and the cycles after it. -/

namespace Sys2Proof.Machine

/-- Where no word is waited with, any word may be presented (R71, R186). -/
theorem breaksHandshake_of_waiting_none {p : PortState} (h : p.waiting = none) (q : Pins) : breaksHandshake q p = false :=
  (breaksHandshake_eq_false_iff q p).mpr (by simp [h])

/-- A command of more than one cycle is in progress after the edge that accepts it (R71). -/
theorem tick_of_accepted_long {q : Pins} {p : PortState} (hl : p.core.legal = true) (hr : q.rst = false)
    (hs : breaksHandshake q p = false) (hb : p.busy = none) (hv : q.cmdValid = true) (hready : p.ready = true)
    (hlat : 1 < latency p.core.cfg.timing (decode q.cmd)) :
    tick q p = .next (p.startCommand q.cmd (latency p.core.cfg.timing (decode q.cmd) - 1)) := by
  have hstart := advanceCommand_of_ready (q := q) hready q.cmd (Nat.sub_pos_of_lt hlat)
  rw [Nat.sub_add_cancel hlat.le] at hstart
  exact (tick_of_accepted hl hr hs hb hv hready).trans hstart

/-- Settles O49: the edge with `rst` high leaves the reset registers and clears the port. -/
theorem resetAbandonsTheCommandInProgress : Obligations.ResetAbandonsTheCommandInProgress :=
  fun _ _ hw hr => ⟨_, tick_of_rst hw hr, rfl, rfl, rfl, rfl⟩

/-- Settles O56: after the reset edge the port is idle, with no word to keep, on a state that meets R23. -/
theorem portIsReadyAfterReset : Obligations.PortIsReadyAfterReset := by
  intro p p' q hw hr h
  obtain rfl := Host.Outcome.next.inj ((tick_of_rst hw hr).symm.trans h)
  have hl : p.core.applyReset.legal = true := (legal_iff_inv _).mpr (applyReset_inv hw)
  have hs := breaksHandshake_of_waiting_none
    (p := { core := p.core.applyReset, busy := none, rspNow := none, waiting := none }) rfl
  refine ⟨out_of_idle rfl rfl, fun q' hr' hv => ?nothingPresented, fun w hlat => ?presented⟩
  case nothingPresented =>
    exact ⟨_, tick_of_not_accepted hw hr' (hs q') rfl (.inl hv), out_of_idle rfl rfl, rfl⟩
  case presented =>
    exact ⟨_, tick_of_accepted_long hl rfl (hs _) rfl rfl (ready_of_idle rfl rfl) hlat, rfl⟩

end Sys2Proof.Machine
end
